-- ==== Sys2Proof/Word.lean ====
section
/-! DEFINITION. The words of the QOI core: bytes, 32-bit registers, 64-bit cursors, and the pixel. -/

namespace Sys2Proof

/-- One channel value, and one byte of a stream (R8, CHANNEL_BITS = 8). -/
abbrev Byte := BitVec 8

/-- A host-visible register (R30). -/
abbrev Word32 := BitVec 32

/-- A cursor or counter (R8, CURSOR_BITS = 64). -/
abbrev Word64 := BitVec 64

/-- A pixel is a 4-tuple of 8-bit unsigned values; equal exactly when all four channels are (R10, R110). -/
structure Pixel where
  r : Byte
  g : Byte
  b : Byte
  a : Byte
deriving DecidableEq, Repr

end Sys2Proof
end

