-- ==== Sys2Proof/Config.lean ====
section
/-! DEFINITION. The fixed and the named parameters of R8. Parameters the spec leaves OPEN are data of State or
arguments of the functions that use them (log entries 2, 3, 16); here stand their defaults. -/

namespace Sys2Proof

/-- Decoder policy for a RUN longer than the pixels remaining (R8 RUN_OVERSHOOT, R133). -/
inductive RunOvershoot where
  | clamp
  | fault
deriving DecidableEq, Repr

namespace Config

/-- R8: RUN_MAX. -/
def runMax : Nat := 62

/-- R8: PREV_RESET. -/
def prevReset : Pixel := ⟨0, 0, 0, 255⟩

/-- R8: CACHE_RESET, the value of every slot. -/
def cacheReset : Pixel := ⟨0, 0, 0, 0⟩

/-- R8: the default of the OPEN parameter N_ENC (log entry 3). -/
def nEnc : Nat := 1

/-- R8: the default of the OPEN parameter N_DEC (log entry 3). -/
def nDec : Nat := 1

/-- R8: the default of RUN_OVERSHOOT (log entry 2). -/
def runOvershoot : RunOvershoot := .clamp

/-- R8, R91: the default of the host-side parameter ACCEPT_CHANNELS_ZERO (log entry 16). -/
def acceptChannelsZero : Bool := true

end Config

end Sys2Proof
end

