-- ==== Sys2Proof/Syntax.lean ====
section
/-! DEFINITION. The instructions: the six chunk kinds and the end marker, one constructor per row of
spec/opcode_table.json, with the operands of the chunk notation of R84. -/

namespace Sys2Proof

/-- The op of a chunk (R14, R71). -/
inductive ChunkKind where
  | rgb
  | rgba
  | index
  | diff
  | luma
  | run
deriving DecidableEq, Repr

/-- One unit of the byte stream, in the notation of R84 and R85: deltas are signed and unbiased, `n` is the run
length. `WellFormed.lean` says which operands can be spelled. -/
inductive Instr where
  /-- RGB r, g, b (R72). -/
  | rgb (r g b : Byte)
  /-- RGBA r, g, b, a (R73). -/
  | rgba (r g b a : Byte)
  /-- INDEX i: the cache slot (R74). -/
  | index (i : BitVec 6)
  /-- DIFF dr, dg, db (R75). -/
  | diff (dr dg db : Int)
  /-- LUMA dg, drg, dbg: green delta, then red and blue deltas less the green one (R76). -/
  | luma (dg drg dbg : Int)
  /-- RUN n (R77). -/
  | run (n : Nat)
  /-- END: the 8-byte end marker; not a chunk (R83, R85). -/
  | endMarker
deriving DecidableEq, Repr

end Sys2Proof
end

