-- ==== Sys2Proof/Machine/State.lean ====
section
/-! DEFINITION. The state of the QOI core as plain data: what R23 gives each engine instance, the host-side collaborators
it talks to (R191), and the model's own record of what happens next. -/

namespace Sys2Proof.Machine

/-- A pixel grid: pixels by linear position (R50, R56), positions strictly rising, one entry a position. A position that is
not listed holds nothing the machine knows: in a sink it is as the host left it (R183), in a source it has not been
answered yet (log entries 6 and 9). -/
abbrev Memory := List (Nat × Pixel)

/-- The canonical form of a grid. -/
abbrev Memory.wf (g : Memory) : Prop := (g.map Prod.fst).Pairwise (· < ·)

/-- Engine state `STATE` (R28). -/
inductive EngineState where
  | idle
  | busy
  | done
  | error
deriving DecidableEq, Repr

/-- The error codes of R181. Values 4 to 7 are never produced. -/
inductive ErrorCode where
  | none
  | truncation
  | ioError
  | internal
deriving DecidableEq, Repr

/-- One record of the chunk-event output: kind, 3-bit length, 6-bit pixel count (R192). -/
structure ChunkEvent where
  kind : ChunkKind
  len : BitVec 3
  pixels : BitVec 6
deriving DecidableEq, Repr

/-- What both kinds of engine instance hold (R20 to R37). -/
structure Engine where
  /-- `cache[0..63]` (R21). -/
  cache : Vector Pixel 64
  /-- `prev` (R22). -/
  prev : Pixel
  /-- The pixel cursor: `DPIX` of a decoder (R26), `ECUR` of an encoder (R24). -/
  pix : Word64
  /-- The byte counter: `DBYTE` of a decoder (R26), bytes emitted of an encoder (R35). -/
  bytes : Word64
  /-- `STATE` (R28). -/
  st : EngineState
  /-- `ERR` (R181). -/
  err : ErrorCode
  /-- `WIDTH` (R33). -/
  width : Word32
  /-- `HEIGHT` (R33). -/
  height : Word32
  /-- `NPIX`, latched at START (R33). -/
  npix : Word64
  /-- The records emitted on the chunk-event output, oldest first (R192). -/
  events : List ChunkEvent
deriving DecidableEq, Repr

/-- What the byte source answers to one `ReadByte` (R52). -/
inductive ReadAnswer where
  | byte (b : Byte)
  | exhausted
  | fail
deriving DecidableEq, Repr

/-- What the byte sink answers to one `EmitByte` (R53). -/
inductive EmitAnswer where
  | ok
  | fail
deriving DecidableEq, Repr

/-- A decoder instance with its byte source and its pixel sink. -/
structure Decoder where
  eng : Engine
  /-- The chunk buffer: the tag and payload bytes read so far in the current chunk step (R27). -/
  chunkBuf : List Byte
  /-- The byte source: its answers to the coming `ReadByte`s, next one first; none listed means the host has not
  answered yet (log entry 5). -/
  source : List ReadAnswer
  /-- The run expansion of the current chunk step while it waits for the pixel sink: how many of the chunk's pixels are
  written already (R130; log entry 23). None means that no expansion is under way. -/
  expanded : Option Nat
  /-- The pixel sink (R55). -/
  sink : Memory
  /-- How many of the coming `SinkPixel`s the host has answered. Each answer is that the pixel is written, since `SinkPixel`
  always succeeds; 0 means no answer yet (log entry 19). -/
  pixelAnswers : Nat
deriving DecidableEq, Repr

/-- An encoder instance with its pixel source and its byte sink. -/
structure Encoder where
  eng : Engine
  /-- `ERUN`: the equal pixels counted by the run lookahead when it last waited for the pixel source (R25). The count is kept
  while the lookahead waits, and after its end until the chunk is committed (log entry 24); it is 0 outside a chunk step. -/
  erun : Nat
  /-- How many bytes of the current chunk, or of the end marker, the sink has accepted (log entry 7). -/
  epos : Nat
  /-- The pixel source (R54). -/
  source : Memory
  /-- The byte sink's answers to the coming `EmitByte`s, next one first; none listed means no answer yet
  (log entry 5). -/
  answers : List EmitAnswer
  /-- The bytes in the byte sink, in emission order (R53). -/
  sink : List Byte
deriving DecidableEq, Repr

/-- An engine instance of the block, by its kind and number (R20). -/
inductive Agent where
  | dec (k : Nat)
  | enc (k : Nat)
deriving DecidableEq, Repr

/-- What can happen next: an instance takes a turn, or the host acts (log entry 4). -/
inductive Action where
  /-- The instance takes its next step (R189: any interleaving). -/
  | turn (a : Agent)
  /-- The host writes a register of the instance's block (R30). -/
  | regWrite (a : Agent) (offset : Nat) (data : Word32)
  /-- The host reads a register of the instance's block (R30). -/
  | regRead (a : Agent) (offset : Nat)
  /-- The host sets what decoder `k`'s byte source answers from now on (R52, R66, R202). -/
  | byteSource (k : Nat) (answers : List ReadAnswer)
  /-- The host provides decoder `k`'s pixel sink with these contents (R55, R202). -/
  | pixelSink (k : Nat) (cells : List (Nat × Pixel))
  /-- The host sets how many of decoder `k`'s coming `SinkPixel`s it answers from now on (R55). -/
  | pixelAnswers (k : Nat) (n : Nat)
  /-- The host provides encoder `k`'s pixel source (R54, R203). -/
  | pixelSource (k : Nat) (cells : List (Nat × Pixel))
  /-- The host sets what encoder `k`'s byte sink answers from now on (R53). -/
  | sinkAnswers (k : Nat) (answers : List EmitAnswer)
  /-- The host provides encoder `k`'s byte sink with these contents (R53, R203: the header it wrote itself). -/
  | byteSink (k : Nat) (contents : List Byte)
  /-- Power-on reset of the block (R200). -/
  | powerOn
deriving DecidableEq, Repr

/-- The block, and what the model keeps about its surroundings. -/
structure State where
  /-- The `N_DEC` decoder instances (R20). -/
  decs : List Decoder
  /-- The `N_ENC` encoder instances (R20). -/
  encs : List Encoder
  /-- The parameter RUN_OVERSHOOT (R8, R133); no step writes it (log entry 2). -/
  overshoot : RunOvershoot
  /-- The value that the last register read returned to the host (R30). -/
  busData : Word32
  /-- The instance whose turn it is (log entry 4). -/
  turn : Agent
  /-- What happens next, first entry first (log entry 4). -/
  agenda : List Action
deriving DecidableEq, Repr

/-- Why a step stops the model itself. The hardware's own errors (R180) are no faults: they end the session and the step
answers a next state. -/
inductive Fault where
  /-- An action or a turn names an instance that the block does not have, so there is no such register block (R20, R189).
  Raised by every operation that looks an instance up. Safe: the hardware has no such instance to act. -/
  | noSuchInstance
deriving DecidableEq, Repr

/-- Why the model gives no meaning. -/
inductive Refusal where
  /-- An instruction without a meaning yet, by its mnemonic. Raised by `exec` only. Safe. -/
  | notModelled (mnemonic : String)
  /-- `exec` was asked for a chunk on an encoder that does not select it (R151, R165): an encoder emits no other. Raised
  by the encoder half of every meaning; no step reaches it (log entry 8). Safe. -/
  | chunkNotSelected
  /-- `exec` was asked for END on a busy decoder: END "has no decoder semantics of its own" (R85). Raised by `execEndMarker`;
  no step reaches it (log entry 10). Safe. -/
  | endMarkerNotDecoded
  /-- The host changes the pixel source during an encode session (R67, U5: refuse). Raised by the host action
  `pixelSource` (log entry 14). Safe. -/
  | sourceChanged
  /-- A register access at an offset inside the block that is no register's offset, while every register "is accessed only
  as a whole 32-bit word" (R30). Raised by the host actions `regRead` and `regWrite` (log entry 15). Safe. -/
  | partialRegisterAccess
deriving DecidableEq, Repr

/-- R37, R200: an instance's own state after power-on reset. -/
def Engine.powerOn : Engine where
  cache := Vector.replicate 64 Config.cacheReset
  prev := Config.prevReset
  pix := 0
  bytes := 0
  st := .idle
  err := .none
  width := 0
  height := 0
  npix := 0
  events := []

/-- A decoder after power-on reset, its collaborators not set up yet (log entry 12). -/
def Decoder.powerOn : Decoder where
  eng := Engine.powerOn
  chunkBuf := []
  source := []
  expanded := none
  sink := []
  pixelAnswers := 0

/-- An encoder after power-on reset, its collaborators not set up yet (log entry 12). -/
def Encoder.powerOn : Encoder where
  eng := Engine.powerOn
  erun := 0
  epos := 0
  source := []
  answers := []
  sink := []

/-- The block after power-on reset, for any value of its OPEN parameters (R8, R20, R200). -/
def State.resetWith (nDec nEnc : Nat) (overshoot : RunOvershoot) : State where
  decs := List.replicate nDec Decoder.powerOn
  encs := List.replicate nEnc Encoder.powerOn
  overshoot := overshoot
  busData := 0
  turn := .dec 0
  agenda := []

/-- R200: the block right after power-on reset, with the default parameters of R8. -/
def State.reset : State := State.resetWith Config.nDec Config.nEnc Config.runOvershoot

end Sys2Proof.Machine
end

