-- ==== Sys2Proof/Machine/Flags.lean ====
section
/-! DEFINITION. The status bits: the block has no condition codes (R29), so the only ones are the fields of STATUS and the
completion output; and the kind codes of the chunk-event record. -/

namespace Sys2Proof.Machine

/-- R32: the STATE field. -/
def EngineState.code : EngineState → BitVec 2
  | .idle => 0
  | .busy => 1
  | .done => 2
  | .error => 3

/-- R32, R181: the ERR field. -/
def ErrorCode.code : ErrorCode → BitVec 3
  | .none => 0
  | .truncation => 1
  | .ioError => 2
  | .internal => 3

/-- R32: STATUS, bits 1:0 STATE, bits 4:2 ERR, bits 31:5 read 0. -/
def Engine.statusWord (e : Engine) : Word32 := (0#27 ++ e.err.code ++ e.st.code : BitVec 32)

/-- R186: the level output `done_o`. -/
def Engine.doneO (e : Engine) : Bool := e.st == .done || e.st == .error

/-- R192: the kind code of a chunk-event record. -/
def kindCode : ChunkKind → BitVec 3
  | .rgb => 0
  | .rgba => 1
  | .index => 2
  | .diff => 3
  | .luma => 4
  | .run => 5

end Sys2Proof.Machine
end

