-- ==== Sys2Proof/WellFormed.lean ====
section
/-! DEFINITION. Which instructions can be spelled: the operand ranges of R84 ("An operand outside its range cannot be
spelled"). -/

namespace Sys2Proof

/-- The operand ranges of R84. Literal bytes and INDEX slots are in range by their types (R80, R57). -/
def Instr.wf : Instr → Bool
  | .rgb _ _ _ => true
  | .rgba _ _ _ _ => true
  | .index _ => true
  | .diff dr dg db => decide (-2 ≤ dr ∧ dr ≤ 1) && decide (-2 ≤ dg ∧ dg ≤ 1) && decide (-2 ≤ db ∧ db ≤ 1)
  | .luma dg drg dbg =>
    decide (-32 ≤ dg ∧ dg ≤ 31) && decide (-8 ≤ drg ∧ drg ≤ 7) && decide (-8 ≤ dbg ∧ dbg ≤ 7)
  | .run n => decide (1 ≤ n ∧ n ≤ Config.runMax)
  | .endMarker => true

end Sys2Proof
end

