-- ==== Sys2Proof/Decode.lean ====
section
/-! DEFINITION. The decoder of the chunk stream, total on any bytes (R70, R71, R79, R80), and the encoder written from the
same tables (R72 to R77, R83 to R85). -/

namespace Sys2Proof

/-- Why a list of bytes holds no whole chunk. Every tag value is a chunk (R80), so these are the only reasons. -/
inductive DecodeReject where
  /-- There is no tag byte. -/
  | noTag
  /-- The payload that this tag asks for is not all there. -/
  | shortPayload (tag : Byte)
deriving DecidableEq, Repr

/-- The outcome of decoding: the unit and the bytes after it, or a rejection by name. -/
inductive Decoded where
  | unit (i : Instr) (rest : List Byte)
  | rejected (why : DecodeReject)
deriving DecidableEq, Repr

/-- R71: the exact values 0xFE and 0xFF first, then the top two bits. -/
def decodeKind (tag : Byte) : ChunkKind :=
  if tag = 0xFE#8 then .rgb
  else if tag = 0xFF#8 then .rgba
  else if tag.extractLsb' 6 2 = 0b00#2 then .index
  else if tag.extractLsb' 6 2 = 0b01#2 then .diff
  else if tag.extractLsb' 6 2 = 0b10#2 then .luma
  else .run

/-- R79: a chunk's length from its tag alone. -/
def chunkLength (tag : Byte) : Nat :=
  if tag = 0xFF#8 then 5
  else if tag = 0xFE#8 then 4
  else if tag.extractLsb' 6 2 = 0b10#2 then 2
  else 1

/-- R78: a signed delta is its unsigned field less a fixed bias, with no sign extension. -/
def unbias (bias : Int) {w : Nat} (field : BitVec w) : Int := (field.toNat : Int) - bias

/-- R72 to R77: the chunk at the head of a byte stream. -/
def decodeChunk : List Byte → Decoded
  | [] => .rejected .noTag
  | tag :: rest =>
    match decodeKind tag, rest with
    | .rgb, r :: g :: b :: rest' => .unit (.rgb r g b) rest'
    | .rgba, r :: g :: b :: a :: rest' => .unit (.rgba r g b a) rest'
    | .index, _ => .unit (.index (tag.extractLsb' 0 6)) rest
    | .diff, _ =>
      .unit (.diff (unbias 2 (tag.extractLsb' 4 2)) (unbias 2 (tag.extractLsb' 2 2))
        (unbias 2 (tag.extractLsb' 0 2))) rest
    | .luma, b2 :: rest' =>
      .unit (.luma (unbias 32 (tag.extractLsb' 0 6)) (unbias 8 (b2.extractLsb' 4 4))
        (unbias 8 (b2.extractLsb' 0 4))) rest'
    | .run, _ => .unit (.run (1 + (tag.extractLsb' 0 6).toNat)) rest
    | .rgb, _ => .rejected (.shortPayload tag)
    | .rgba, _ => .rejected (.shortPayload tag)
    | .luma, _ => .rejected (.shortPayload tag)

/-- R83: the end marker, seven 0x00 bytes followed by one 0x01 byte. -/
def endMarkerBytes : List Byte := [0x00, 0x00, 0x00, 0x00, 0x00, 0x00, 0x00, 0x01]

/-- R84, R85: the unit that a byte listing spells. The pseudo-instruction END is spelled by exactly the eight bytes of
R83; every other listing is read as a chunk. The decoder engine never uses this function: it reads chunks only (R132). -/
def decodeUnit (bs : List Byte) : Decoded :=
  if bs = endMarkerBytes then .unit .endMarker [] else decodeChunk bs

/-- R78: the unsigned field that holds a signed delta. -/
def bias (k : Int) (d : Int) : Byte := BitVec.ofInt 8 (d + k)

/-- R72 to R77 and R83: the bytes of an instruction, in stream order. -/
def encode : Instr → List Byte
  | .rgb r g b => [0xFE#8, r, g, b]
  | .rgba r g b a => [0xFF#8, r, g, b, a]
  | .index i => [i.zeroExtend 8]
  | .diff dr dg db => [0x40#8 ||| (bias 2 dr <<< 4) ||| (bias 2 dg <<< 2) ||| bias 2 db]
  | .luma dg drg dbg => [0x80#8 ||| bias 32 dg, (bias 8 drg <<< 4) ||| bias 8 dbg]
  | .run n => [0xC0#8 ||| BitVec.ofNat 8 (n - 1)]
  | .endMarker => endMarkerBytes

/-- The op of an instruction; END is no chunk and has none (R85). -/
def Instr.kind : Instr → Option ChunkKind
  | .rgb _ _ _ => some .rgb
  | .rgba _ _ _ _ => some .rgba
  | .index _ => some .index
  | .diff _ _ _ => some .diff
  | .luma _ _ _ => some .luma
  | .run _ => some .run
  | .endMarker => none

/-- R70, R83: the length in bytes of an instruction. -/
def Instr.byteLength : Instr → Nat
  | .rgb _ _ _ => 4
  | .rgba _ _ _ _ => 5
  | .index _ => 1
  | .diff _ _ _ => 1
  | .luma _ _ _ => 2
  | .run _ => 1
  | .endMarker => 8

/-- The bytes, in stream order, of an opcode-table word: byte `j` of the stream is bits `8j+7..8j` of `w`, and every bit
at or above `nbits` is 0. `count` bytes are laid out. -/
def wordBytes (nbits w : Nat) : Nat → List Byte
  | 0 => []
  | count + 1 => wordBytes nbits w count ++ [BitVec.ofNat 8 ((w % 2 ^ nbits) >>> (8 * count))]

/-- The longest instruction, END, has 8 bytes. -/
def maxBytes : Nat := 8

/-- Whether a table word stands for the END row: its eight bytes are the end marker, either numbered with the first byte
of the stream least significant, or as the table writes END's own match value, 0x0000000000000001 (log entry 17). -/
def isEndWord (nbits w : Nat) : Bool :=
  nbits == 64 && (wordBytes nbits w maxBytes == endMarkerBytes || w == 1)

/-- The instruction the decoder reads from an opcode-table word of `nbits` bits, every bit above `nbits` being 0. -/
def decodeTableWord (nbits w : Nat) : Option Instr :=
  if isEndWord nbits w then some .endMarker
  else
    match decodeChunk (wordBytes nbits w maxBytes) with
    | .unit i _ => some i
    | .rejected _ => none

end Sys2Proof
end

