-- ==== Sys2Proof/Machine/Operands.lean ====
section
/-! DEFINITION. Pixel packing, the pixel hasher and channel arithmetic: every operand form of the chunk rules. -/

namespace Sys2Proof

/-- R10: a pixel as one word, R[31:24] || G[23:16] || B[15:8] || A[7:0]. -/
def Pixel.toWord (p : Pixel) : Word32 := p.r ++ p.g ++ p.b ++ p.a

/-- R10: the pixel that a word carries. -/
def Pixel.ofWord (w : Word32) : Pixel :=
  ⟨w.extractLsb' 24 8, w.extractLsb' 16 8, w.extractLsb' 8 8, w.extractLsb' 0 8⟩

namespace Machine

/-- R100: `(3·R + 5·G + 7·B + 11·A) mod 64`, the sum over unbounded integers. -/
def pixelHash (px : Pixel) : BitVec 6 :=
  BitVec.ofNat 6 ((3 * px.r.toNat + 5 * px.g.toNat + 7 * px.b.toNat + 11 * px.a.toNat) % 64)

/-- R101: the same hash in 6-bit wrapping arithmetic, as an implementation may compute it. -/
def pixelHash6 (px : Pixel) : BitVec 6 :=
  3 * px.r.extractLsb' 0 6 + 5 * px.g.extractLsb' 0 6 + 7 * px.b.extractLsb' 0 6 + 11 * px.a.extractLsb' 0 6

/-- R111: a channel plus a signed delta, modulo 256. -/
def addDelta (c : Byte) (d : Int) : Byte := c + BitVec.ofInt 8 d

/-- R126, R127: the pixel at signed channel deltas from `p`; alpha unchanged. -/
def shiftPixel (p : Pixel) (dr dg db : Int) : Pixel :=
  ⟨addDelta p.r dr, addDelta p.g dg, addDelta p.b db, p.a⟩

/-- R155: the wrapping deltas `dR`, `dG`, `dB`. -/
def deltaR (px prev : Pixel) : Byte := px.r - prev.r

@[inherit_doc deltaR]
def deltaG (px prev : Pixel) : Byte := px.g - prev.g

@[inherit_doc deltaR]
def deltaB (px prev : Pixel) : Byte := px.b - prev.b

/-- R155: `alpha_same`. -/
def alphaSame (px prev : Pixel) : Bool := px.a == prev.a

/-- R156: the DIFF predicate. -/
def diffOk (px prev : Pixel) : Bool :=
  alphaSame px prev && decide ((deltaR px prev + 2).toNat ≤ 3) && decide ((deltaG px prev + 2).toNat ≤ 3) &&
    decide ((deltaB px prev + 2).toNat ≤ 3)

/-- R156: the DIFF chunk, from its biased deltas. -/
def diffChunk (px prev : Pixel) : Instr :=
  .diff (unbias 2 (deltaR px prev + 2)) (unbias 2 (deltaG px prev + 2)) (unbias 2 (deltaB px prev + 2))

/-- R158: the LUMA predicate. -/
def lumaOk (px prev : Pixel) : Bool :=
  alphaSame px prev && decide ((deltaG px prev + 32).toNat ≤ 63) &&
    decide ((deltaR px prev - deltaG px prev + 8).toNat ≤ 15) &&
    decide ((deltaB px prev - deltaG px prev + 8).toNat ≤ 15)

/-- R158: the LUMA chunk, from its biased deltas. -/
def lumaChunk (px prev : Pixel) : Instr :=
  .luma (unbias 32 (deltaG px prev + 32)) (unbias 8 (deltaR px prev - deltaG px prev + 8))
    (unbias 8 (deltaB px prev - deltaG px prev + 8))

/-- R56: the linear position of column `x`, row `y`. -/
def linearPosition (width : Word32) (x y : Nat) : Nat := y * width.toNat + x

end Machine

end Sys2Proof
end

