-- ==== Sys2Proof/Machine/Ops.lean ====
section
/-! DEFINITION. The named operations over pixel grids, cache, `prev`, cursors and registers; the four transaction
primitives; session start, raising an error and ending a session. Every meaning is written over these. -/

namespace Sys2Proof.Machine

/-! ## Pixel grids (R50, R54, R55) -/

/-- The pixel listed at a position. -/
def Memory.read : Memory → Nat → Option Pixel
  | [], _ => none
  | (q, x) :: g, p => if p = q then some x else Memory.read g p

/-- R60: one whole pixel is written at one position; the positions stay strictly rising. -/
def Memory.write : Memory → Nat → Pixel → Memory
  | [], p, px => [(p, px)]
  | (q, x) :: g, p, px =>
    if p < q then (p, px) :: (q, x) :: g
    else if p = q then (p, px) :: g
    else (q, x) :: Memory.write g p px

/-- R130: `px` at the `m` positions from `p` on, in ascending order. -/
def Memory.fill (g : Memory) (p : Nat) (px : Pixel) : Nat → Memory
  | 0 => g
  | m + 1 => Memory.fill (Memory.write g p px) (p + 1) px m

/-- The grid that a list of cells describes, a later cell taking precedence. -/
def Memory.ofCells (cells : List (Nat × Pixel)) : Memory :=
  cells.foldl (fun g c => Memory.write g c.1 c.2) []

/-- Every position listed in `g` holds the same pixel in `g'` (R67: the source is a fixed function of the position). -/
def Memory.extendedBy (g g' : Memory) : Bool :=
  g.all fun c => Memory.read g' c.1 == Memory.read g c.1

/-! ## The engine's registers (R20 to R37) -/

/-- R103: cache read. -/
def Engine.cacheRead (e : Engine) (i : BitVec 6) : Pixel := e.cache[i.toNat]

/-- R104: the only write form, `cache[hash(px)] <- px`. -/
def Engine.cacheWrite (px : Pixel) (e : Engine) : Engine :=
  { e with cache := e.cache.set (pixelHash px).toNat px }

/-- R105, R108, R109: the two updates that every chunk step makes, with the chunk's pixel. -/
def Engine.update (px : Pixel) (e : Engine) : Engine :=
  { e.cacheWrite px with prev := px }

/-- R24, R26: the pixel cursor advances by `n`. -/
def Engine.advance (n : Nat) (e : Engine) : Engine :=
  { e with pix := e.pix + BitVec.ofNat 64 n }

/-- R52, R53: one byte is counted. -/
def Engine.countByte (e : Engine) : Engine :=
  { e with bytes := e.bytes + 1 }

/-- R136, R169, R192: one record on the chunk-event output. -/
def Engine.chunkEvent (kind : ChunkKind) (len pixels : Nat) (e : Engine) : Engine :=
  { e with events := e.events ++ [⟨kind, BitVec.ofNat 3 len, BitVec.ofNat 6 pixels⟩] }

/-- R182: raising an error ends the session. This is the block's one exception entry; the only way out is
`Engine.startSession` (R184). -/
def Engine.raise (c : ErrorCode) (e : Engine) : Engine :=
  { e with st := .error, err := c }

/-- R131, R150: a session ends normally. -/
def Engine.finish (e : Engine) : Engine :=
  { e with st := .done, err := .none }

/-- R201: session start, the part that both kinds of instance share. -/
def Engine.startSession (e : Engine) : Engine :=
  { e with
    npix := e.width.zeroExtend 64 * e.height.zeroExtend 64
    cache := Vector.replicate 64 Config.cacheReset
    prev := Config.prevReset
    pix := 0
    bytes := 0
    err := .none
    st := .busy }

/-- R200: power-on reset. Records already emitted on the chunk-event output stay emitted (log entry 13). -/
def Engine.resetPower (e : Engine) : Engine :=
  { Engine.powerOn with events := e.events }

/-- R30 to R36: the value a register read returns, by offset. CTRL reads 0; so does every offset from 0x20 up. -/
def Engine.readReg (e : Engine) (offset : Nat) : Word32 :=
  match offset with
  | 0x04 => e.statusWord
  | 0x08 => e.width
  | 0x0C => e.height
  | 0x10 => e.pix.extractLsb' 0 32
  | 0x14 => e.pix.extractLsb' 32 32
  | 0x18 => e.bytes.extractLsb' 0 32
  | 0x1C => e.bytes.extractLsb' 32 32
  | _ => 0

/-- R33: a write of WIDTH or HEIGHT, ignored while BUSY. Writes to every other offset but CTRL's change nothing
(R30, R32, R34, R35). -/
def Engine.writeExtent (offset : Nat) (v : Word32) (e : Engine) : Engine :=
  if e.st = .busy then e
  else
    match offset with
    | 0x08 => { e with width := v }
    | 0x0C => { e with height := v }
    | _ => e

/-- R31: whether a register write is a start command that takes effect: bit 0 of CTRL written 1 while not BUSY. -/
def Engine.isStart (offset : Nat) (v : Word32) (e : Engine) : Bool :=
  offset == 0 && v.getLsbD 0 && e.st != .busy

/-! ## The decoder's operations (R52, R55, R120 to R136) -/

/-- R134, R182: an error in a decoder's chunk step; the partial contents of the chunk buffer are discarded. -/
def Decoder.raise (c : ErrorCode) (d : Decoder) : Decoder :=
  { d with eng := d.eng.raise c, chunkBuf := [], expanded := none }

/-- What one `ReadByte` request comes to. -/
inductive ReadResult where
  | got (d : Decoder)
  | waiting
  | truncated (d : Decoder)

/-- R52: `ReadByte`. An answer `Byte(b)` is taken into the chunk buffer and counted; `End` and `Fail` raise Truncation. -/
def Decoder.readByte (d : Decoder) : ReadResult :=
  match d.source with
  | [] => .waiting
  | .byte b :: rest =>
    .got { d with eng := d.eng.countByte, chunkBuf := d.chunkBuf ++ [b], source := rest }
  | .exhausted :: rest => .truncated (Decoder.raise .truncation { d with source := rest })
  | .fail :: rest => .truncated (Decoder.raise .truncation { d with source := rest })

/-- Whether pixels are still needed (R120; a cursor past NPIX needs none, log entry 22). -/
def Decoder.needsPixels (d : Decoder) : Bool := decide (d.eng.pix.toNat < d.eng.npix.toNat)

/-- R130, R55: how many of the `m` pixels of a chunk are written by now, with `j` written before: one for each `SinkPixel`
that the host has answered. -/
def Decoder.reach (m j : Nat) (d : Decoder) : Nat := j + min (m - j) d.pixelAnswers

/-- R130, R55: run expansion, from pixel `j` of `m` on, as far as the host has answered `SinkPixel`. It waits at the first
`SinkPixel` that is not answered, with the pixels before it written (R60, R193). -/
def Decoder.expand (px : Pixel) (m j : Nat) (d : Decoder) : Decoder :=
  { d with
    sink := Memory.fill d.sink (d.eng.pix.toNat + j) px (min (m - j) d.pixelAnswers)
    pixelAnswers := d.pixelAnswers - min (m - j) d.pixelAnswers
    expanded := some (d.reach m j) }

/-- R130, R136: the end of a chunk step whose `m` pixels are written: the cursor advances, and the record is emitted. -/
def Decoder.endChunk (m : Nat) (kind : ChunkKind) (len : Nat) (d : Decoder) : Decoder :=
  { d with eng := (d.eng.advance m).chunkEvent kind len m, chunkBuf := [], expanded := none }

/-- R131: the stop test. -/
def Decoder.stopTest (d : Decoder) : Decoder :=
  if d.needsPixels then d else { d with eng := d.eng.finish }

/-- R133: how many pixels of a run are written: `min(run, NPIX - DPIX)`. -/
def Decoder.runLength (run : Nat) (d : Decoder) : Nat := min run (d.eng.npix.toNat - d.eng.pix.toNat)

/-- R133: the run passes the end of the image. -/
def Decoder.overshoots (run : Nat) (d : Decoder) : Bool := decide (d.eng.npix.toNat - d.eng.pix.toNat < run)

/-- R130, R131, R136: the chunk's `m` pixels from pixel `j` on; once all are written, the end of the chunk step and the stop
test. -/
def Decoder.writeChunk (px : Pixel) (m : Nat) (kind : ChunkKind) (len j : Nat) (d : Decoder) : Decoder :=
  if d.reach m j < m then d.expand px m j
  else ((d.expand px m j).endChunk m kind len).stopTest

/-- R129, R131, R133: the common update, in the order of R129, then the stop test. With RUN_OVERSHOOT = fault a run that passes
the end raises INTERNAL instead and writes none of its pixels. A chunk step that has waited for the pixel sink goes on with its
expansion: the cache and `prev` have been updated, so `prev` holds the chunk's pixel (log entry 23). -/
def Decoder.commit (policy : RunOvershoot) (px : Pixel) (run : Nat) (kind : ChunkKind) (len : Nat) (d : Decoder) : Decoder :=
  match d.expanded with
  | none =>
    if policy = .fault ∧ d.overshoots run = true then d.raise .internal
    else Decoder.writeChunk px (d.runLength run) kind len 0 { d with eng := d.eng.update px }
  | some j => d.writeChunk d.eng.prev (d.runLength run) kind len j

/-- R122: a chunk step requires STATE = BUSY and DPIX < NPIX. An instance that is not BUSY is quiescent and keeps all its
state (R193); a BUSY one with no pixel left to write ends its session (R120, log
entries 20 and 22). -/
def Decoder.whileBusy (chunk : Decoder → Decoder) (d : Decoder) : Decoder :=
  if d.eng.st ≠ .busy then d
  else if d.needsPixels then chunk d
  else d.stopTest

/-- R201, R131: session start of a decoder; with NPIX = 0 the session ends DONE at START. -/
def Decoder.start (d : Decoder) : Decoder :=
  Decoder.stopTest { d with eng := d.eng.startSession, chunkBuf := [], expanded := none }

/-- R31, R33: a register write. -/
def Decoder.writeReg (offset : Nat) (v : Word32) (d : Decoder) : Decoder :=
  if d.eng.isStart offset v then d.start
  else { d with eng := d.eng.writeExtent offset v }

/-- R200: power-on reset; the collaborators are the host's and stay (log entry 12). -/
def Decoder.resetPower (d : Decoder) : Decoder :=
  { d with eng := d.eng.resetPower, chunkBuf := [], expanded := none }

/-! ## The encoder's operations (R53, R54, R150 to R169) -/

/-- R167, R182: an error in an encoder's chunk step. -/
def Encoder.raise (c : ErrorCode) (e : Encoder) : Encoder :=
  { e with eng := e.eng.raise c, erun := 0, epos := 0 }

/-- What an emission comes to. -/
inductive EmitResult where
  | accepted (e : Encoder)
  | waiting (e : Encoder)
  | failed (e : Encoder)

/-- R53: `EmitByte`. On `Ok` the byte is appended and counted; on `Fail` the encoder raises IoError. -/
def Encoder.emitByte (b : Byte) (e : Encoder) : EmitResult :=
  match e.answers with
  | [] => .waiting e
  | .ok :: rest =>
    .accepted { e with eng := e.eng.countByte, answers := rest, sink := e.sink ++ [b], epos := e.epos + 1 }
  | .fail :: rest => .failed (Encoder.raise .ioError { e with answers := rest })

/-- R151: the bytes of a chunk, in order; it stops at the first byte that is not accepted. -/
def Encoder.emitBytes : List Byte → Encoder → EmitResult
  | [], e => .accepted e
  | b :: bs, e =>
    match e.emitByte b with
    | .accepted e' => Encoder.emitBytes bs e'
    | r => r

/-- The bytes of the current chunk that the sink has not accepted yet, then `finish` (log entry 7). While the sink has not
answered, everything else stays, ERUN of an ended lookahead too (log entry 24). -/
def Encoder.emit (bytes : List Byte) (finish : Encoder → Encoder) (e : Encoder) : Encoder :=
  match Encoder.emitBytes (bytes.drop e.epos) e with
  | .accepted e' => finish e'
  | .waiting e' => e'
  | .failed e' => e'

/-- R54: `SrcPixel(ECUR + n)`; `none` while the host has not answered (log entry 6). -/
def Encoder.srcPixel (e : Encoder) (n : Nat) : Option Pixel := Memory.read e.source (e.eng.pix.toNat + n)

/-- R164: the common update, after every byte of the chunk has been accepted. -/
def Encoder.commit (px : Pixel) (adv : Nat) (kind : ChunkKind) (len : Nat) (e : Encoder) : Encoder :=
  { e with eng := ((e.eng.update px).advance adv).chunkEvent kind len adv, erun := 0, epos := 0 }

/-- R150, R166: the session ends after the end marker. -/
def Encoder.finish (e : Encoder) : Encoder :=
  { e with eng := e.eng.finish, erun := 0, epos := 0 }

/-- R201: session start of an encoder. -/
def Encoder.start (e : Encoder) : Encoder :=
  { e with eng := e.eng.startSession, erun := 0, epos := 0 }

/-- R31, R33: a register write. -/
def Encoder.writeReg (offset : Nat) (v : Word32) (e : Encoder) : Encoder :=
  if e.eng.isStart offset v then e.start
  else { e with eng := e.eng.writeExtent offset v }

/-- R200: power-on reset; the collaborators are the host's and stay (log entry 12). -/
def Encoder.resetPower (e : Encoder) : Encoder :=
  { e with eng := e.eng.resetPower, erun := 0, epos := 0 }

/-! ## Instances of the block (R20) -/

/-- Decoder instance `k` becomes `d`. -/
def State.setDec (k : Nat) (d : Decoder) (s : State) : State := { s with decs := s.decs.set k d }

/-- Encoder instance `k` becomes `e`. -/
def State.setEnc (k : Nat) (e : Encoder) (s : State) : State := { s with encs := s.encs.set k e }

/-- Decoder `k` comes out as this, or the model gives no meaning. -/
def State.answerDec (s : State) (k : Nat) : Except Refusal Decoder → Host.Outcome State Fault Refusal
  | .ok d => .next (s.setDec k d)
  | .error r => .refused r

/-- Encoder `k` comes out as this, or the model gives no meaning. -/
def State.answerEnc (s : State) (k : Nat) : Except Refusal Encoder → Host.Outcome State Fault Refusal
  | .ok e => .next (s.setEnc k e)
  | .error r => .refused r

/-- The instance whose turn it is acts; every other instance is untouched (R189). -/
def State.onTurn (s : State) (onDec : Decoder → Except Refusal Decoder) (onEnc : Encoder → Except Refusal Encoder) :
    Host.Outcome State Fault Refusal :=
  match s.turn with
  | .dec k =>
    match s.decs[k]? with
    | none => .fault .noSuchInstance
    | some d => s.answerDec k (onDec d)
  | .enc k =>
    match s.encs[k]? with
    | none => .fault .noSuchInstance
    | some e => s.answerEnc k (onEnc e)

end Sys2Proof.Machine
end

