-- ==== Sys2Proof/Machine/Select.lean ====
section
/-! DEFINITION. The encoder's selection: the fixed priority chain of R151 and R165, with the run lookahead of R152. -/

namespace Sys2Proof.Machine

/-- What the encoder does next in its session (R150, R151). -/
inductive Selection where
  /-- It waits for the pixel source, `erun` equal pixels counted so far (log entry 6). -/
  | waitSource (erun : Nat)
  /-- It emits this unit: the chunk that R151 selects, or END. -/
  | unit (i : Instr)
deriving DecidableEq, Repr

/-- R152: the lookahead, `n` pixels counted so far. It stops at the first differing pixel, at 62 or at NPIX, and waits where
the host has not answered. The first argument bounds the recursion. -/
def Encoder.lookahead (e : Encoder) (px : Pixel) : Nat → Nat → Selection
  | 0, n => .unit (.run n)
  | fuel + 1, n =>
    if n < Config.runMax ∧ e.eng.pix.toNat + n < e.eng.npix.toNat then
      match e.srcPixel n with
      | none => .waitSource n
      | some q => if q = px then e.lookahead px fuel (n + 1) else .unit (.run n)
    else .unit (.run n)

/-- R151: the six checks in their fixed order, first match wins. -/
def Encoder.selectFor (e : Encoder) (px : Pixel) : Selection :=
  if px = e.eng.prev then e.lookahead px Config.runMax (max 1 e.erun)
  else if e.eng.cacheRead (pixelHash px) = px then .unit (.index (pixelHash px))
  else if diffOk px e.eng.prev then .unit (diffChunk px e.eng.prev)
  else if lumaOk px e.eng.prev then .unit (lumaChunk px e.eng.prev)
  else if alphaSame px e.eng.prev then .unit (.rgb px.r px.g px.b)
  else .unit (.rgba px.r px.g px.b px.a)

/-- R150: END once `ECUR = NPIX`; before that, the chunk for the pixel at `ECUR`. -/
def Encoder.select (e : Encoder) : Selection :=
  if e.eng.pix.toNat < e.eng.npix.toNat then
    match e.srcPixel 0 with
    | none => .waitSource e.erun
    | some px => e.selectFor px
  else .unit .endMarker

/-- R151, R164: a busy encoder emits the selected chunk `i` and commits it with the source pixel; `adv` source pixels are
consumed. A quiescent encoder keeps all its state (R193). An encoder never emits a chunk it does not select (R165). -/
def Encoder.emitChunk (i : Instr) (adv : Nat) (kind : ChunkKind) (e : Encoder) : Except Refusal Encoder :=
  if e.eng.st ≠ .busy then .ok e
  else
    match e.srcPixel 0 with
    | none => .error .chunkNotSelected
    | some px =>
      if e.select = .unit i then .ok (e.emit (encode i) (Encoder.commit px adv kind (encode i).length))
      else .error .chunkNotSelected

end Sys2Proof.Machine
end

