-- ==== Sys2Proof/Machine/Deltas.lean ====
section
/-! DEFINITION. The delta chunks DIFF and LUMA (R126, R127; R156, R158). -/

namespace Sys2Proof.Machine

/-- DIFF. Decoder, R126: `prev` plus three deltas, modulo 256, alpha unchanged. Encoder, R156. -/
def execDiff (dr dg db : Int) (s : State) : Host.Outcome State Fault Refusal :=
  s.onTurn
    (fun d => .ok (d.whileBusy fun d => d.commit s.overshoot (shiftPixel d.eng.prev dr dg db) 1 .diff 1))
    (fun e => e.emitChunk (.diff dr dg db) 1 .diff)

/-- LUMA. Decoder, R127: the red and blue deltas are relative to the green one. Encoder, R158. -/
def execLuma (dg drg dbg : Int) (s : State) : Host.Outcome State Fault Refusal :=
  s.onTurn
    (fun d => .ok (d.whileBusy fun d => d.commit s.overshoot (shiftPixel d.eng.prev (dg + drg) dg (dg + dbg)) 1 .luma 2))
    (fun e => e.emitChunk (.luma dg drg dbg) 1 .luma)

end Sys2Proof.Machine
end

