-- ==== Sys2Proof/Machine/EndMarker.lean ====
section
/-! DEFINITION. END, the end marker (R83, R166). -/

namespace Sys2Proof.Machine

/-- R166: a busy encoder whose `ECUR = NPIX` emits the eight bytes and ends its session; neither `prev` nor `cache` is
written and no event is emitted. -/
def Encoder.emitEnd (e : Encoder) : Except Refusal Encoder :=
  if e.eng.st ≠ .busy then .ok e
  else if e.select = .unit .endMarker then .ok (e.emit (encode .endMarker) Encoder.finish)
  else .error .chunkNotSelected

/-- END. Encoder, R166. END is never dispatched by a decoder and "has no decoder semantics of its own" (R85): a busy decoder
refuses it by name, a quiescent one keeps all its state (R193). -/
def execEndMarker (s : State) : Host.Outcome State Fault Refusal :=
  s.onTurn
    (fun d => if d.eng.st ≠ .busy then .ok d else .error .endMarkerNotDecoded)
    Encoder.emitEnd

end Sys2Proof.Machine
end

