-- ==== Sys2Proof/Machine/Literals.lean ====
section
/-! DEFINITION. The literal chunks RGB and RGBA (R123, R124; R160, R162). -/

namespace Sys2Proof.Machine

/-- RGB. Decoder, R123: red, green and blue replaced, alpha from `prev`. Encoder, R160. -/
def execRgb (r g b : Byte) (s : State) : Host.Outcome State Fault Refusal :=
  s.onTurn
    (fun d => .ok (d.whileBusy fun d => d.commit s.overshoot ⟨r, g, b, d.eng.prev.a⟩ 1 .rgb 4))
    (fun e => e.emitChunk (.rgb r g b) 1 .rgb)

/-- RGBA. Decoder, R124: all four channels replaced. Encoder, R162. -/
def execRgba (r g b a : Byte) (s : State) : Host.Outcome State Fault Refusal :=
  s.onTurn
    (fun d => .ok (d.whileBusy fun d => d.commit s.overshoot ⟨r, g, b, a⟩ 1 .rgba 5))
    (fun e => e.emitChunk (.rgba r g b a) 1 .rgba)

end Sys2Proof.Machine
end

