-- ==== Sys2Proof/Machine/References.lean ====
section
/-! DEFINITION. The chunks that refer to earlier pixels, INDEX and RUN (R125, R128; R154, R152). -/

namespace Sys2Proof.Machine

/-- INDEX. Decoder, R125: the pixel in the cache slot, read before this step's cache write. Encoder, R154. -/
def execIndex (i : BitVec 6) (s : State) : Host.Outcome State Fault Refusal :=
  s.onTurn
    (fun d => .ok (d.whileBusy fun d => d.commit s.overshoot (d.eng.cacheRead i) 1 .index 1))
    (fun e => e.emitChunk (.index i) 1 .index)

/-- RUN. Decoder, R128: `prev`, `n` times. Encoder, R152: `ECUR` advances past all consumed pixels. -/
def execRun (n : Nat) (s : State) : Host.Outcome State Fault Refusal :=
  s.onTurn
    (fun d => .ok (d.whileBusy fun d => d.commit s.overshoot d.eng.prev n .run 1))
    (fun e => e.emitChunk (.run n) n .run)

end Sys2Proof.Machine
end

