-- ==== Sys2Proof/Machine/HostPort.lean ====
section
/-! DEFINITION. What the host can do to the block: register accesses, its four collaborators, power-on reset (R30, R191,
R200); and the host-side header codec with the session scripts of R202 and R203, which lie outside the block (R7) and only
produce host actions. -/

namespace Sys2Proof.Machine

/-! ## Register accesses (R30 to R36) -/

/-- Offsets inside the block (below 0x20) are the registers' own, multiples of 4; "every register is 32 bits and is accessed
only as a whole 32-bit word" (log entry 15). -/
def partialAccess (offset : Nat) : Bool := decide (offset < 0x20) && decide (offset % 4 ≠ 0)

/-- R30 to R33: the host writes a register. -/
def State.regWrite (a : Agent) (offset : Nat) (v : Word32) (s : State) : Host.Outcome State Fault Refusal :=
  if partialAccess offset then .refused .partialRegisterAccess
  else
    match a with
    | .dec k =>
      match s.decs[k]? with
      | none => .fault .noSuchInstance
      | some d => .next (s.setDec k (d.writeReg offset v))
    | .enc k =>
      match s.encs[k]? with
      | none => .fault .noSuchInstance
      | some e => .next (s.setEnc k (e.writeReg offset v))

/-- R30, R36: the host reads a register; a read changes nothing in the block. -/
def State.regRead (a : Agent) (offset : Nat) (s : State) : Host.Outcome State Fault Refusal :=
  if partialAccess offset then .refused .partialRegisterAccess
  else
    match a with
    | .dec k =>
      match s.decs[k]? with
      | none => .fault .noSuchInstance
      | some d => .next { s with busData := d.eng.readReg offset }
    | .enc k =>
      match s.encs[k]? with
      | none => .fault .noSuchInstance
      | some e => .next { s with busData := e.eng.readReg offset }

/-! ## Collaborators (R191) -/

/-- The host acts on decoder `k`'s side of a collaborator. -/
def State.hostDec (k : Nat) (f : Decoder → Except Refusal Decoder) (s : State) : Host.Outcome State Fault Refusal :=
  match s.decs[k]? with
  | none => .fault .noSuchInstance
  | some d => s.answerDec k (f d)

/-- The host acts on encoder `k`'s side of a collaborator. -/
def State.hostEnc (k : Nat) (f : Encoder → Except Refusal Encoder) (s : State) : Host.Outcome State Fault Refusal :=
  match s.encs[k]? with
  | none => .fault .noSuchInstance
  | some e => s.answerEnc k (f e)

/-- R54, R67: the host provides the pixel source. While a session runs it may answer more positions, but a position already
answered stays as it is (log entries 6 and 14). -/
def Encoder.provideSource (cells : List (Nat × Pixel)) (e : Encoder) : Except Refusal Encoder :=
  let g := Memory.ofCells cells
  if e.eng.st = .busy ∧ Memory.extendedBy e.source g = false then .error .sourceChanged
  else .ok { e with source := g }

/-- R200: power-on reset of every instance. -/
def State.powerOn (s : State) : State :=
  { s with decs := s.decs.map Decoder.resetPower, encs := s.encs.map Encoder.resetPower }

/-- Every action of the host; an instance's turn is none of them and changes nothing here. -/
def State.hostAction (act : Action) (s : State) : Host.Outcome State Fault Refusal :=
  match act with
  | .turn _ => .next s
  | .regWrite a offset v => s.regWrite a offset v
  | .regRead a offset => s.regRead a offset
  | .byteSource k answers => s.hostDec k fun d => .ok { d with source := answers }
  | .pixelSink k cells => s.hostDec k fun d => .ok { d with sink := Memory.ofCells cells }
  | .pixelAnswers k n => s.hostDec k fun d => .ok { d with pixelAnswers := n }
  | .pixelSource k cells => s.hostEnc k (Encoder.provideSource cells)
  | .sinkAnswers k answers => s.hostEnc k fun e => .ok { e with answers := answers }
  | .byteSink k contents => s.hostEnc k fun e => .ok { e with sink := contents }
  | .powerOn => .next s.powerOn

/-! ## The header codec (R90 to R93), host side -/

/-- R90: the magic bytes, "qoif". -/
def headerMagic : List Byte := [0x71, 0x6F, 0x69, 0x66]

/-- R58, R90: a 32-bit integer, big-endian. -/
def bigEndian (w : Word32) : List Byte :=
  [w.extractLsb' 24 8, w.extractLsb' 16 8, w.extractLsb' 8 8, w.extractLsb' 0 8]

/-- R92: always channel byte 4 and colorspace 0. -/
def encodeHeader (width height : Word32) : List Byte :=
  headerMagic ++ bigEndian width ++ bigEndian height ++ [4, 0]

/-- R91: how reading a header can fail. -/
inductive HeaderError where
  /-- The magic, channel or colorspace byte is wrong. -/
  | invalidHeader
  /-- Fewer than 14 bytes: "a distinct I/O error, not InvalidHeader". -/
  | ioError
deriving DecidableEq, Repr

/-- R91: the channel byte's legal values, under the parameter ACCEPT_CHANNELS_ZERO (C9). -/
def channelsOk (acceptZero : Bool) (c : Byte) : Bool := c == 3 || c == 4 || (acceptZero && c == 0)

/-- R91: width, height and the bytes after the 14-byte header. -/
def decodeHeader (acceptZero : Bool) : List Byte → Except HeaderError (Word32 × Word32 × List Byte)
  | m0 :: m1 :: m2 :: m3 :: w0 :: w1 :: w2 :: w3 :: h0 :: h1 :: h2 :: h3 :: channels :: colorspace :: rest =>
    if [m0, m1, m2, m3] = headerMagic ∧ channelsOk acceptZero channels = true ∧ colorspace.toNat ≤ 1 then
      .ok (w0 ++ w1 ++ w2 ++ w3, h0 ++ h1 ++ h2 ++ h3, rest)
    else .error .invalidHeader
  | _ => .error .ioError

/-! ## Session scripts (R202, R203), host side -/

/-- R202: the host consumes and validates the header, writes WIDTH and HEIGHT, arranges the byte source, provides the sink,
ready to answer for every pixel of the image, and starts decoder `k`. If the header fails, the decoder is not started. -/
def decodeScript (acceptZero : Bool) (k : Nat) (stream : List Byte) : Except HeaderError (List Action) :=
  match decodeHeader acceptZero stream with
  | .error r => .error r
  | .ok (w, h, rest) =>
    .ok [.regWrite (.dec k) 0x08 w, .regWrite (.dec k) 0x0C h,
      .byteSource k (rest.map .byte ++ [.exhausted]), .pixelSink k [], .pixelAnswers k (w.toNat * h.toNat),
      .regWrite (.dec k) 0x00 1]

/-- R203: the host writes the header to the output itself, writes WIDTH and HEIGHT, provides the pixel source and a byte
sink that accepts `room` bytes, and starts encoder `k`. -/
def encodeScript (k : Nat) (w h : Word32) (pixels : List (Nat × Pixel)) (room : Nat) : List Action :=
  [.byteSink k (encodeHeader w h), .regWrite (.enc k) 0x08 w, .regWrite (.enc k) 0x0C h,
    .pixelSource k pixels, .sinkAnswers k (List.replicate room .ok), .regWrite (.enc k) 0x00 1]

end Sys2Proof.Machine
end

