-- ==== Sys2Proof/Machine/Fetch.lean ====
section
/-! DEFINITION. What a step does around `exec`: whose turn it is, the decoder's fetch of a chunk, the encoder's selection,
and the host's actions. -/

namespace Sys2Proof.Machine

/-- What a decoder's fetch comes to. -/
inductive Fetched where
  /-- A whole chunk is in the chunk buffer. -/
  | chunk (i : Instr) (d : Decoder)
  /-- The host has not answered the pending `ReadByte`. -/
  | waiting (d : Decoder)
  /-- Truncation has been raised. -/
  | truncated (d : Decoder)

/-- R122: the tag and its payload, one `ReadByte` at a time, until the chunk buffer holds a whole chunk. A chunk has at most
5 bytes, so `fetchFuel` requests are enough. A chunk step that waits for the pixel sink has its whole chunk there. -/
def Decoder.fetch : Nat → Decoder → Fetched
  | 0, d => .waiting d
  | fuel + 1, d =>
    match decodeChunk d.chunkBuf with
    | .unit i _ => .chunk i d
    | .rejected _ =>
      match d.readByte with
      | .got d' => Decoder.fetch fuel d'
      | .waiting => .waiting d
      | .truncated d' => .truncated d'

/-- Five `ReadByte`s and the test after the last. -/
def fetchFuel : Nat := 6

/-- What a step is going to do. -/
inductive Plan where
  /-- It runs this instruction in this state. -/
  | run (i : Instr) (s : State)
  /-- It runs no instruction and answers this. -/
  | answer (o : Host.Outcome State Fault Refusal)

/-- R120, R122: decoder `k` takes a turn. -/
def State.planDec (k : Nat) (s : State) : Plan :=
  match s.decs[k]? with
  | none => .answer (.fault .noSuchInstance)
  | some d =>
    if d.eng.st ≠ .busy then .answer (.next s)
    else if d.needsPixels then
      match d.fetch fetchFuel with
      | .chunk i d' => .run i (s.setDec k d')
      | .waiting d' => .answer (.next (s.setDec k d'))
      | .truncated d' => .answer (.next (s.setDec k d'))
    else .answer (.next (s.setDec k d.stopTest))

/-- R150, R151: encoder `k` takes a turn. -/
def State.planEnc (k : Nat) (s : State) : Plan :=
  match s.encs[k]? with
  | none => .answer (.fault .noSuchInstance)
  | some e =>
    if e.eng.st ≠ .busy then .answer (.next s)
    else
      match e.select with
      | .waitSource n => .answer (.next (s.setEnc k { e with erun := n }))
      | .unit i => .run i s

/-- The instance `a` takes a turn. -/
def State.planTurn (a : Agent) (s : State) : Plan :=
  match a with
  | .dec k => State.planDec k { s with turn := .dec k }
  | .enc k => State.planEnc k { s with turn := .enc k }

/-- R213: a decoder with something to do: BUSY, and its pending `SinkPixel` or `ReadByte` answered. -/
def Decoder.canRun (d : Decoder) : Bool :=
  d.eng.st == .busy &&
    (!d.needsPixels ||
      match d.expanded with
      | some _ => d.pixelAnswers != 0
      | none => !d.source.isEmpty)

/-- R213: an encoder with something to do: BUSY, and its pending transaction answered. -/
def Encoder.canRun (e : Encoder) : Bool :=
  e.eng.st == .busy &&
    match e.select with
    | .waitSource _ => false
    | .unit _ => !e.answers.isEmpty

/-- Whether an instance of the block has something to do. -/
def State.canRun (s : State) : Agent → Bool
  | .dec k =>
    match s.decs[k]? with
    | none => false
    | some d => d.canRun
  | .enc k =>
    match s.encs[k]? with
    | none => false
    | some e => e.canRun

/-- Every instance of the block. -/
def State.agents (s : State) : List Agent :=
  (List.range s.decs.length).map .dec ++ (List.range s.encs.length).map .enc

/-- R213: with nothing on the agenda, the instance that goes on: the one whose turn it was if it can, else the first that
can (log entry 4). -/
def State.pick (s : State) : Option Agent := (s.turn :: s.agents).find? s.canRun

/-- What the step does: the first action of the agenda, or, with none left, a turn of an instance that can run. If none can,
the block is quiescent or waits for the host, and nothing changes (R193). -/
def State.plan (s : State) : Plan :=
  match s.agenda with
  | [] =>
    match s.pick with
    | none => .answer (.next s)
    | some a => s.planTurn a
  | .turn a :: rest => State.planTurn a { s with agenda := rest }
  | act :: rest => .answer (State.hostAction act { s with agenda := rest })

/-! ## Placing one instruction where the next step fetches it (log entry 18) -/

/-- Decoder `d` in a session that still needs pixels, at a chunk boundary, with these bytes next in its byte source and a pixel
sink that answers for the longest run. A decoder that is not in such a session is started on an image of 64 × 1 pixels. -/
def Decoder.withBytes (bs : List Byte) (d : Decoder) : Decoder :=
  let d1 :=
    if d.eng.st = .busy ∧ d.needsPixels = true then d
    else Decoder.start { d with eng := { d.eng with width := 64, height := 1, st := .idle } }
  { d1 with
    chunkBuf := []
    source := bs.map .byte ++ d1.source
    expanded := none
    pixelAnswers := d1.pixelAnswers + Config.runMax }

/-- Encoder `e` in a session whose pixels are all consumed, with a byte sink that accepts the end marker. -/
def Encoder.withEndNext (e : Encoder) : Encoder :=
  { e with
    eng := { e.eng with st := .busy, pix := e.eng.npix }
    erun := 0
    epos := 0
    answers := List.replicate maxBytes .ok ++ e.answers }

/-- The first decoder, or a fresh one if the block has none, takes its next turn on these bytes. -/
def State.withChunkNext (bs : List Byte) (s : State) : State :=
  match s.decs with
  | [] => { s with decs := [Decoder.powerOn.withBytes bs], agenda := .turn (.dec 0) :: s.agenda }
  | d :: ds => { s with decs := d.withBytes bs :: ds, agenda := .turn (.dec 0) :: s.agenda }

/-- The first encoder, or a fresh one if the block has none, takes its next turn on the end marker. -/
def State.withEndNext (s : State) : State :=
  match s.encs with
  | [] => { s with encs := [Encoder.powerOn.withEndNext], agenda := .turn (.enc 0) :: s.agenda }
  | e :: es => { s with encs := e.withEndNext :: es, agenda := .turn (.enc 0) :: s.agenda }

end Sys2Proof.Machine
end

