-- ==== Sys2Proof/Machine/Step.lean ====
section
/-! DEFINITION. One step of the machine. -/

namespace Sys2Proof.Machine

/-- What carrying out a plan answers. -/
def Plan.outcome : Plan → Host.Outcome State Fault Refusal
  | .run i t => exec i t
  | .answer o => o

/-- One step: a host action, or one chunk step of one engine instance (R15). -/
def step (s : State) : Host.Outcome State Fault Refusal := s.plan.outcome

/-- `s` with one instruction placed so that the next step fetches and runs exactly it: a chunk in a decoder's byte source,
END in an encoder that has consumed its pixels (log entries 17 and 18). -/
def State.withFetchWord (s : State) (nbits w : Nat) : State :=
  if isEndWord nbits w then s.withEndNext else s.withChunkNext (wordBytes nbits w maxBytes)

end Sys2Proof.Machine
end

