-- ==== Sys2Proof/Safety.lean ====
section
/-! DEFINITION. The terms that claims use: what a good state is, and what one chunk step does to an instance, spelled out
field by field in the spec's words and not in the operations of the model. -/

namespace Sys2Proof.Machine

/-! ## What a chunk stands for -/

/-- The pixel that a chunk stands for (R123 to R128). -/
def chunkPixel : Instr → Engine → Pixel
  | .rgb r g b, e => ⟨r, g, b, e.prev.a⟩
  | .rgba r g b a, _ => ⟨r, g, b, a⟩
  | .index i, e => e.cacheRead i
  | .diff dr dg db, e => shiftPixel e.prev dr dg db
  | .luma dg drg dbg, e => shiftPixel e.prev (dg + drg) dg (dg + dbg)
  | .run _, e => e.prev
  | .endMarker, e => e.prev

/-- How many pixels a chunk stands for (R123 to R128). -/
def chunkRun : Instr → Nat
  | .run n => n
  | .rgb _ _ _ => 1
  | .rgba _ _ _ _ => 1
  | .index _ => 1
  | .diff _ _ _ => 1
  | .luma _ _ _ => 1
  | .endMarker => 1

/-- The op of a chunk, for the event (R136). -/
def chunkOp : Instr → ChunkKind
  | .rgb _ _ _ => .rgb
  | .rgba _ _ _ _ => .rgba
  | .index _ => .index
  | .diff _ _ _ => .diff
  | .luma _ _ _ => .luma
  | .run _ => .run
  | .endMarker => .run

/-! ## Good states -/

/-- The invariant of both kinds of instance. -/
structure Engine.Inv (e : Engine) : Prop where
  /-- The cursor never exceeds NPIX (R24, R26). -/
  cursor : e.pix.toNat ≤ e.npix.toNat
  /-- ERR is NONE exactly when STATE is not ERROR (R32, R182). -/
  error : e.st = .error ↔ e.err ≠ .none
  /-- NPIX is WIDTH × HEIGHT throughout a session (R33). -/
  extent : e.st = .busy → e.npix.toNat = e.width.toNat * e.height.toNat
  /-- A cache slot holds a pixel that hashes to it, or the reset pixel (R39, C3). -/
  slots : ∀ i : BitVec 6, e.cacheRead i = Config.cacheReset ∨ pixelHash (e.cacheRead i) = i
  /-- The pixels value of a record is 1..62 (R192). -/
  events : ∀ r ∈ e.events, 1 ≤ r.pixels.toNat ∧ r.pixels.toNat ≤ 62

/-- The invariant of a decoder instance. -/
structure Decoder.Inv (d : Decoder) : Prop where
  eng : d.eng.Inv
  /-- A decoder is BUSY only while pixels are needed (R120, R131). -/
  busy : d.eng.st = .busy → d.eng.pix.toNat < d.eng.npix.toNat
  /-- DONE means that NPIX pixels have been written (R28, R204). -/
  done : d.eng.st = .done → d.eng.pix = d.eng.npix
  /-- Between steps the chunk buffer holds a whole chunk only while its pixels are being written (R27, R130). -/
  partialChunk : d.expanded = none → ∃ why, decodeChunk d.chunkBuf = .rejected why
  /-- An expansion that waits has pixels of its chunk left to write, all inside the image (R130, R55). -/
  expanding : ∀ j, d.expanded = some j →
    ∃ i, decodeChunk d.chunkBuf = .unit i [] ∧ j < min (chunkRun i) (d.eng.npix.toNat - d.eng.pix.toNat)
  /-- While it waits, the common update has been made: `prev` is in its slot (R129). -/
  updated : d.expanded ≠ none → d.eng.cacheRead (pixelHash d.eng.prev) = d.eng.prev
  /-- The chunk buffer and an expansion exist only inside a chunk step (R27, R130). -/
  quiet : d.eng.st ≠ .busy → d.chunkBuf = [] ∧ d.expanded = none
  /-- A decoder raises only Truncation and Internal (R185). -/
  errorKind : d.eng.err ≠ .ioError
  /-- The sink grid is in canonical form. -/
  grid : Memory.wf d.sink

/-- The invariant of an encoder instance. -/
structure Encoder.Inv (e : Encoder) : Prop where
  eng : e.eng.Inv
  /-- DONE means that all NPIX source pixels are consumed (R28, R204). -/
  done : e.eng.st = .done → e.eng.pix = e.eng.npix
  /-- ERUN and the emission position exist only inside a chunk step (R25). -/
  quiet : e.eng.st ≠ .busy → e.erun = 0 ∧ e.epos = 0
  /-- ERUN is 0..62 and stays inside the image (R25, R152). -/
  run : e.erun ≤ Config.runMax ∧ e.eng.pix.toNat + e.erun ≤ e.eng.npix.toNat
  /-- ERUN counts source pixels equal to `prev` (R25). -/
  runPixels : ∀ j < e.erun, e.srcPixel j = some e.eng.prev
  /-- While bytes of a unit are accepted but not all, that unit is still the one selected (R151). -/
  emitting : e.epos = 0 ∨ ∃ i, e.select = .unit i ∧ e.epos < (encode i).length
  /-- An encoder raises only IoError (R185). -/
  errorKind : e.eng.err = .none ∨ e.eng.err = .ioError
  /-- The source grid is in canonical form. -/
  grid : Memory.wf e.source

/-- Every instance of the block is in a good state. -/
structure State.Inv (s : State) : Prop where
  decs : ∀ d ∈ s.decs, d.Inv
  encs : ∀ e ∈ s.encs, e.Inv
  /-- INTERNAL is raised only with RUN_OVERSHOOT = fault (R135, R181). -/
  internal : s.overshoot = .clamp → ∀ d ∈ s.decs, d.eng.err ≠ .internal

/-! ## Who acts -/

/-- The registers of an instance of the block (R20). -/
def State.engineOf (s : State) : Agent → Option Engine
  | .dec k => (s.decs[k]?).map Decoder.eng
  | .enc k => (s.encs[k]?).map Encoder.eng

/-- It is the turn of decoder `k`, which is `d`: BUSY, with pixels still needed (R122: "requires STATE = BUSY and
DPIX < NPIX"). It may be in the middle of a chunk step. -/
abbrev State.decodesOn (s : State) (k : Nat) (d : Decoder) : Prop :=
  s.turn = .dec k ∧ s.decs[k]? = some d ∧ d.eng.st = .busy ∧ d.eng.pix.toNat < d.eng.npix.toNat

/-- The same, and none of the chunk's pixels has been asked for yet (R129). -/
abbrev State.decodes (s : State) (k : Nat) (d : Decoder) : Prop := s.decodesOn k d ∧ d.expanded = none

/-- How many pixels of a run are written: `min(run, NPIX − DPIX)` (R130, R133). -/
abbrev Decoder.needed (d : Decoder) (run : Nat) : Nat := min run (d.eng.npix.toNat - d.eng.pix.toNat)

/-- A grid after `px` has been written at the positions from `lo` to `hi` − 1, and at no other. -/
abbrev Memory.WrittenTo (g g' : Memory) (px : Pixel) (lo hi : Nat) : Prop :=
  ∀ p, Memory.read g' p = if lo ≤ p ∧ p < hi then some px else Memory.read g p

/-- It is the turn of encoder `k`, which is `e`: BUSY, with the source pixel at `ECUR` equal to `px` (R151: "requires
STATE = BUSY and ECUR < NPIX"). -/
abbrev State.encodes (s : State) (k : Nat) (e : Encoder) (px : Pixel) : Prop :=
  s.turn = .enc k ∧ s.encs[k]? = some e ∧ e.eng.st = .busy ∧ e.eng.pix.toNat < e.eng.npix.toNat ∧ e.srcPixel 0 = some px

/-- The byte sink accepts what is left of these bytes, and has `rest` to answer after them. -/
abbrev Encoder.sinkAccepts (e : Encoder) (bytes : List Byte) (rest : List EmitAnswer) : Prop :=
  e.epos ≤ bytes.length ∧ e.answers = List.replicate (bytes.length - e.epos) .ok ++ rest

/-- R155: the DIFF ranges, with the wrapping deltas read as signed values in −128..127. -/
abbrev inDiffRange (px prev : Pixel) : Prop :=
  (-2 ≤ (px.r - prev.r).toInt ∧ (px.r - prev.r).toInt ≤ 1) ∧
  (-2 ≤ (px.g - prev.g).toInt ∧ (px.g - prev.g).toInt ≤ 1) ∧
  (-2 ≤ (px.b - prev.b).toInt ∧ (px.b - prev.b).toInt ≤ 1)

/-- R155: the LUMA ranges, with the wrapping deltas read as signed values and their differences taken without wrapping. -/
abbrev inLumaRange (px prev : Pixel) : Prop :=
  (-32 ≤ (px.g - prev.g).toInt ∧ (px.g - prev.g).toInt ≤ 31) ∧
  (-8 ≤ (px.r - prev.r).toInt - (px.g - prev.g).toInt ∧ (px.r - prev.r).toInt - (px.g - prev.g).toInt ≤ 7) ∧
  (-8 ≤ (px.b - prev.b).toInt - (px.g - prev.g).toInt ∧ (px.b - prev.b).toInt - (px.g - prev.g).toInt ≤ 7)

/-- The run check and the index check of R151 both fail for `px`. -/
abbrev Encoder.missesCopies (e : Encoder) (px : Pixel) : Prop :=
  px ≠ e.eng.prev ∧ e.eng.cacheRead (pixelHash px) ≠ px

/-! ## What a chunk step does -/

/-- What every chunk step changes in the registers (R129, R164), with the chunk's pixel `px`: `prev` and the slot `pixelHash px`
hold `px`, every other slot is as before, the pixel cursor advances by `m`, and one record is emitted. Nothing else but
STATE and ERR and the byte count changes. -/
structure Engine.Committed (e t : Engine) (px : Pixel) (m : Nat) (kind : ChunkKind) (len : Nat) : Prop where
  prev : t.prev = px
  slot : t.cacheRead (pixelHash px) = px
  slots : ∀ i, i ≠ pixelHash px → t.cacheRead i = e.cacheRead i
  cursor : t.pix.toNat = e.pix.toNat + m
  event : ∃ r, t.events = e.events ++ [r] ∧ r.kind = kind ∧ r.len.toNat = len ∧ r.pixels.toNat = m
  npix : t.npix = e.npix
  width : t.width = e.width
  height : t.height = e.height

/-- What a decoder's chunk step changes and what it leaves (R129 to R131): `px` is written at positions DPIX to DPIX+m−1 and
at no other, with one answer of the pixel sink each, the chunk buffer is empty again, and the session ends DONE exactly when
NPIX pixels are written. `bytes` and the byte source are those the fetch left. -/
structure Decoder.Committed (d t : Decoder) (px : Pixel) (m : Nat) (kind : ChunkKind) (len : Nat) : Prop where
  eng : d.eng.Committed t.eng px m kind len
  bytes : t.eng.bytes = d.eng.bytes
  chunkBuf : t.chunkBuf = []
  expanded : t.expanded = none
  source : t.source = d.source
  pixelAnswers : t.pixelAnswers = d.pixelAnswers - m
  written : ∀ p, d.eng.pix.toNat ≤ p → p < d.eng.pix.toNat + m → Memory.read t.sink p = some px
  kept : ∀ p, p < d.eng.pix.toNat ∨ d.eng.pix.toNat + m ≤ p → Memory.read t.sink p = Memory.read d.sink p
  stop : t.eng.pix = t.eng.npix → t.eng.st = .done ∧ t.eng.err = .none
  goOn : t.eng.pix ≠ t.eng.npix → t.eng.st = .busy ∧ t.eng.err = d.eng.err

/-- What an encoder's chunk step changes and what it leaves (R164, R53): the bytes of the chunk not accepted before are
appended to the sink and counted, and nothing of the source changes. -/
structure Encoder.Committed (e t : Encoder) (px : Pixel) (adv : Nat) (kind : ChunkKind) (bytes : List Byte)
    (rest : List EmitAnswer) : Prop where
  eng : e.eng.Committed t.eng px adv kind bytes.length
  sink : t.sink = e.sink ++ bytes.drop e.epos
  bytes : t.eng.bytes = e.eng.bytes + BitVec.ofNat 64 (bytes.length - e.epos)
  answers : t.answers = rest
  source : t.source = e.source
  state : t.eng.st = .busy ∧ t.eng.err = e.eng.err
  hidden : t.erun = 0 ∧ t.epos = 0

end Sys2Proof.Machine
end

