-- ==== Sys2Proof/Certificates/Slice0/Obligations.lean ====
section
/-! DEFINITION. The statements for the provers, in the order of OBLIGATIONS.json. Each docstring names the rule of spec/ that
the statement formalises. -/

section Slice0Statements

open Sys2Proof Sys2Proof.Machine

/-! ## Encoding (R70 to R86) -/

/-- Words written out from the encodings of R72 to R77 decode to the chunks they stand for. -/
def Obligations.SpecWordsDecode : Prop :=
  decodeChunk [0xFE, 1, 2, 3] = .unit (.rgb 1 2 3) [] ∧
  decodeChunk [0xFF, 0x0A, 0x14, 0x1E, 0x80] = .unit (.rgba 10 20 30 128) [] ∧
  decodeChunk [0b00001011] = .unit (.index 11) [] ∧
  decodeChunk [0b01110110] = .unit (.diff 1 (-1) 0) [] ∧
  decodeChunk [0b10101111, 0b00110001] = .unit (.luma 15 (-5) (-7)) [] ∧
  decodeChunk [0b11111101] = .unit (.run 62) [] ∧
  decodeUnit [0, 0, 0, 0, 0, 0, 0, 1] = .unit .endMarker []

/-- Decode after encode, for every unit at every value its encoding admits: chunks in front of any further bytes
(R72 to R77), and every unit, END among them, as a listing of its own (R84, R85). -/
def Obligations.DecodeEncodeAgree : Prop :=
  (∀ (i : Instr) (rest : List Byte), i.wf = true → i ≠ .endMarker → decodeChunk (encode i ++ rest) = .unit i rest) ∧
  (∀ i : Instr, i.wf = true → decodeUnit (encode i) = .unit i [])

/-- Encode after decode: each byte listing has one meaning, the decoded chunk can be spelled, and its encoding is exactly
the bytes it was read from (R78, R80, R84). -/
def Obligations.EncodeDecodeAgree : Prop :=
  ∀ (bs rest : List Byte) (i : Instr), decodeChunk bs = .unit i rest → i.wf = true ∧ i ≠ .endMarker ∧ encode i ++ rest = bs

/-- R79, R80: the tag alone gives the length, every tag is a chunk, and only a missing payload is rejected. -/
def Obligations.TagAloneGivesLength : Prop :=
  ∀ (tag : Byte) (payload : List Byte) (n : Nat),
    n = (if tag = 0xFF then 5 else if tag = 0xFE then 4 else if tag.toNat / 64 = 2 then 2 else 1) →
    (n ≤ payload.length + 1 →
      ∃ i, decodeChunk (tag :: payload) = .unit i (payload.drop (n - 1)) ∧ i.byteLength = n ∧ (encode i).length = n) ∧
    (payload.length + 1 < n → decodeChunk (tag :: payload) = .rejected (.shortPayload tag))

/-- R83: the end marker is seven 0x00 bytes and one 0x01 byte, and a decoder that reads it as chunks reads INDEX 0 seven
times and then INDEX 1. -/
def Obligations.EndMarkerReadsAsIndexChunks : Prop :=
  encode .endMarker = List.replicate 7 0x00 ++ [0x01] ∧
  ∀ rest : List Byte,
    decodeChunk (0x00 :: rest) = .unit (.index 0) rest ∧ decodeChunk (0x01 :: rest) = .unit (.index 1) rest

/-! ## Pixels, the hash, the cache (R10, R56, R100 to R106) -/

/-- R10: pixels are equal exactly when all four channels are; the packing of a pixel in a word loses nothing, with R the most
significant byte. -/
def Obligations.PixelPacking : Prop :=
  (∀ p q : Pixel, p = q ↔ p.r = q.r ∧ p.g = q.g ∧ p.b = q.b ∧ p.a = q.a) ∧
  (∀ p : Pixel, Pixel.ofWord p.toWord = p ∧
    p.toWord.toNat = p.r.toNat * 2 ^ 24 + p.g.toNat * 2 ^ 16 + p.b.toNat * 2 ^ 8 + p.a.toNat) ∧
  ∀ w : Word32, (Pixel.ofWord w).toWord = w

/-- R100: the hash is the full sum modulo 64, and the sum is at most 6630; with the rule's corner cases. -/
def Obligations.HashIsFullSumModulo64 : Prop :=
  (∀ px : Pixel,
    (pixelHash px).toNat = (3 * px.r.toNat + 5 * px.g.toNat + 7 * px.b.toNat + 11 * px.a.toNat) % 64 ∧
    3 * px.r.toNat + 5 * px.g.toNat + 7 * px.b.toNat + 11 * px.a.toNat ≤ 6630) ∧
  pixelHash ⟨0, 0, 0, 0⟩ = 0 ∧ pixelHash ⟨0, 0, 0, 255⟩ = 53 ∧ pixelHash ⟨255, 255, 255, 255⟩ = 38 ∧ pixelHash ⟨128, 128, 128, 128⟩ = 0 ∧
  pixelHash ⟨10, 10, 10, 255⟩ = 11

/-- R101: reducing a term or a partial sum modulo 256 or 64 changes nothing, so 6-bit and 8-bit wrapping arithmetic give the
same hash for every pixel. -/
def Obligations.WrappingHashAgrees : Prop :=
  (∀ a b : Nat, (a % 256 + b) % 64 = (a + b) % 64 ∧ (a % 64 + b) % 64 = (a + b) % 64) ∧
  ∀ px : Pixel, pixelHash6 px = pixelHash px ∧
    (3 * px.r + 5 * px.g + 7 * px.b + 11 * px.a : Byte).extractLsb' 0 6 = pixelHash px

/-- R104, R103: a cache write stores the pixel in the slot of its hash, loses what was there, writes no other slot and
nothing else; writing a pixel already held changes nothing; two pixels of one hash evict each other. -/
def Obligations.CacheWriteIsBySlotOfHash : Prop :=
  (∀ (e : Engine) (px : Pixel),
    (e.cacheWrite px).cacheRead (pixelHash px) = px ∧
    (∀ i, i ≠ pixelHash px → (e.cacheWrite px).cacheRead i = e.cacheRead i) ∧
    { e.cacheWrite px with cache := e.cache } = e ∧
    (e.cacheRead (pixelHash px) = px → e.cacheWrite px = e)) ∧
  pixelHash ⟨0, 0, 0, 0⟩ = 0 ∧ pixelHash ⟨64, 0, 0, 0⟩ = 0 ∧ pixelHash ⟨0, 0, 0, 1⟩ = 11 ∧ pixelHash ⟨2, 1, 0, 0⟩ = 11

/-- R56: linear positions are row-major, lie in 0..NPIX−1 and no two places of an image share one. -/
def Obligations.LinearPositionsAreRowMajor : Prop :=
  ∀ (width height : Word32) (x y x' y' : Nat), x < width.toNat → y < height.toNat → x' < width.toNat → y' < height.toNat →
    linearPosition width x y = y * width.toNat + x ∧ linearPosition width x y < width.toNat * height.toNat ∧
    (linearPosition width x y = linearPosition width x' y' → x = x' ∧ y = y')

/-- R155: testing the biased deltas modulo 256 is the same as testing the signed ranges −2..1, −32..31 and −8..7. -/
def Obligations.WrappingTestsAgreeWithSignedRanges : Prop :=
  ∀ px prev : Pixel,
    (diffOk px prev = true ↔ px.a = prev.a ∧ inDiffRange px prev) ∧
    (lumaOk px prev = true ↔ px.a = prev.a ∧ inLumaRange px prev)

/-! ## The chunks, consumed by a decoder (R123 to R133)

The host has answered for the pixels of the chunk; `PixelSinkPacesExpansion` says what happens when it has not. -/

/-- R123: RGB replaces red, green and blue; alpha comes from `prev`. -/
def Obligations.DecodeRgbKeepsAlpha : Prop :=
  ∀ (s : State) (k : Nat) (d : Decoder) (r g b : Byte), s.decodes k d → 1 ≤ d.pixelAnswers →
    ∃ t, exec (.rgb r g b) s = .next { s with decs := s.decs.set k t } ∧
      d.Committed t ⟨r, g, b, d.eng.prev.a⟩ 1 .rgb 4

/-- R124: RGBA replaces all four channels. -/
def Obligations.DecodeRgbaReplacesPixel : Prop :=
  ∀ (s : State) (k : Nat) (d : Decoder) (r g b a : Byte), s.decodes k d → 1 ≤ d.pixelAnswers →
    ∃ t, exec (.rgba r g b a) s = .next { s with decs := s.decs.set k t } ∧
      d.Committed t ⟨r, g, b, a⟩ 1 .rgba 5

/-- R125, R207, R208: INDEX takes the pixel from the slot it names, read before this step's write, and the write goes to the
slot of that pixel's hash. -/
def Obligations.DecodeIndexReadsSlot : Prop :=
  ∀ (s : State) (k : Nat) (d : Decoder) (i : BitVec 6), s.decodes k d → 1 ≤ d.pixelAnswers →
    ∃ t, exec (.index i) s = .next { s with decs := s.decs.set k t } ∧
      d.Committed t (d.eng.cacheRead i) 1 .index 1

/-- R126: DIFF adds its deltas to `prev` modulo 256; alpha is unchanged. -/
def Obligations.DecodeDiffAddsModulo256 : Prop :=
  ∀ (s : State) (k : Nat) (d : Decoder) (dr dg db : Int), s.decodes k d → 1 ≤ d.pixelAnswers →
    ∃ t, exec (.diff dr dg db) s = .next { s with decs := s.decs.set k t } ∧
      d.Committed t t.eng.prev 1 .diff 1 ∧
      (t.eng.prev.r.toNat : Int) = (d.eng.prev.r.toNat + dr) % 256 ∧
      (t.eng.prev.g.toNat : Int) = (d.eng.prev.g.toNat + dg) % 256 ∧
      (t.eng.prev.b.toNat : Int) = (d.eng.prev.b.toNat + db) % 256 ∧
      t.eng.prev.a = d.eng.prev.a

/-- R127: LUMA adds its green delta to all three channels and the relative deltas to red and blue, modulo 256; alpha is
unchanged. -/
def Obligations.DecodeLumaAddsModulo256 : Prop :=
  ∀ (s : State) (k : Nat) (d : Decoder) (dg drg dbg : Int), s.decodes k d → 1 ≤ d.pixelAnswers →
    ∃ t, exec (.luma dg drg dbg) s = .next { s with decs := s.decs.set k t } ∧
      d.Committed t t.eng.prev 1 .luma 2 ∧
      (t.eng.prev.r.toNat : Int) = (d.eng.prev.r.toNat + dg + drg) % 256 ∧
      (t.eng.prev.g.toNat : Int) = (d.eng.prev.g.toNat + dg) % 256 ∧
      (t.eng.prev.b.toNat : Int) = (d.eng.prev.b.toNat + dg + dbg) % 256 ∧
      t.eng.prev.a = d.eng.prev.a

/-- R128, R130, R133: RUN writes `prev` at the next `min(run, NPIX − DPIX)` positions, if it fits or RUN_OVERSHOOT is clamp. -/
def Obligations.DecodeRunRepeatsPrev : Prop :=
  ∀ (s : State) (k : Nat) (d : Decoder) (n : Nat), s.decodes k d → 1 ≤ n → n ≤ 62 →
    (s.overshoot = .clamp ∨ d.eng.pix.toNat + n ≤ d.eng.npix.toNat) →
    min n (d.eng.npix.toNat - d.eng.pix.toNat) ≤ d.pixelAnswers →
    ∃ t, exec (.run n) s = .next { s with decs := s.decs.set k t } ∧
      d.Committed t d.eng.prev (min n (d.eng.npix.toNat - d.eng.pix.toNat)) .run 1

/-- R133: a RUN that exceeds the pixels still needed. With RUN_OVERSHOOT = clamp, the default, the decoder writes only those
and the session ends DONE without error; with fault it raises INTERNAL and writes none of the run's pixels (R182). -/
def Obligations.RunOvershootIsClampedOrFaults : Prop :=
  (∀ (s : State) (k : Nat) (d : Decoder) (n : Nat), s.decodes k d → d.eng.npix.toNat - d.eng.pix.toNat < n → n ≤ 62 →
    (s.overshoot = .clamp → d.eng.npix.toNat - d.eng.pix.toNat ≤ d.pixelAnswers → ∃ t, exec (.run n) s = .next { s with decs := s.decs.set k t } ∧
      d.Committed t d.eng.prev (d.eng.npix.toNat - d.eng.pix.toNat) .run 1 ∧ t.eng.pix = d.eng.npix ∧
      t.eng.st = .done ∧ t.eng.err = .none) ∧
    (s.overshoot = .fault → exec (.run n) s = .next { s with
      decs := s.decs.set k { d with
        eng := { d.eng with st := .error, err := .internal }
        chunkBuf := []
        expanded := none } })) ∧
  State.reset.overshoot = .clamp

/-! ## The chunks, emitted by an encoder (R151 to R166) -/

/-- R152, R164: RUN. `n` source pixels equal `prev`, and the run ends there: at 62, at NPIX or at a differing pixel. -/
def Obligations.EncodeRunEmitsCount : Prop :=
  ∀ (s : State) (k : Nat) (e : Encoder) (px : Pixel) (n : Nat) (rest : List EmitAnswer), s.encodes k e px →
    px = e.eng.prev → 1 ≤ n → n ≤ 62 → e.eng.pix.toNat + n ≤ e.eng.npix.toNat → (∀ j < n, e.srcPixel j = some px) →
    (n = 62 ∨ e.eng.pix.toNat + n = e.eng.npix.toNat ∨ ∃ q, e.srcPixel n = some q ∧ q ≠ px) →
    e.erun ≤ n → e.sinkAccepts [BitVec.ofNat 8 (0xC0 + (n - 1))] rest →
    ∃ t, exec (.run n) s = .next { s with encs := s.encs.set k t } ∧
      e.Committed t px n .run [BitVec.ofNat 8 (0xC0 + (n - 1))] rest

/-- R154, R164: INDEX, when the pixel is not `prev` and its cache slot holds it; the byte is the slot's number. -/
def Obligations.EncodeIndexEmitsSlot : Prop :=
  ∀ (s : State) (k : Nat) (e : Encoder) (px : Pixel) (rest : List EmitAnswer), s.encodes k e px →
    px ≠ e.eng.prev → e.eng.cacheRead (pixelHash px) = px →
    e.sinkAccepts [BitVec.ofNat 8 (pixelHash px).toNat] rest →
    ∃ t, exec (.index (pixelHash px)) s = .next { s with encs := s.encs.set k t } ∧
      e.Committed t px 1 .index [BitVec.ofNat 8 (pixelHash px).toNat] rest ∧
      ∀ i, t.eng.cacheRead i = e.eng.cacheRead i

/-- R156, R155, R164: DIFF, when the copies miss, alpha is the same and the deltas are in range. -/
def Obligations.EncodeDiffEmitsBiasedDeltas : Prop :=
  ∀ (s : State) (k : Nat) (e : Encoder) (px : Pixel) (dr dg db : Int) (bytes : List Byte) (rest : List EmitAnswer),
    s.encodes k e px → e.missesCopies px → px.a = e.eng.prev.a → inDiffRange px e.eng.prev →
    dr = (px.r - e.eng.prev.r).toInt → dg = (px.g - e.eng.prev.g).toInt → db = (px.b - e.eng.prev.b).toInt →
    bytes = [BitVec.ofInt 8 (0x40 + 16 * (dr + 2) + 4 * (dg + 2) + (db + 2))] → e.sinkAccepts bytes rest →
    ∃ t, exec (.diff dr dg db) s = .next { s with encs := s.encs.set k t } ∧ e.Committed t px 1 .diff bytes rest

/-- R158, R155, R164: LUMA, when the copies and DIFF miss, alpha is the same and the relative deltas are in range. -/
def Obligations.EncodeLumaEmitsBiasedDeltas : Prop :=
  ∀ (s : State) (k : Nat) (e : Encoder) (px : Pixel) (dr dg db : Int) (bytes : List Byte) (rest : List EmitAnswer),
    s.encodes k e px → e.missesCopies px → px.a = e.eng.prev.a → ¬ inDiffRange px e.eng.prev → inLumaRange px e.eng.prev →
    dr = (px.r - e.eng.prev.r).toInt → dg = (px.g - e.eng.prev.g).toInt → db = (px.b - e.eng.prev.b).toInt →
    bytes = [BitVec.ofInt 8 (0x80 + (dg + 32)), BitVec.ofInt 8 (16 * (dr - dg + 8) + (db - dg + 8))] →
    e.sinkAccepts bytes rest →
    ∃ t, exec (.luma dg (dr - dg) (db - dg)) s = .next { s with encs := s.encs.set k t } ∧
      e.Committed t px 1 .luma bytes rest

/-- R160, R164: RGB, when alpha is unchanged and every shorter chunk misses. -/
def Obligations.EncodeRgbEmitsChannels : Prop :=
  ∀ (s : State) (k : Nat) (e : Encoder) (px : Pixel) (rest : List EmitAnswer), s.encodes k e px →
    e.missesCopies px → px.a = e.eng.prev.a → ¬ inDiffRange px e.eng.prev → ¬ inLumaRange px e.eng.prev →
    e.sinkAccepts [0xFE, px.r, px.g, px.b] rest →
    ∃ t, exec (.rgb px.r px.g px.b) s = .next { s with encs := s.encs.set k t } ∧
      e.Committed t px 1 .rgb [0xFE, px.r, px.g, px.b] rest

/-- R162, R164: RGBA, when alpha changes and the copies miss. -/
def Obligations.EncodeRgbaEmitsChannels : Prop :=
  ∀ (s : State) (k : Nat) (e : Encoder) (px : Pixel) (rest : List EmitAnswer), s.encodes k e px →
    e.missesCopies px → px.a ≠ e.eng.prev.a → e.sinkAccepts [0xFF, px.r, px.g, px.b, px.a] rest →
    ∃ t, exec (.rgba px.r px.g px.b px.a) s = .next { s with encs := s.encs.set k t } ∧
      e.Committed t px 1 .rgba [0xFF, px.r, px.g, px.b, px.a] rest

/-- R166: once `ECUR = NPIX` the encoder selects END, and END emits the eight bytes and ends the session DONE; `prev`, `cache`,
the cursor and the events stay. -/
def Obligations.EncodeEndEmitsMarker : Prop :=
  ∀ (s : State) (k : Nat) (e : Encoder) (rest : List EmitAnswer), s.turn = .enc k → s.encs[k]? = some e →
    e.eng.st = .busy → e.eng.pix = e.eng.npix → e.sinkAccepts [0, 0, 0, 0, 0, 0, 0, 1] rest →
    e.select = .unit .endMarker ∧
    exec .endMarker s = .next { s with
      encs := s.encs.set k { e with
        eng := { e.eng with st := .done, err := .none, bytes := e.eng.bytes + BitVec.ofNat 64 (8 - e.epos) }
        sink := e.sink ++ ([0, 0, 0, 0, 0, 0, 0, 1] : List Byte).drop e.epos
        answers := rest
        erun := 0
        epos := 0 } }

/-- R151, R165: the six checks in their fixed order, first match wins, and END when no pixel is left (R150). Two clauses are the
model's: that a lookahead may wait for the pixel source (log entry 6), and END for a cursor past NPIX (log entry 22). -/
def Obligations.EncoderSelectsByPriority : Prop :=
  ∀ (e : Encoder) (px : Pixel),
    (e.eng.npix.toNat ≤ e.eng.pix.toNat → e.select = .unit .endMarker) ∧
    (e.eng.pix.toNat < e.eng.npix.toNat → e.srcPixel 0 = some px →
      (px = e.eng.prev → (∃ n, e.select = .unit (.run n)) ∨ ∃ n, e.select = .waitSource n) ∧
      (px ≠ e.eng.prev → e.eng.cacheRead (pixelHash px) = px → e.select = .unit (.index (pixelHash px))) ∧
      (e.missesCopies px → px.a = e.eng.prev.a → inDiffRange px e.eng.prev →
        e.select = .unit (.diff (px.r - e.eng.prev.r).toInt (px.g - e.eng.prev.g).toInt (px.b - e.eng.prev.b).toInt)) ∧
      (e.missesCopies px → px.a = e.eng.prev.a → ¬ inDiffRange px e.eng.prev → inLumaRange px e.eng.prev →
        e.select = .unit (.luma (px.g - e.eng.prev.g).toInt
          ((px.r - e.eng.prev.r).toInt - (px.g - e.eng.prev.g).toInt)
          ((px.b - e.eng.prev.b).toInt - (px.g - e.eng.prev.g).toInt))) ∧
      (e.missesCopies px → px.a = e.eng.prev.a → ¬ inDiffRange px e.eng.prev → ¬ inLumaRange px e.eng.prev →
        e.select = .unit (.rgb px.r px.g px.b)) ∧
      (e.missesCopies px → px.a ≠ e.eng.prev.a → e.select = .unit (.rgba px.r px.g px.b px.a)))

/-! ## Where exec does nothing or stops -/

/-- R193: an instance that is IDLE, DONE or ERROR keeps all its state, whatever instruction `exec` is asked for. That `exec`
answers a next state there is the model's reading of quiescence (log entry 20). -/
def Obligations.ExecLeavesQuiescentInstance : Prop :=
  (∀ (s : State) (k : Nat) (d : Decoder) (i : Instr), s.turn = .dec k → s.decs[k]? = some d → d.eng.st ≠ .busy →
    exec i s = .next s) ∧
  (∀ (s : State) (k : Nat) (e : Encoder) (i : Instr), s.turn = .enc k → s.encs[k]? = some e → e.eng.st ≠ .busy →
    exec i s = .next s)

/-- The model's stops in `exec`: an instance that the block does not have (R20, log entry 11), END on a BUSY decoder (R85, log
entry 10), and a unit that a BUSY encoder does not select (R165, log entry 8). -/
def Obligations.ExecStopsByName : Prop :=
  (∀ (s : State) (k : Nat) (i : Instr), s.turn = .dec k → s.decs[k]? = none → exec i s = .fault .noSuchInstance) ∧
  (∀ (s : State) (k : Nat) (i : Instr), s.turn = .enc k → s.encs[k]? = none → exec i s = .fault .noSuchInstance) ∧
  (∀ (s : State) (k : Nat) (d : Decoder), s.turn = .dec k → s.decs[k]? = some d → d.eng.st = .busy →
    exec .endMarker s = .refused .endMarkerNotDecoded) ∧
  (∀ (s : State) (k : Nat) (e : Encoder) (i : Instr), s.turn = .enc k → s.encs[k]? = some e → e.eng.st = .busy →
    e.select ≠ .unit i → exec i s = .refused .chunkNotSelected)

/-! ## A step around exec (R122, R151, R182, R193) -/

/-- R122: when the bytes at the decoder's cursor are the encoding of a chunk, the step is `exec` of that chunk, in the state
in which those bytes are in the chunk buffer and counted in DBYTE. Bytes read before a wait may be there already. That a turn
on the agenda is a step, and that a chunk step is one step, are the model's (log entries 1, 4 and 5). -/
def Obligations.StepRunsDecodedChunk : Prop :=
  ∀ (s : State) (k : Nat) (d : Decoder) (agenda : List Action) (i : Instr) (bs : List Byte) (more : List ReadAnswer),
    s.agenda = .turn (.dec k) :: agenda → s.decs[k]? = some d → d.eng.st = .busy → d.eng.pix.toNat < d.eng.npix.toNat →
    i.wf = true → i ≠ .endMarker → d.chunkBuf ++ bs = encode i → d.source = bs.map .byte ++ more →
    step s = exec i { s with
      agenda := agenda
      turn := .dec k
      decs := s.decs.set k { d with
        eng := { d.eng with bytes := d.eng.bytes + BitVec.ofNat 64 bs.length }
        chunkBuf := encode i
        source := more } }

/-- R151, R150: when an encoder selects a unit, the step is `exec` of that unit (log entries 1 and 4). -/
def Obligations.StepRunsSelectedUnit : Prop :=
  ∀ (s : State) (k : Nat) (e : Encoder) (agenda : List Action) (i : Instr),
    s.agenda = .turn (.enc k) :: agenda → s.encs[k]? = some e → e.eng.st = .busy → e.select = .unit i →
    step s = exec i { s with agenda := agenda, turn := .enc k }

/-- R213, R193: with nothing on the agenda, the step is a turn of some instance that can go on, if there is one; else nothing
changes. Which instance goes on is the model's choice (log entry 4). -/
def Obligations.IdleAgendaRunsAReadyInstance : Prop :=
  ∀ s : State, s.agenda = [] →
    ((∀ a, s.canRun a = false) → step s = .next s) ∧
    (∀ a, s.canRun a = true → ∃ b, s.canRun b = true ∧ step s = step { s with agenda := [.turn b] })

/-- R193: IDLE, DONE and ERROR are quiescent: the instance's turn changes nothing but whose turn it is (log entry 4). -/
def Obligations.QuiescentInstanceKeepsState : Prop :=
  (∀ (s : State) (k : Nat) (d : Decoder) (agenda : List Action),
    s.agenda = .turn (.dec k) :: agenda → s.decs[k]? = some d → d.eng.st ≠ .busy →
    step s = .next { s with agenda := agenda, turn := .dec k }) ∧
  (∀ (s : State) (k : Nat) (e : Encoder) (agenda : List Action),
    s.agenda = .turn (.enc k) :: agenda → s.encs[k]? = some e → e.eng.st ≠ .busy →
    step s = .next { s with agenda := agenda, turn := .enc k })

/-- R134, R52, R182: an End or Fail answer while a tag or payload byte is missing ends the session with TRUNCATION: no commit,
the bytes read stay counted, the chunk buffer is discarded, and nothing else changes. -/
def Obligations.MissingByteRaisesTruncation : Prop :=
  ∀ (s : State) (k : Nat) (d : Decoder) (agenda : List Action) (bs : List Byte) (a : ReadAnswer)
    (more : List ReadAnswer) (why : DecodeReject),
    s.agenda = .turn (.dec k) :: agenda → s.decs[k]? = some d → d.eng.st = .busy → d.eng.pix.toNat < d.eng.npix.toNat →
    decodeChunk (d.chunkBuf ++ bs) = .rejected why → d.source = bs.map .byte ++ a :: more → (a = .exhausted ∨ a = .fail) →
    step s = .next { s with
      agenda := agenda
      turn := .dec k
      decs := s.decs.set k { d with
        eng := { d.eng with
          bytes := d.eng.bytes + BitVec.ofNat 64 bs.length
          st := .error
          err := .truncation }
        chunkBuf := []
        expanded := none
        source := more } }

/-- R52, R213: while the byte source has not answered, the decoder waits inside the chunk step: the bytes that came are in the
chunk buffer and counted, and nothing else changes (log entries 1 and 5). -/
def Obligations.DecoderWaitsForByteSource : Prop :=
  ∀ (s : State) (k : Nat) (d : Decoder) (agenda : List Action) (bs : List Byte) (why : DecodeReject),
    s.agenda = .turn (.dec k) :: agenda → s.decs[k]? = some d → d.eng.st = .busy → d.eng.pix.toNat < d.eng.npix.toNat →
    decodeChunk (d.chunkBuf ++ bs) = .rejected why → d.source = bs.map .byte →
    step s = .next { s with
      agenda := agenda
      turn := .dec k
      decs := s.decs.set k { d with
        eng := { d.eng with bytes := d.eng.bytes + BitVec.ofNat 64 bs.length }
        chunkBuf := d.chunkBuf ++ bs
        source := [] } }

/-- R167, R53, R182: a Fail answer to any byte of any chunk or of the end marker ends the session with IO_ERROR: the bytes
accepted before stay in the sink and are counted, there is no commit, and nothing else changes. -/
def Obligations.SinkFailureRaisesIoError : Prop :=
  ∀ (s : State) (k : Nat) (e : Encoder) (agenda : List Action) (i : Instr) (j : Nat) (more : List EmitAnswer),
    s.agenda = .turn (.enc k) :: agenda → s.encs[k]? = some e → e.eng.st = .busy → e.select = .unit i →
    e.epos + j < (encode i).length → e.answers = List.replicate j .ok ++ .fail :: more →
    step s = .next { s with
      agenda := agenda
      turn := .enc k
      encs := s.encs.set k { e with
        eng := { e.eng with
          bytes := e.eng.bytes + BitVec.ofNat 64 j
          st := .error
          err := .ioError }
        sink := e.sink ++ ((encode i).drop e.epos).take j
        answers := more
        erun := 0
        epos := 0 } }

/-- R53, R213: while the byte sink has not answered, the encoder waits inside the unit: the bytes accepted so far are in the
sink and counted, and nothing is committed (log entries 1, 5 and 7). -/
def Obligations.EncoderWaitsForByteSink : Prop :=
  ∀ (s : State) (k : Nat) (e : Encoder) (agenda : List Action) (i : Instr) (j : Nat),
    s.agenda = .turn (.enc k) :: agenda → s.encs[k]? = some e → e.eng.st = .busy → e.select = .unit i →
    e.epos + j < (encode i).length → e.answers = List.replicate j .ok →
    step s = .next { s with
      agenda := agenda
      turn := .enc k
      encs := s.encs.set k { e with
        eng := { e.eng with bytes := e.eng.bytes + BitVec.ofNat 64 j }
        sink := e.sink ++ ((encode i).drop e.epos).take j
        answers := []
        epos := e.epos + j } }

/-- R54, R152, R25, R213: while the pixel source has not answered, the encoder waits at the first position that is not answered,
`n` source pixels equal to `prev` counted, and nothing else changes; the count does not fall (log entry 6). -/
def Obligations.EncoderWaitsForPixelSource : Prop :=
  ∀ (s : State) (k : Nat) (e : Encoder) (agenda : List Action) (n : Nat),
    s.agenda = .turn (.enc k) :: agenda → s.encs[k]? = some e → e.eng.st = .busy → e.Inv → e.select = .waitSource n →
    step s = .next { s with agenda := agenda, turn := .enc k, encs := s.encs.set k { e with erun := n } } ∧
    e.erun ≤ n ∧ n < 62 ∧ e.eng.pix.toNat + n < e.eng.npix.toNat ∧ e.srcPixel n = none ∧
    ∀ j < n, e.srcPixel j = some e.eng.prev

/-! ## Registers, START and reset (R30 to R37, R200, R201) -/

/-- R201, R33, R31: START on a decoder that is not BUSY: NPIX is the exact product, everything of the session is fresh, and
nothing else changes. With pixels to write, the decoder is BUSY. That the list of chunk events stays at START is the model's
choice (log entry 13). -/
def Obligations.StartBeginsDecoderSession : Prop :=
  ∀ (s : State) (k : Nat) (d : Decoder) (agenda : List Action) (v : Word32),
    s.agenda = .regWrite (.dec k) 0 v :: agenda → s.decs[k]? = some d → d.eng.st ≠ .busy → v.getLsbD 0 = true →
    d.eng.width.toNat * d.eng.height.toNat ≠ 0 →
    ∃ t, step s = .next { s with agenda := agenda, decs := s.decs.set k t } ∧
      t.eng.npix.toNat = d.eng.width.toNat * d.eng.height.toNat ∧
      (∀ i, t.eng.cacheRead i = ⟨0, 0, 0, 0⟩) ∧ t.eng.prev = ⟨0, 0, 0, 255⟩ ∧ t.eng.pix = 0 ∧ t.eng.bytes = 0 ∧
      t.chunkBuf = [] ∧ t.expanded = none ∧ t.eng.err = .none ∧ t.eng.st = .busy ∧
      t.eng.width = d.eng.width ∧ t.eng.height = d.eng.height ∧ t.eng.events = d.eng.events ∧
      t.source = d.source ∧ t.sink = d.sink ∧ t.pixelAnswers = d.pixelAnswers

/-- R131, R201: with NPIX = 0 the decoder's session ends DONE at START; no byte is read and no pixel written, and everything of
the session is fresh as at any START. That the list of chunk events stays is the model's choice (log entry 13). -/
def Obligations.EmptyImageDecodesAtStart : Prop :=
  ∀ (s : State) (k : Nat) (d : Decoder) (agenda : List Action) (v : Word32),
    s.agenda = .regWrite (.dec k) 0 v :: agenda → s.decs[k]? = some d → d.eng.st ≠ .busy → v.getLsbD 0 = true →
    d.eng.width.toNat * d.eng.height.toNat = 0 →
    ∃ t, step s = .next { s with agenda := agenda, decs := s.decs.set k t } ∧
      t.eng.st = .done ∧ t.eng.err = .none ∧ t.eng.pix = 0 ∧ t.eng.bytes = 0 ∧ t.eng.npix = 0 ∧
      (∀ i, t.eng.cacheRead i = ⟨0, 0, 0, 0⟩) ∧ t.eng.prev = ⟨0, 0, 0, 255⟩ ∧ t.chunkBuf = [] ∧ t.expanded = none ∧
      t.eng.width = d.eng.width ∧ t.eng.height = d.eng.height ∧ t.eng.events = d.eng.events ∧
      t.source = d.source ∧ t.sink = d.sink ∧ t.pixelAnswers = d.pixelAnswers

/-- R201, R33, R31: START on an encoder that is not BUSY. It is BUSY also when NPIX = 0 (R166). That the list of chunk events
stays at START is the model's choice (log entry 13). -/
def Obligations.StartBeginsEncoderSession : Prop :=
  ∀ (s : State) (k : Nat) (e : Encoder) (agenda : List Action) (v : Word32),
    s.agenda = .regWrite (.enc k) 0 v :: agenda → s.encs[k]? = some e → e.eng.st ≠ .busy → v.getLsbD 0 = true →
    ∃ t, step s = .next { s with agenda := agenda, encs := s.encs.set k t } ∧
      t.eng.npix.toNat = e.eng.width.toNat * e.eng.height.toNat ∧
      (∀ i, t.eng.cacheRead i = ⟨0, 0, 0, 0⟩) ∧ t.eng.prev = ⟨0, 0, 0, 255⟩ ∧ t.eng.pix = 0 ∧ t.eng.bytes = 0 ∧
      t.erun = 0 ∧ t.epos = 0 ∧ t.eng.err = .none ∧ t.eng.st = .busy ∧
      t.eng.width = e.eng.width ∧ t.eng.height = e.eng.height ∧ t.eng.events = e.eng.events ∧
      t.source = e.source ∧ t.answers = e.answers ∧ t.sink = e.sink

/-- R31, R33, R211: while an instance is BUSY, no register write changes it, START among them. -/
def Obligations.RegisterWritesIgnoredWhileBusy : Prop :=
  (∀ (s : State) (k : Nat) (d : Decoder) (agenda : List Action) (offset : Nat) (v : Word32),
    s.agenda = .regWrite (.dec k) offset v :: agenda → s.decs[k]? = some d → d.eng.st = .busy →
    (offset % 4 = 0 ∨ 0x20 ≤ offset) → step s = .next { s with agenda := agenda }) ∧
  (∀ (s : State) (k : Nat) (e : Encoder) (agenda : List Action) (offset : Nat) (v : Word32),
    s.agenda = .regWrite (.enc k) offset v :: agenda → s.encs[k]? = some e → e.eng.st = .busy →
    (offset % 4 = 0 ∨ 0x20 ≤ offset) → step s = .next { s with agenda := agenda })

/-- R30, R31, R32, R33, R36: a register write to an instance that is not BUSY and that is no START sets WIDTH or HEIGHT at
their offsets and changes nothing at any other. -/
def Obligations.OnlyExtentRegistersAreWritable : Prop :=
  (∀ (s : State) (k : Nat) (d : Decoder) (agenda : List Action) (offset : Nat) (v : Word32),
    s.agenda = .regWrite (.dec k) offset v :: agenda → s.decs[k]? = some d → d.eng.st ≠ .busy →
    (offset % 4 = 0 ∨ 0x20 ≤ offset) → (offset = 0 → v.getLsbD 0 = false) →
    step s = .next { s with
      agenda := agenda
      decs := s.decs.set k { d with
        eng := { d.eng with
          width := if offset = 0x08 then v else d.eng.width
          height := if offset = 0x0C then v else d.eng.height } } }) ∧
  (∀ (s : State) (k : Nat) (e : Encoder) (agenda : List Action) (offset : Nat) (v : Word32),
    s.agenda = .regWrite (.enc k) offset v :: agenda → s.encs[k]? = some e → e.eng.st ≠ .busy →
    (offset % 4 = 0 ∨ 0x20 ≤ offset) → (offset = 0 → v.getLsbD 0 = false) →
    step s = .next { s with
      agenda := agenda
      encs := s.encs.set k { e with
        eng := { e.eng with
          width := if offset = 0x08 then v else e.eng.width
          height := if offset = 0x0C then v else e.eng.height } } })

/-- R30 to R36: what a register read returns, at every offset of either kind of instance; the read changes nothing in the
block. The counters' halves are their low and high words. -/
def Obligations.RegisterReadsReturnFields : Prop :=
  ∀ (s : State) (a : Agent) (e : Engine) (agenda : List Action) (offset : Nat),
    s.agenda = .regRead a offset :: agenda → s.engineOf a = some e → (offset % 4 = 0 ∨ 0x20 ≤ offset) →
    ∃ v : Word32, step s = .next { s with agenda := agenda, busData := v } ∧
      (offset = 0x04 → v.toNat = e.st.code.toNat + 4 * e.err.code.toNat) ∧
      (offset = 0x08 → v = e.width) ∧ (offset = 0x0C → v = e.height) ∧
      (offset = 0x10 → v.toNat = e.pix.toNat % 2 ^ 32) ∧ (offset = 0x14 → v.toNat = e.pix.toNat / 2 ^ 32) ∧
      (offset = 0x18 → v.toNat = e.bytes.toNat % 2 ^ 32) ∧ (offset = 0x1C → v.toNat = e.bytes.toNat / 2 ^ 32) ∧
      (offset = 0x00 ∨ 0x20 ≤ offset → v = 0)

/-- R32, R181, R186, R192: the STATUS word with the codes of STATE and ERR, `done_o`, and the kind codes of chunk events. -/
def Obligations.StatusAndEventCodes : Prop :=
  (∀ e : Engine, e.statusWord.toNat = e.st.code.toNat + 4 * e.err.code.toNat ∧
    (e.doneO = true ↔ e.st = .done ∨ e.st = .error)) ∧
  EngineState.idle.code = 0 ∧ EngineState.busy.code = 1 ∧ EngineState.done.code = 2 ∧ EngineState.error.code = 3 ∧
  ErrorCode.none.code = 0 ∧ ErrorCode.truncation.code = 1 ∧ ErrorCode.ioError.code = 2 ∧ ErrorCode.internal.code = 3 ∧
  kindCode .rgb = 0 ∧ kindCode .rgba = 1 ∧ kindCode .index = 2 ∧ kindCode .diff = 3 ∧ kindCode .luma = 4 ∧ kindCode .run = 5

/-- The model's stops on a host action: a register access that is not a whole word of the block (R30, log entry 15), an
instance that the block does not have (R20, log entry 11), and a change of the pixel source during an encode session (R67, log
entry 14). -/
def Obligations.HostActionsStopByName : Prop :=
  (∀ (s : State) (a : Agent) (offset : Nat) (agenda : List Action), offset < 0x20 → offset % 4 ≠ 0 →
    (∀ v : Word32, s.agenda = .regWrite a offset v :: agenda → step s = .refused .partialRegisterAccess) ∧
    (s.agenda = .regRead a offset :: agenda → step s = .refused .partialRegisterAccess)) ∧
  (∀ (s : State) (a : Agent) (offset : Nat) (agenda : List Action), (offset % 4 = 0 ∨ 0x20 ≤ offset) → s.engineOf a = none →
    (∀ v : Word32, s.agenda = .regWrite a offset v :: agenda → step s = .fault .noSuchInstance) ∧
    (s.agenda = .regRead a offset :: agenda → step s = .fault .noSuchInstance) ∧
    (s.agenda = .turn a :: agenda → step s = .fault .noSuchInstance)) ∧
  (∀ (s : State) (k : Nat) (e : Encoder) (cells : List (Nat × Pixel)) (agenda : List Action) (p : Nat) (px : Pixel),
    s.agenda = .pixelSource k cells :: agenda → s.encs[k]? = some e → e.eng.st = .busy → Memory.read e.source p = some px →
    Memory.read (Memory.ofCells cells) p ≠ some px → step s = .refused .sourceChanged)

/-- R200, R37: power-on reset, from any state and in the state the machine starts from. The numbers
of instances are the defaults of R8 (log entry 3). -/
def Obligations.PowerOnResetValues : Prop :=
  (∀ (s : State) (agenda : List Action), s.agenda = .powerOn :: agenda →
    ∃ t, step s = .next t ∧ t.decs.length = s.decs.length ∧ t.encs.length = s.encs.length ∧
      (∀ e : Engine, ((∃ d ∈ t.decs, d.eng = e) ∨ ∃ n ∈ t.encs, n.eng = e) →
        e.st = .idle ∧ e.err = .none ∧ e.width = 0 ∧ e.height = 0 ∧ e.pix = 0 ∧ e.bytes = 0 ∧ e.npix = 0 ∧
        e.prev = ⟨0, 0, 0, 255⟩ ∧ (∀ i, e.cacheRead i = ⟨0, 0, 0, 0⟩) ∧ e.doneO = false ∧ ∀ offset, e.readReg offset = 0) ∧
      (∀ d ∈ t.decs, d.chunkBuf = [] ∧ d.expanded = none) ∧ ∀ n ∈ t.encs, n.erun = 0 ∧ n.epos = 0) ∧
  State.reset.decs.length = 1 ∧ State.reset.encs.length = 1 ∧ State.reset.overshoot = .clamp ∧
  State.reset.powerOn = State.reset

/-! ## Whole-machine rules -/

/-- The state right after reset is good (R37, R39). -/
def Obligations.ResetIsGood : Prop :=
  ∀ (nDec nEnc : Nat) (policy : RunOvershoot), (State.resetWith nDec nEnc policy).Inv

/-- R24, R26, R25, R27, R32, R33, R39, R129, R130, R131: every step keeps every instance good, whatever the host does. -/
def Obligations.StepKeepsGoodStates : Prop :=
  ∀ s s' : State, s.Inv → step s = .next s' → s'.Inv

/-- R20, R189: no step changes the parameter or the number of instances, and a step on an instance's turn changes no other
instance (log entries 2, 3 and 4). -/
def Obligations.TurnTouchesOneInstance : Prop :=
  (∀ s s' : State, step s = .next s' →
    s'.overshoot = s.overshoot ∧ s'.decs.length = s.decs.length ∧ s'.encs.length = s.encs.length) ∧
  (∀ (s s' : State) (a : Agent) (agenda : List Action), s.agenda = .turn a :: agenda → step s = .next s' →
    (∀ k, a ≠ .dec k → s'.decs[k]? = s.decs[k]?) ∧ (∀ k, a ≠ .enc k → s'.encs[k]? = s.encs[k]?) ∧
    s'.busData = s.busData ∧ s'.agenda = agenda)

/-- R189, R213, U14: turns of two different instances, taken in either order, leave every instance in the same state
(log entry 4). -/
def Obligations.TurnsOfTwoInstancesCommute : Prop :=
  ∀ (s t u : State) (a b : Agent), a ≠ b →
    Host.Core.run core 2 { s with agenda := [.turn a, .turn b] } = .next t →
    Host.Core.run core 2 { s with agenda := [.turn b, .turn a] } = .next u →
    t.decs = u.decs ∧ t.encs = u.encs

/-- R28, R184, R193: the registers of an instance that is not BUSY stay as they are until a register write to that very
instance or power-on reset; and of the register writes only START changes STATE. -/
def Obligations.OnlyStartLeavesEndedSession : Prop :=
  ∀ (s s' : State) (a : Agent) (e e' : Engine), step s = .next s' → s.engineOf a = some e → s'.engineOf a = some e' →
    e.st ≠ .busy → e' ≠ e →
    (∃ offset v rest, s.agenda = .regWrite a offset v :: rest ∧ (e'.st ≠ e.st → offset = 0 ∧ v.getLsbD 0 = true)) ∨
    (∃ rest, s.agenda = .powerOn :: rest)

/-- R121, R26: every chunk step of a decoder advances its pixel cursor, unless it ends the session in ERROR or still waits for
the pixel sink, with DPIX as before (log entries 19 and 23), and never past NPIX. -/
def Obligations.ChunkStepAdvancesCursor : Prop :=
  ∀ (s s' : State) (k : Nat) (d d' : Decoder) (i : Instr), s.decodes k d → i.wf = true → i ≠ .endMarker →
    exec i s = .next s' → s'.decs[k]? = some d' →
    d'.eng.st = .error ∨
    (d.pixelAnswers < d.needed (chunkRun i) ∧ d'.expanded ≠ none ∧ d'.eng.st = .busy ∧ d'.eng.pix = d.eng.pix) ∨
    (d'.expanded = none ∧ d.eng.pix.toNat < d'.eng.pix.toNat ∧ d'.eng.pix.toNat ≤ d'.eng.npix.toNat ∧ d'.eng.npix = d.eng.npix)

/-- R168: a RUN that an encoder selects is 1 to 62 pixels long, covers only source pixels inside the image, each equal to `prev`,
and is never spelled 0xFE or 0xFF. -/
def Obligations.EncoderConsumesInsideImage : Prop :=
  ∀ (e : Encoder) (n : Nat), e.Inv → e.eng.st = .busy → e.select = .unit (.run n) →
    1 ≤ n ∧ n ≤ 62 ∧ e.eng.pix.toNat + n ≤ e.eng.npix.toNat ∧ (∀ j < n, e.srcPixel j = some e.eng.prev) ∧
    encode (.run n) ≠ [0xFE] ∧ encode (.run n) ≠ [0xFF]

/-- R170: one chunk in lock step. An encoder executes the chunk it selects, and a decoder whose `prev`, `cache`, cursor and NPIX
are the encoder's executes the same chunk. Both come out at a chunk boundary; after it `prev`, `cache`, cursor and NPIX are the
same again, and the decoder has written exactly the source pixels that the encoder consumed. -/
def Obligations.OneChunkInLockStep : Prop :=
  ∀ (s u : State) (k l : Nat) (d : Decoder) (e : Encoder) (px : Pixel) (i : Instr) (rest : List EmitAnswer),
    s.decodes k d → u.encodes l e px → e.Inv →
    d.eng.prev = e.eng.prev → d.eng.cache = e.eng.cache → d.eng.pix = e.eng.pix → d.eng.npix = e.eng.npix →
    e.select = .unit i → e.sinkAccepts (encode i) rest → chunkRun i ≤ d.pixelAnswers →
    ∃ (d' : Decoder) (e' : Encoder),
      exec i s = .next { s with decs := s.decs.set k d' } ∧ exec i u = .next { u with encs := u.encs.set l e' } ∧
      d'.eng.prev = e'.eng.prev ∧ d'.eng.cache = e'.eng.cache ∧ d'.eng.pix = e'.eng.pix ∧ d'.eng.npix = e'.eng.npix ∧
      e'.eng.pix.toNat = e.eng.pix.toNat + chunkRun i ∧
      d'.chunkBuf = [] ∧ d'.expanded = none ∧ e'.erun = 0 ∧ e'.epos = 0 ∧ e'.sink = e.sink ++ (encode i).drop e.epos ∧
      (∀ j < chunkRun i, Memory.read d'.sink (d.eng.pix.toNat + j) = e.srcPixel j) ∧
      ∀ p, p < d.eng.pix.toNat ∨ d.eng.pix.toNat + chunkRun i ≤ p → Memory.read d'.sink p = Memory.read d.sink p

/-- R170, R202, R203: decode after encode is the identity on pixel grids, over the whole machine and its header framing: from
reset, an encode session of any image ends DONE, its output is a QOI stream that the host's decode script accepts, and a decode
session of that stream, from reset, ends DONE with every pixel of the image in its sink. It holds for either RUN_OVERSHOOT, so
it does not rest on the default (log entry 2); that the runs go on by themselves is the model's choice (log entry 4), and the decode
script provides a pixel sink that answers for every pixel (log entries 18 and 19). -/
def Obligations.RoundTripIsIdentity : Prop :=
  ∀ (w h : Word32) (pixels : List (Nat × Pixel)) (acceptZero : Bool) (policy : RunOvershoot),
    (∀ p < w.toNat * h.toNat, Memory.read (Memory.ofCells pixels) p ≠ none) →
    ∃ (m : Nat) (t : State) (e : Encoder),
      Host.Core.run core m { State.resetWith 1 1 policy with
        agenda := encodeScript 0 w h pixels (5 * (w.toNat * h.toNat) + 8) } = .next t ∧
      t.encs = [e] ∧ e.eng.st = .done ∧
      ∃ (script : List Action) (m' : Nat) (t' : State) (d : Decoder),
        decodeScript acceptZero 0 e.sink = .ok script ∧
        Host.Core.run core m' { State.resetWith 1 1 policy with agenda := script } = .next t' ∧
        t'.decs = [d] ∧ d.eng.st = .done ∧
        ∀ p < w.toNat * h.toNat, Memory.read d.sink p = Memory.read (Memory.ofCells pixels) p

/-! ## The host-side header (R90 to R92) -/

/-- R92, R90: the header that the host writes, byte by byte, always with channel byte 4 and colorspace 0; it is read back with
the same extent, whatever ACCEPT_CHANNELS_ZERO is (R91). With the rule's own example. -/
def Obligations.HeaderRoundTrip : Prop :=
  (∀ w h : Word32, encodeHeader w h = [0x71, 0x6F, 0x69, 0x66,
    w.extractLsb' 24 8, w.extractLsb' 16 8, w.extractLsb' 8 8, w.extractLsb' 0 8,
    h.extractLsb' 24 8, h.extractLsb' 16 8, h.extractLsb' 8 8, h.extractLsb' 0 8, 4, 0]) ∧
  (∀ (acceptZero : Bool) (w h : Word32) (rest : List Byte),
    decodeHeader acceptZero (encodeHeader w h ++ rest) = .ok (w, h, rest)) ∧
  encodeHeader 3 2 = [0x71, 0x6F, 0x69, 0x66, 0x00, 0x00, 0x00, 0x03, 0x00, 0x00, 0x00, 0x02, 0x04, 0x00]

/-- R91: which headers fail, and how. -/
def Obligations.HeaderRejections : Prop :=
  ∀ (acceptZero : Bool) (magic extent rest : List Byte) (channels colorspace : Byte),
    magic.length = 4 → extent.length = 8 →
    ((magic ≠ [0x71, 0x6F, 0x69, 0x66] ∨
        ¬ (channels = 3 ∨ channels = 4 ∨ (acceptZero = true ∧ channels = 0)) ∨ 1 < colorspace.toNat) ↔
      decodeHeader acceptZero (magic ++ extent ++ [channels, colorspace] ++ rest) = .error .invalidHeader) ∧
    ∀ bs : List Byte, bs.length < 14 → decodeHeader acceptZero bs = .error .ioError

/-! ## The pixel sink and the collaborators (R55, R60, R130, R191, R193) -/

/-- R130, R60, R55, R193, R187: the pixel sink paces the expansion, one `SinkPixel` at a time; which register holds how far it is
is the model's (log entries 19 and 23). A chunk step whose host has not answered for all its pixels makes the common update,
writes the pixels that were answered for, and waits: the cursor, the counters, STATE, the chunk buffer and the events stay.
Further turns of it read no byte, whatever the byte source would answer, so no Fail can cancel it: each writes the pixels
answered since, and the last one ends the chunk step. -/
def Obligations.PixelSinkPacesExpansion : Prop :=
  (∀ (s : State) (k : Nat) (d : Decoder) (i : Instr), s.decodes k d → i.wf = true → i ≠ .endMarker →
    (s.overshoot = .clamp ∨ d.eng.pix.toNat + chunkRun i ≤ d.eng.npix.toNat) → d.pixelAnswers < d.needed (chunkRun i) →
    ∃ (cache : Vector Pixel 64) (sink : Memory),
      exec i s = .next { s with decs := s.decs.set k { d with
        eng := { d.eng with prev := chunkPixel i d.eng, cache := cache }
        sink := sink
        pixelAnswers := 0
        expanded := some d.pixelAnswers } } ∧
      (∀ x, ({ d.eng with cache := cache } : Engine).cacheRead x =
        if x = pixelHash (chunkPixel i d.eng) then chunkPixel i d.eng else d.eng.cacheRead x) ∧
      d.sink.WrittenTo sink (chunkPixel i d.eng) d.eng.pix.toNat (d.eng.pix.toNat + d.pixelAnswers)) ∧
  (∀ (s : State) (k : Nat) (d : Decoder) (agenda : List Action) (i : Instr) (j : Nat),
    s.agenda = .turn (.dec k) :: agenda → s.decs[k]? = some d → d.Inv → d.expanded = some j →
    decodeChunk d.chunkBuf = .unit i [] →
    (j + d.pixelAnswers < d.needed (chunkRun i) → ∃ sink : Memory,
      step s = .next { s with
        agenda := agenda
        turn := .dec k
        decs := s.decs.set k { d with sink := sink, pixelAnswers := 0, expanded := some (j + d.pixelAnswers) } } ∧
      d.sink.WrittenTo sink d.eng.prev (d.eng.pix.toNat + j) (d.eng.pix.toNat + j + d.pixelAnswers)) ∧
    (d.needed (chunkRun i) ≤ j + d.pixelAnswers → ∃ t,
      step s = .next { s with agenda := agenda, turn := .dec k, decs := s.decs.set k t } ∧
      d.eng.Committed t.eng d.eng.prev (d.needed (chunkRun i)) (chunkOp i) i.byteLength ∧
      t.eng.bytes = d.eng.bytes ∧ t.chunkBuf = [] ∧ t.expanded = none ∧ t.source = d.source ∧
      t.pixelAnswers = d.pixelAnswers - (d.needed (chunkRun i) - j) ∧
      d.sink.WrittenTo t.sink d.eng.prev (d.eng.pix.toNat + j) (d.eng.pix.toNat + d.needed (chunkRun i)) ∧
      (t.eng.pix = t.eng.npix → t.eng.st = .done ∧ t.eng.err = .none) ∧
      (t.eng.pix ≠ t.eng.npix → t.eng.st = .busy ∧ t.eng.err = d.eng.err)))

/-- R137, R212: when the pixel sink answers does not matter. A chunk step that waits after `a` answers and goes on with `b` more
comes out as the one that has all `a + b` from the start (log entries 19 and 23). -/
def Obligations.PixelSinkLatencyDoesNotMatter : Prop :=
  ∀ (s u : State) (k : Nat) (d t : Decoder) (i : Instr) (a b : Nat), s.decodes k d → i.wf = true → i ≠ .endMarker →
    exec i { s with decs := s.decs.set k { d with pixelAnswers := a } } = .next u → u.decs[k]? = some t → t.expanded ≠ none →
    exec i { u with decs := u.decs.set k { t with pixelAnswers := t.pixelAnswers + b } } =
      exec i { s with decs := s.decs.set k { d with pixelAnswers := a + b } }

/-- R191, R52 to R55, R66: what the host's actions on the four collaborators set, for an instance that the block has, and that
they leave every register and every other instance as it was; for one that it does not have they fault (log entry 11). How a
collaborator's answers are laid out is the model's (log entries 5, 6, 9 and 19). The pixel source may be set while no session
runs, or if every pixel already given stays (R67, log entry 14). A grid made of cells is in canonical form, holds the last pixel
listed for a position, and nothing at a position that is not listed. -/
def Obligations.CollaboratorActionsSetOneCollaborator : Prop :=
  (∀ (s : State) (k : Nat) (d : Decoder) (agenda : List Action), s.decs[k]? = some d →
    (∀ answers, s.agenda = .byteSource k answers :: agenda →
      step s = .next { s with agenda := agenda, decs := s.decs.set k { d with source := answers } }) ∧
    (∀ cells, s.agenda = .pixelSink k cells :: agenda →
      step s = .next { s with agenda := agenda, decs := s.decs.set k { d with sink := Memory.ofCells cells } }) ∧
    (∀ n, s.agenda = .pixelAnswers k n :: agenda →
      step s = .next { s with agenda := agenda, decs := s.decs.set k { d with pixelAnswers := n } })) ∧
  (∀ (s : State) (k : Nat) (e : Encoder) (agenda : List Action), s.encs[k]? = some e →
    (∀ cells, s.agenda = .pixelSource k cells :: agenda →
      (e.eng.st ≠ .busy ∨ ∀ p px, Memory.read e.source p = some px → Memory.read (Memory.ofCells cells) p = some px) →
      step s = .next { s with agenda := agenda, encs := s.encs.set k { e with source := Memory.ofCells cells } }) ∧
    (∀ answers, s.agenda = .sinkAnswers k answers :: agenda →
      step s = .next { s with agenda := agenda, encs := s.encs.set k { e with answers := answers } }) ∧
    (∀ contents, s.agenda = .byteSink k contents :: agenda →
      step s = .next { s with agenda := agenda, encs := s.encs.set k { e with sink := contents } })) ∧
  (∀ (s : State) (k : Nat) (act : Action) (agenda : List Action), s.agenda = act :: agenda →
    (s.decs[k]? = none ∧ ((∃ as, act = .byteSource k as) ∨ (∃ cs, act = .pixelSink k cs) ∨ ∃ n, act = .pixelAnswers k n) ∨
      s.encs[k]? = none ∧ ((∃ cs, act = .pixelSource k cs) ∨ (∃ as, act = .sinkAnswers k as) ∨ ∃ bs, act = .byteSink k bs)) →
    step s = .fault .noSuchInstance) ∧
  ∀ cells : List (Nat × Pixel),
    Memory.wf (Memory.ofCells cells) ∧
    (∀ (before after : List (Nat × Pixel)) (p : Nat) (px : Pixel), cells = before ++ (p, px) :: after →
      (∀ c ∈ after, c.1 ≠ p) → Memory.read (Memory.ofCells cells) p = some px) ∧
    ∀ p, (∀ c ∈ cells, c.1 ≠ p) → Memory.read (Memory.ofCells cells) p = none

end Slice0Statements
end

