-- ==== Sys2Proof/Laws/Decode.lean ====
section
/-! SUPPORT. The decoder and the encoder, field by field: what each tag's fields say, and how decoding behaves on longer and
shorter listings. -/

namespace Sys2Proof

/-! ## The operand ranges -/

@[simp] theorem Instr.wf_diff (dr dg db : Int) :
    (Instr.diff dr dg db).wf = true ↔ (-2 ≤ dr ∧ dr ≤ 1) ∧ (-2 ≤ dg ∧ dg ≤ 1) ∧ (-2 ≤ db ∧ db ≤ 1) := by
  simp only [Instr.wf, Bool.and_eq_true, decide_eq_true_eq, and_assoc]

@[simp] theorem Instr.wf_luma (dg drg dbg : Int) :
    (Instr.luma dg drg dbg).wf = true ↔ (-32 ≤ dg ∧ dg ≤ 31) ∧ (-8 ≤ drg ∧ drg ≤ 7) ∧ (-8 ≤ dbg ∧ dbg ≤ 7) := by
  simp only [Instr.wf, Bool.and_eq_true, decide_eq_true_eq, and_assoc]

@[simp] theorem Instr.wf_run (n : Nat) : (Instr.run n).wf = true ↔ 1 ≤ n ∧ n ≤ 62 := decide_eq_true_iff

/-- A value in a biased field's range is some unsigned field less the bias (R78). -/
theorem exists_field (k n : Nat) (x : Int) (hl : -(k : Int) ≤ x) (hu : x < n - k) : ∃ a : Fin n, x = (a.val : Int) - k :=
  ⟨⟨(x + k).toNat, by omega⟩, by simp; omega⟩

/-- An unsigned field less its bias is in the range of R84. -/
theorem unbias_range (k : Nat) {w : Nat} (x : BitVec w) : -(k : Int) ≤ unbias k x ∧ unbias k x < 2 ^ w - k := by
  have := x.isLt
  unfold unbias
  constructor
  · omega
  · zify at this; linarith

/-! ## The fields of an encoded chunk (R74 to R77) -/

theorem decode_index_fields : ∀ i : BitVec 6,
    decodeKind (i.zeroExtend 8) = .index ∧ (i.zeroExtend 8 : Byte).extractLsb' 0 6 = i := by decide

theorem decode_diff_fields : ∀ a b c : Fin 4,
    let t : Byte := 0x40#8 ||| (bias 2 (a.val - 2) <<< 4) ||| (bias 2 (b.val - 2) <<< 2) ||| bias 2 (c.val - 2)
    decodeKind t = .diff ∧ unbias 2 (t.extractLsb' 4 2) = (a.val : Int) - 2 ∧
      unbias 2 (t.extractLsb' 2 2) = (b.val : Int) - 2 ∧ unbias 2 (t.extractLsb' 0 2) = (c.val : Int) - 2 := by decide

theorem decode_luma_tag : ∀ a : Fin 64,
    let t : Byte := 0x80#8 ||| bias 32 (a.val - 32)
    decodeKind t = .luma ∧ unbias 32 (t.extractLsb' 0 6) = (a.val : Int) - 32 := by decide

theorem decode_luma_payload : ∀ a b : Fin 16,
    let t : Byte := (bias 8 (a.val - 8) <<< 4) ||| bias 8 (b.val - 8)
    unbias 8 (t.extractLsb' 4 4) = (a.val : Int) - 8 ∧ unbias 8 (t.extractLsb' 0 4) = (b.val : Int) - 8 := by decide

theorem decode_run_fields : ∀ a : Fin 62,
    let t : Byte := 0xC0#8 ||| BitVec.ofNat 8 a.val
    decodeKind t = .run ∧ 1 + (t.extractLsb' 0 6).toNat = a.val + 1 := by decide

/-! ## The tag that a kind comes from (R71) -/

theorem tag_of_rgb : ∀ tag : Byte, decodeKind tag = .rgb → tag = 0xFE := by decide

theorem tag_of_rgba : ∀ tag : Byte, decodeKind tag = .rgba → tag = 0xFF := by decide

theorem tag_of_index : ∀ tag : Byte, decodeKind tag = .index → encode (.index (tag.extractLsb' 0 6)) = [tag] := by decide

theorem tag_of_diff : ∀ tag : Byte, decodeKind tag = .diff →
    encode (.diff (unbias 2 (tag.extractLsb' 4 2)) (unbias 2 (tag.extractLsb' 2 2)) (unbias 2 (tag.extractLsb' 0 2))) =
      [tag] := by decide

theorem tag_of_luma : ∀ tag : Byte, decodeKind tag = .luma →
    0x80#8 ||| bias 32 (unbias 32 (tag.extractLsb' 0 6)) = tag := by decide

theorem payload_of_luma : ∀ b : Byte,
    (bias 8 (unbias 8 (b.extractLsb' 4 4)) <<< 4) ||| bias 8 (unbias 8 (b.extractLsb' 0 4)) = b := by decide

theorem tag_of_run : ∀ tag : Byte, decodeKind tag = .run →
    (tag.extractLsb' 0 6).toNat < 62 ∧ encode (.run (1 + (tag.extractLsb' 0 6).toNat)) = [tag] := by decide

/-- R79: the kind and the length agree. -/
theorem chunkLength_of_kind : ∀ tag : Byte,
    chunkLength tag = match decodeKind tag with | .rgb => 4 | .rgba => 5 | .luma => 2 | _ => 1 := by decide

/-! ## The bytes of an encoded chunk as numbers (R75 to R77) -/

theorem encode_index : ∀ i : BitVec 6, encode (.index i) = [BitVec.ofNat 8 i.toNat] := by decide

theorem encode_run_byte : ∀ a : Fin 62, encode (.run (a.val + 1)) = [BitVec.ofNat 8 (0xC0 + a.val)] := by decide

theorem encode_diff_byte : ∀ a b c : Fin 4, encode (.diff (a.val - 2) (b.val - 2) (c.val - 2)) =
    [BitVec.ofInt 8 (0x40 + 16 * ((a.val - 2) + 2) + 4 * ((b.val - 2) + 2) + ((c.val - 2) + 2))] := by decide

theorem encode_luma_tag : ∀ a : Fin 64, 0x80#8 ||| bias 32 (a.val - 32) = BitVec.ofInt 8 (0x80 + ((a.val - 32) + 32)) := by
  decide

theorem encode_luma_payload : ∀ a b : Fin 16, (bias 8 (a.val - 8) <<< 4) ||| bias 8 (b.val - 8) =
    BitVec.ofInt 8 (16 * ((a.val - 8) + 8) + ((b.val - 8) + 8)) := by decide

theorem encode_run (n : Nat) (hl : 1 ≤ n) (hu : n ≤ 62) : encode (.run n) = [BitVec.ofNat 8 (0xC0 + (n - 1))] := by
  have h := encode_run_byte ⟨n - 1, by omega⟩
  rwa [show n - 1 + 1 = n by omega] at h

theorem encode_diff (dr dg db : Int) (h : (Instr.diff dr dg db).wf = true) :
    encode (.diff dr dg db) = [BitVec.ofInt 8 (0x40 + 16 * (dr + 2) + 4 * (dg + 2) + (db + 2))] := by
  rw [Instr.wf_diff] at h
  obtain ⟨a, rfl⟩ := exists_field 2 4 dr (by omega) (by omega)
  obtain ⟨b, rfl⟩ := exists_field 2 4 dg (by omega) (by omega)
  obtain ⟨c, rfl⟩ := exists_field 2 4 db (by omega) (by omega)
  exact encode_diff_byte a b c

theorem encode_luma (dg drg dbg : Int) (h : (Instr.luma dg drg dbg).wf = true) :
    encode (.luma dg drg dbg) = [BitVec.ofInt 8 (0x80 + (dg + 32)), BitVec.ofInt 8 (16 * (drg + 8) + (dbg + 8))] := by
  rw [Instr.wf_luma] at h
  obtain ⟨a, rfl⟩ := exists_field 32 64 dg (by omega) (by omega)
  obtain ⟨b, rfl⟩ := exists_field 8 16 drg (by omega) (by omega)
  obtain ⟨c, rfl⟩ := exists_field 8 16 dbg (by omega) (by omega)
  have h1 := encode_luma_tag a
  have h2 := encode_luma_payload b c
  simp only [encode]
  push_cast at *
  rw [h1, h2]

/-! ## Longer and shorter listings -/

/-- More bytes after a whole chunk change nothing but what is left. -/
theorem decodeChunk_append {p rest : List Byte} {i : Instr} (h : decodeChunk p = .unit i rest) (q : List Byte) :
    decodeChunk (p ++ q) = .unit i (rest ++ q) := by
  match p with
  | [] => cases h
  | tag :: pl =>
    cases hk : decodeKind tag with
    | rgb =>
      match pl with
      | r :: g :: b :: pl => simp only [decodeChunk, hk, List.cons_append, Decoded.unit.injEq] at h ⊢; simp [h]
      | [] | [_] | [_, _] => simp [decodeChunk, hk] at h
    | rgba =>
      match pl with
      | r :: g :: b :: a :: pl => simp only [decodeChunk, hk, List.cons_append, Decoded.unit.injEq] at h ⊢; simp [h]
      | [] | [_] | [_, _] | [_, _, _] => simp [decodeChunk, hk] at h
    | luma =>
      match pl with
      | b2 :: pl => simp only [decodeChunk, hk, List.cons_append, Decoded.unit.injEq] at h ⊢; simp [h]
      | [] => simp [decodeChunk, hk] at h
    | index | diff | run =>
      simp only [decodeChunk, hk, List.cons_append, Decoded.unit.injEq] at h ⊢
      exact ⟨h.1, by rw [h.2]⟩

/-- The front of a rejected listing is rejected. -/
theorem decodeChunk_front {p q : List Byte} {why : DecodeReject} (h : decodeChunk (p ++ q) = .rejected why) :
    ∃ w, decodeChunk p = .rejected w := by
  cases hp : decodeChunk p with
  | rejected w => exact ⟨w, rfl⟩
  | unit i rest => rw [decodeChunk_append hp] at h; cases h

/-- The byte that completes a chunk is its last. -/
theorem rest_of_completed {p rest : List Byte} {b : Byte} {i : Instr} {why : DecodeReject}
    (h : decodeChunk (p ++ [b]) = .unit i rest) (hp : decodeChunk p = .rejected why) : rest = [] := by
  match p with
  | [] =>
    cases hk : decodeKind b with
    | index | diff | run => simp [decodeChunk, hk] at h; exact h.2
    | rgb | rgba | luma => simp [decodeChunk, hk] at h
  | tag :: pl =>
    cases hk : decodeKind tag with
    | rgb =>
      match pl with
      | [_, _] => simp [decodeChunk, hk] at h; exact h.2
      | _ :: _ :: _ :: _ => simp [decodeChunk, hk] at hp
      | [] | [_] => simp [decodeChunk, hk] at h
    | rgba =>
      match pl with
      | [_, _, _] => simp [decodeChunk, hk] at h; exact h.2
      | _ :: _ :: _ :: _ :: _ => simp [decodeChunk, hk] at hp
      | [] | [_] | [_, _] => simp [decodeChunk, hk] at h
    | luma =>
      match pl with
      | [] => simp [decodeChunk, hk] at h; exact h.2
      | _ :: _ => simp [decodeChunk, hk] at hp
    | index | diff | run => simp [decodeChunk, hk] at hp

/-- A listing that holds no whole chunk has fewer than 5 bytes (R70, R80). -/
theorem length_of_rejected {bs : List Byte} {why : DecodeReject} (h : decodeChunk bs = .rejected why) : bs.length < 5 := by
  match bs with
  | [] => exact Nat.zero_lt_succ 4
  | tag :: pl =>
    cases hk : decodeKind tag with
    | rgb =>
      match pl with
      | r :: g :: b :: pl => simp [decodeChunk, hk] at h
      | [] | [_] | [_, _] => simp
    | rgba =>
      match pl with
      | r :: g :: b :: a :: pl => simp [decodeChunk, hk] at h
      | [] | [_] | [_, _] | [_, _, _] => simp
    | luma =>
      match pl with
      | b2 :: pl => simp [decodeChunk, hk] at h
      | [] => simp
    | index | diff | run => simp [decodeChunk, hk] at h

/-- A chunk has at most 5 bytes (R70). -/
theorem encode_length_le {i : Instr} (h : i ≠ .endMarker) : (encode i).length ≤ 5 := by
  cases i <;> simp [encode] at h ⊢

/-- No unit has an empty encoding. -/
theorem encode_length_pos (i : Instr) : 0 < (encode i).length := by
  cases i <;> simp [encode, endMarkerBytes]

/-- Every unit has at most 8 bytes (R70, R83). -/
theorem encode_length_le_eight (i : Instr) : (encode i).length ≤ 8 := by
  cases i <;> simp [encode, endMarkerBytes]

end Sys2Proof
end

