-- ==== Sys2Proof/Laws/Memory.lean ====
section
/-! SUPPORT. The laws of pixel grids: read after write, and every operation keeps the canonical form. -/

namespace Sys2Proof.Machine

/-- Reading after one write: the written position holds the pixel, every other is as before. -/
theorem Memory.read_write (g : Memory) (p q : Nat) (px : Pixel) :
    Memory.read (Memory.write g p px) q = if q = p then some px else Memory.read g q := by
  induction g with
  | nil => rfl
  | cons c g ih =>
    obtain ⟨k, x⟩ := c
    unfold Memory.write
    split
    · rfl
    · split
      · next hpk => subst hpk; simp only [Memory.read]; split <;> rfl
      · next hpk =>
        simp only [Memory.read, ih]
        by_cases hqk : q = k
        · rw [if_pos hqk, if_neg (by omega), if_pos hqk]
        · rw [if_neg hqk, if_neg hqk]

/-- Reading after a run of writes (R130). -/
theorem Memory.read_fill (m : Nat) (g : Memory) (p q : Nat) (px : Pixel) :
    Memory.read (Memory.fill g p px m) q = if p ≤ q ∧ q < p + m then some px else Memory.read g q := by
  induction m generalizing g p with
  | zero => rw [if_neg (by omega)]; rfl
  | succ m ih =>
    simp only [Memory.fill, ih, Memory.read_write]
    by_cases h : q = p
    · rw [if_pos h, ite_self, if_pos (by omega)]
    · rw [if_neg h]
      by_cases h' : p ≤ q ∧ q < p + (m + 1)
      · rw [if_pos h', if_pos (by omega)]
      · rw [if_neg h', if_neg (by omega)]

/-- A run of writes in two parts (R137). -/
theorem Memory.fill_add (a b : Nat) (g : Memory) (p : Nat) (px : Pixel) :
    Memory.fill g p px (a + b) = Memory.fill (Memory.fill g p px a) (p + a) px b := by
  induction a generalizing g p with
  | zero => rw [Nat.zero_add]; rfl
  | succ a ih => rw [Nat.add_right_comm, Memory.fill, ih, Memory.fill, Nat.add_right_comm p 1 a, Nat.add_assoc p a 1]

/-- Every position of a written grid is the written one or one listed before. -/
theorem Memory.mem_keys_write (g : Memory) (p q : Nat) (px : Pixel) (h : q ∈ (Memory.write g p px).map Prod.fst) :
    q = p ∨ q ∈ g.map Prod.fst := by
  induction g with
  | nil => exact .inl (by simpa [Memory.write] using h)
  | cons c g ih =>
    obtain ⟨k, x⟩ := c
    unfold Memory.write at h
    split at h
    · simpa using h
    · split at h
      · next hpk => subst hpk; exact .inr (by simpa using h)
      · rcases List.mem_cons.1 h with h | h
        · exact .inr (List.mem_cons.2 (.inl h))
        · exact (ih h).imp id (List.mem_cons_of_mem _)

/-- A write keeps the canonical form. -/
theorem Memory.write_wf (g : Memory) (p : Nat) (px : Pixel) (h : Memory.wf g) : Memory.wf (Memory.write g p px) := by
  induction g with
  | nil => exact List.pairwise_singleton _ _
  | cons c g ih =>
    obtain ⟨k, x⟩ := c
    obtain ⟨hk, hg⟩ := List.pairwise_cons.1 h
    unfold Memory.write
    split
    · next hpk =>
      refine List.pairwise_cons.2 ⟨fun q hq => ?_, h⟩
      rcases List.mem_cons.1 hq with rfl | hq
      · exact hpk
      · exact Nat.lt_trans hpk (hk q hq)
    · split
      · next hpk => subst hpk; exact h
      · next hlt hne =>
        refine List.pairwise_cons.2 ⟨fun q hq => ?_, ih hg⟩
        rcases Memory.mem_keys_write g p q px hq with rfl | hq
        · show k < q; omega
        · exact hk q hq

/-- A run of writes keeps the canonical form. -/
theorem Memory.fill_wf (m : Nat) (g : Memory) (p : Nat) (px : Pixel) (h : Memory.wf g) : Memory.wf (Memory.fill g p px m) := by
  induction m generalizing g p with
  | zero => exact h
  | succ m ih => exact ih _ _ (Memory.write_wf g p px h)

/-- The host's grids are in canonical form. -/
theorem Memory.ofCells_wf (cells : List (Nat × Pixel)) : Memory.wf (Memory.ofCells cells) := by
  suffices h : ∀ g : Memory, Memory.wf g → Memory.wf (cells.foldl (fun g c => Memory.write g c.1 c.2) g) from
    h [] List.Pairwise.nil
  induction cells with
  | nil => exact fun _ h => h
  | cons c cells ih => exact fun g h => ih _ (Memory.write_wf g c.1 c.2 h)

/-- A listed position is found by a read. -/
theorem Memory.mem_of_read (g : Memory) (p : Nat) (px : Pixel) (h : Memory.read g p = some px) : (p, px) ∈ g := by
  induction g with
  | nil => cases h
  | cons c g ih =>
    obtain ⟨k, x⟩ := c
    unfold Memory.read at h
    split at h
    · next hpk => cases h; subst hpk; exact List.mem_cons_self
    · exact List.mem_cons_of_mem _ (ih h)

/-- An extension answers every answered position as before (R67). -/
theorem Memory.read_of_extendedBy {g g' : Memory} (h : Memory.extendedBy g g' = true) {p : Nat} {px : Pixel}
    (hp : Memory.read g p = some px) : Memory.read g' p = some px := by
  have hm := List.all_eq_true.1 h _ (Memory.mem_of_read g p px hp)
  exact (beq_iff_eq.1 hm).trans hp

end Sys2Proof.Machine
end

