-- ==== Sys2Proof/Laws/State.lean ====
section
/-! SUPPORT. One lemma per field per update of a record, each true by rfl, so that no later proof unfolds an update. -/

namespace Sys2Proof.Machine

section CacheWrite

variable (px : Pixel) (e : Engine)

@[simp] theorem Engine.cacheWrite_cache : (e.cacheWrite px).cache = e.cache.set (pixelHash px).toNat px := rfl

@[simp] theorem Engine.cacheWrite_prev : (e.cacheWrite px).prev = e.prev := rfl

@[simp] theorem Engine.cacheWrite_pix : (e.cacheWrite px).pix = e.pix := rfl

@[simp] theorem Engine.cacheWrite_bytes : (e.cacheWrite px).bytes = e.bytes := rfl

@[simp] theorem Engine.cacheWrite_st : (e.cacheWrite px).st = e.st := rfl

@[simp] theorem Engine.cacheWrite_err : (e.cacheWrite px).err = e.err := rfl

@[simp] theorem Engine.cacheWrite_width : (e.cacheWrite px).width = e.width := rfl

@[simp] theorem Engine.cacheWrite_height : (e.cacheWrite px).height = e.height := rfl

@[simp] theorem Engine.cacheWrite_npix : (e.cacheWrite px).npix = e.npix := rfl

@[simp] theorem Engine.cacheWrite_events : (e.cacheWrite px).events = e.events := rfl

end CacheWrite

section Update

variable (px : Pixel) (e : Engine)

@[simp] theorem Engine.update_cache : (e.update px).cache = e.cache.set (pixelHash px).toNat px := rfl

@[simp] theorem Engine.update_prev : (e.update px).prev = px := rfl

@[simp] theorem Engine.update_pix : (e.update px).pix = e.pix := rfl

@[simp] theorem Engine.update_bytes : (e.update px).bytes = e.bytes := rfl

@[simp] theorem Engine.update_st : (e.update px).st = e.st := rfl

@[simp] theorem Engine.update_err : (e.update px).err = e.err := rfl

@[simp] theorem Engine.update_width : (e.update px).width = e.width := rfl

@[simp] theorem Engine.update_height : (e.update px).height = e.height := rfl

@[simp] theorem Engine.update_npix : (e.update px).npix = e.npix := rfl

@[simp] theorem Engine.update_events : (e.update px).events = e.events := rfl

end Update

section Advance

variable (n : Nat) (e : Engine)

@[simp] theorem Engine.advance_cache : (e.advance n).cache = e.cache := rfl

@[simp] theorem Engine.advance_prev : (e.advance n).prev = e.prev := rfl

@[simp] theorem Engine.advance_pix : (e.advance n).pix = e.pix + BitVec.ofNat 64 n := rfl

@[simp] theorem Engine.advance_bytes : (e.advance n).bytes = e.bytes := rfl

@[simp] theorem Engine.advance_st : (e.advance n).st = e.st := rfl

@[simp] theorem Engine.advance_err : (e.advance n).err = e.err := rfl

@[simp] theorem Engine.advance_width : (e.advance n).width = e.width := rfl

@[simp] theorem Engine.advance_height : (e.advance n).height = e.height := rfl

@[simp] theorem Engine.advance_npix : (e.advance n).npix = e.npix := rfl

@[simp] theorem Engine.advance_events : (e.advance n).events = e.events := rfl

end Advance

section CountByte

variable (e : Engine)

@[simp] theorem Engine.countByte_cache : (e.countByte).cache = e.cache := rfl

@[simp] theorem Engine.countByte_prev : (e.countByte).prev = e.prev := rfl

@[simp] theorem Engine.countByte_pix : (e.countByte).pix = e.pix := rfl

@[simp] theorem Engine.countByte_bytes : (e.countByte).bytes = e.bytes + 1 := rfl

@[simp] theorem Engine.countByte_st : (e.countByte).st = e.st := rfl

@[simp] theorem Engine.countByte_err : (e.countByte).err = e.err := rfl

@[simp] theorem Engine.countByte_width : (e.countByte).width = e.width := rfl

@[simp] theorem Engine.countByte_height : (e.countByte).height = e.height := rfl

@[simp] theorem Engine.countByte_npix : (e.countByte).npix = e.npix := rfl

@[simp] theorem Engine.countByte_events : (e.countByte).events = e.events := rfl

end CountByte

section ChunkEvent

variable (kind : ChunkKind) (len n : Nat) (e : Engine)

@[simp] theorem Engine.chunkEvent_cache : (e.chunkEvent kind len n).cache = e.cache := rfl

@[simp] theorem Engine.chunkEvent_prev : (e.chunkEvent kind len n).prev = e.prev := rfl

@[simp] theorem Engine.chunkEvent_pix : (e.chunkEvent kind len n).pix = e.pix := rfl

@[simp] theorem Engine.chunkEvent_bytes : (e.chunkEvent kind len n).bytes = e.bytes := rfl

@[simp] theorem Engine.chunkEvent_st : (e.chunkEvent kind len n).st = e.st := rfl

@[simp] theorem Engine.chunkEvent_err : (e.chunkEvent kind len n).err = e.err := rfl

@[simp] theorem Engine.chunkEvent_width : (e.chunkEvent kind len n).width = e.width := rfl

@[simp] theorem Engine.chunkEvent_height : (e.chunkEvent kind len n).height = e.height := rfl

@[simp] theorem Engine.chunkEvent_npix : (e.chunkEvent kind len n).npix = e.npix := rfl

@[simp] theorem Engine.chunkEvent_events : (e.chunkEvent kind len n).events = e.events ++ [⟨kind, BitVec.ofNat 3 len, BitVec.ofNat 6 n⟩] := rfl

end ChunkEvent

section Raise

variable (c : ErrorCode) (e : Engine)

@[simp] theorem Engine.raise_cache : (e.raise c).cache = e.cache := rfl

@[simp] theorem Engine.raise_prev : (e.raise c).prev = e.prev := rfl

@[simp] theorem Engine.raise_pix : (e.raise c).pix = e.pix := rfl

@[simp] theorem Engine.raise_bytes : (e.raise c).bytes = e.bytes := rfl

@[simp] theorem Engine.raise_st : (e.raise c).st = .error := rfl

@[simp] theorem Engine.raise_err : (e.raise c).err = c := rfl

@[simp] theorem Engine.raise_width : (e.raise c).width = e.width := rfl

@[simp] theorem Engine.raise_height : (e.raise c).height = e.height := rfl

@[simp] theorem Engine.raise_npix : (e.raise c).npix = e.npix := rfl

@[simp] theorem Engine.raise_events : (e.raise c).events = e.events := rfl

end Raise

section Finish

variable (e : Engine)

@[simp] theorem Engine.finish_cache : (e.finish).cache = e.cache := rfl

@[simp] theorem Engine.finish_prev : (e.finish).prev = e.prev := rfl

@[simp] theorem Engine.finish_pix : (e.finish).pix = e.pix := rfl

@[simp] theorem Engine.finish_bytes : (e.finish).bytes = e.bytes := rfl

@[simp] theorem Engine.finish_st : (e.finish).st = .done := rfl

@[simp] theorem Engine.finish_err : (e.finish).err = .none := rfl

@[simp] theorem Engine.finish_width : (e.finish).width = e.width := rfl

@[simp] theorem Engine.finish_height : (e.finish).height = e.height := rfl

@[simp] theorem Engine.finish_npix : (e.finish).npix = e.npix := rfl

@[simp] theorem Engine.finish_events : (e.finish).events = e.events := rfl

end Finish

section StartSession

variable (e : Engine)

@[simp] theorem Engine.startSession_cache : (e.startSession).cache = Vector.replicate 64 Config.cacheReset := rfl

@[simp] theorem Engine.startSession_prev : (e.startSession).prev = Config.prevReset := rfl

@[simp] theorem Engine.startSession_pix : (e.startSession).pix = 0 := rfl

@[simp] theorem Engine.startSession_bytes : (e.startSession).bytes = 0 := rfl

@[simp] theorem Engine.startSession_st : (e.startSession).st = .busy := rfl

@[simp] theorem Engine.startSession_err : (e.startSession).err = .none := rfl

@[simp] theorem Engine.startSession_width : (e.startSession).width = e.width := rfl

@[simp] theorem Engine.startSession_height : (e.startSession).height = e.height := rfl

@[simp] theorem Engine.startSession_npix : (e.startSession).npix = e.width.zeroExtend 64 * e.height.zeroExtend 64 := rfl

@[simp] theorem Engine.startSession_events : (e.startSession).events = e.events := rfl

end StartSession

section ResetPower

variable (e : Engine)

@[simp] theorem Engine.resetPower_cache : (e.resetPower).cache = Vector.replicate 64 Config.cacheReset := rfl

@[simp] theorem Engine.resetPower_prev : (e.resetPower).prev = Config.prevReset := rfl

@[simp] theorem Engine.resetPower_pix : (e.resetPower).pix = 0 := rfl

@[simp] theorem Engine.resetPower_bytes : (e.resetPower).bytes = 0 := rfl

@[simp] theorem Engine.resetPower_st : (e.resetPower).st = .idle := rfl

@[simp] theorem Engine.resetPower_err : (e.resetPower).err = .none := rfl

@[simp] theorem Engine.resetPower_width : (e.resetPower).width = 0 := rfl

@[simp] theorem Engine.resetPower_height : (e.resetPower).height = 0 := rfl

@[simp] theorem Engine.resetPower_npix : (e.resetPower).npix = 0 := rfl

@[simp] theorem Engine.resetPower_events : (e.resetPower).events = e.events := rfl

end ResetPower

section DecoderRaise

variable (c : ErrorCode) (d : Decoder)

@[simp] theorem Decoder.raise_eng : (d.raise c).eng = d.eng.raise c := rfl

@[simp] theorem Decoder.raise_chunkBuf : (d.raise c).chunkBuf = [] := rfl

@[simp] theorem Decoder.raise_source : (d.raise c).source = d.source := rfl

@[simp] theorem Decoder.raise_expanded : (d.raise c).expanded = none := rfl

@[simp] theorem Decoder.raise_sink : (d.raise c).sink = d.sink := rfl

@[simp] theorem Decoder.raise_pixelAnswers : (d.raise c).pixelAnswers = d.pixelAnswers := rfl

end DecoderRaise

section DecoderExpand

variable (px : Pixel) (m j : Nat) (d : Decoder)

@[simp] theorem Decoder.expand_eng : (d.expand px m j).eng = d.eng := rfl

@[simp] theorem Decoder.expand_chunkBuf : (d.expand px m j).chunkBuf = d.chunkBuf := rfl

@[simp] theorem Decoder.expand_source : (d.expand px m j).source = d.source := rfl

@[simp] theorem Decoder.expand_expanded : (d.expand px m j).expanded = some (d.reach m j) := rfl

@[simp] theorem Decoder.expand_sink :
    (d.expand px m j).sink = Memory.fill d.sink (d.eng.pix.toNat + j) px (min (m - j) d.pixelAnswers) := rfl

@[simp] theorem Decoder.expand_pixelAnswers :
    (d.expand px m j).pixelAnswers = d.pixelAnswers - min (m - j) d.pixelAnswers := rfl

end DecoderExpand

section DecoderEndChunk

variable (m : Nat) (kind : ChunkKind) (len : Nat) (d : Decoder)

@[simp] theorem Decoder.endChunk_eng : (d.endChunk m kind len).eng = (d.eng.advance m).chunkEvent kind len m := rfl

@[simp] theorem Decoder.endChunk_chunkBuf : (d.endChunk m kind len).chunkBuf = [] := rfl

@[simp] theorem Decoder.endChunk_source : (d.endChunk m kind len).source = d.source := rfl

@[simp] theorem Decoder.endChunk_expanded : (d.endChunk m kind len).expanded = none := rfl

@[simp] theorem Decoder.endChunk_sink : (d.endChunk m kind len).sink = d.sink := rfl

@[simp] theorem Decoder.endChunk_pixelAnswers : (d.endChunk m kind len).pixelAnswers = d.pixelAnswers := rfl

end DecoderEndChunk

section DecoderResetPower

variable (d : Decoder)

@[simp] theorem Decoder.resetPower_eng : (d.resetPower).eng = d.eng.resetPower := rfl

@[simp] theorem Decoder.resetPower_chunkBuf : (d.resetPower).chunkBuf = [] := rfl

@[simp] theorem Decoder.resetPower_source : (d.resetPower).source = d.source := rfl

@[simp] theorem Decoder.resetPower_expanded : (d.resetPower).expanded = none := rfl

@[simp] theorem Decoder.resetPower_sink : (d.resetPower).sink = d.sink := rfl

@[simp] theorem Decoder.resetPower_pixelAnswers : (d.resetPower).pixelAnswers = d.pixelAnswers := rfl

end DecoderResetPower

section EncoderRaise

variable (c : ErrorCode) (e : Encoder)

@[simp] theorem Encoder.raise_eng : (e.raise c).eng = e.eng.raise c := rfl

@[simp] theorem Encoder.raise_erun : (e.raise c).erun = 0 := rfl

@[simp] theorem Encoder.raise_epos : (e.raise c).epos = 0 := rfl

@[simp] theorem Encoder.raise_source : (e.raise c).source = e.source := rfl

@[simp] theorem Encoder.raise_answers : (e.raise c).answers = e.answers := rfl

@[simp] theorem Encoder.raise_sink : (e.raise c).sink = e.sink := rfl

end EncoderRaise

section EncoderCommit

variable (px : Pixel) (adv : Nat) (kind : ChunkKind) (len : Nat) (e : Encoder)

@[simp] theorem Encoder.commit_eng : (e.commit px adv kind len).eng = ((e.eng.update px).advance adv).chunkEvent kind len adv := rfl

@[simp] theorem Encoder.commit_erun : (e.commit px adv kind len).erun = 0 := rfl

@[simp] theorem Encoder.commit_epos : (e.commit px adv kind len).epos = 0 := rfl

@[simp] theorem Encoder.commit_source : (e.commit px adv kind len).source = e.source := rfl

@[simp] theorem Encoder.commit_answers : (e.commit px adv kind len).answers = e.answers := rfl

@[simp] theorem Encoder.commit_sink : (e.commit px adv kind len).sink = e.sink := rfl

end EncoderCommit

section EncoderFinish

variable (e : Encoder)

@[simp] theorem Encoder.finish_eng : (e.finish).eng = e.eng.finish := rfl

@[simp] theorem Encoder.finish_erun : (e.finish).erun = 0 := rfl

@[simp] theorem Encoder.finish_epos : (e.finish).epos = 0 := rfl

@[simp] theorem Encoder.finish_source : (e.finish).source = e.source := rfl

@[simp] theorem Encoder.finish_answers : (e.finish).answers = e.answers := rfl

@[simp] theorem Encoder.finish_sink : (e.finish).sink = e.sink := rfl

end EncoderFinish

section EncoderStart

variable (e : Encoder)

@[simp] theorem Encoder.start_eng : (e.start).eng = e.eng.startSession := rfl

@[simp] theorem Encoder.start_erun : (e.start).erun = 0 := rfl

@[simp] theorem Encoder.start_epos : (e.start).epos = 0 := rfl

@[simp] theorem Encoder.start_source : (e.start).source = e.source := rfl

@[simp] theorem Encoder.start_answers : (e.start).answers = e.answers := rfl

@[simp] theorem Encoder.start_sink : (e.start).sink = e.sink := rfl

end EncoderStart

section EncoderResetPower

variable (e : Encoder)

@[simp] theorem Encoder.resetPower_eng : (e.resetPower).eng = e.eng.resetPower := rfl

@[simp] theorem Encoder.resetPower_erun : (e.resetPower).erun = 0 := rfl

@[simp] theorem Encoder.resetPower_epos : (e.resetPower).epos = 0 := rfl

@[simp] theorem Encoder.resetPower_source : (e.resetPower).source = e.source := rfl

@[simp] theorem Encoder.resetPower_answers : (e.resetPower).answers = e.answers := rfl

@[simp] theorem Encoder.resetPower_sink : (e.resetPower).sink = e.sink := rfl

end EncoderResetPower

section StateSetDec

variable (k : Nat) (d : Decoder) (s : State)

@[simp] theorem State.setDec_decs : (s.setDec k d).decs = s.decs.set k d := rfl

@[simp] theorem State.setDec_encs : (s.setDec k d).encs = s.encs := rfl

@[simp] theorem State.setDec_overshoot : (s.setDec k d).overshoot = s.overshoot := rfl

@[simp] theorem State.setDec_busData : (s.setDec k d).busData = s.busData := rfl

@[simp] theorem State.setDec_turn : (s.setDec k d).turn = s.turn := rfl

@[simp] theorem State.setDec_agenda : (s.setDec k d).agenda = s.agenda := rfl

end StateSetDec

section StateSetEnc

variable (k : Nat) (e : Encoder) (s : State)

@[simp] theorem State.setEnc_decs : (s.setEnc k e).decs = s.decs := rfl

@[simp] theorem State.setEnc_encs : (s.setEnc k e).encs = s.encs.set k e := rfl

@[simp] theorem State.setEnc_overshoot : (s.setEnc k e).overshoot = s.overshoot := rfl

@[simp] theorem State.setEnc_busData : (s.setEnc k e).busData = s.busData := rfl

@[simp] theorem State.setEnc_turn : (s.setEnc k e).turn = s.turn := rfl

@[simp] theorem State.setEnc_agenda : (s.setEnc k e).agenda = s.agenda := rfl

end StateSetEnc

section StatePowerOn

variable (s : State)

@[simp] theorem State.powerOn_decs : (s.powerOn).decs = s.decs.map Decoder.resetPower := rfl

@[simp] theorem State.powerOn_encs : (s.powerOn).encs = s.encs.map Encoder.resetPower := rfl

@[simp] theorem State.powerOn_overshoot : (s.powerOn).overshoot = s.overshoot := rfl

@[simp] theorem State.powerOn_busData : (s.powerOn).busData = s.busData := rfl

@[simp] theorem State.powerOn_turn : (s.powerOn).turn = s.turn := rfl

@[simp] theorem State.powerOn_agenda : (s.powerOn).agenda = s.agenda := rfl

end StatePowerOn

end Sys2Proof.Machine
end

