-- ==== Sys2Proof/Laws/Ops.lean ====
section
/-! SUPPORT. One lemma per shared operation that says everything it can do. -/

namespace Sys2Proof.Machine

/-! ## The cache and the cursor -/

/-- Engines with one cache read alike. -/
theorem Engine.cacheRead_congr {e e' : Engine} (h : e.cache = e'.cache) (i : BitVec 6) : e.cacheRead i = e'.cacheRead i := by
  simp only [Engine.cacheRead, h]

/-- R104: what is read after a cache write. -/
theorem Engine.cacheRead_of_set {e e' : Engine} (px : Pixel) (h : e'.cache = e.cache.set (pixelHash px).toNat px)
    (i : BitVec 6) : e'.cacheRead i = if i = pixelHash px then px else e.cacheRead i := by
  simp only [Engine.cacheRead, h, Vector.getElem_set]
  by_cases hi : i = pixelHash px
  · simp [hi]
  · rw [if_neg hi, if_neg fun hh => hi (BitVec.eq_of_toNat_eq hh.symm)]

/-- R37: what is read right after session start or reset. -/
theorem Engine.cacheRead_fresh {e : Engine} (h : e.cache = Vector.replicate 64 Config.cacheReset) (i : BitVec 6) :
    e.cacheRead i = Config.cacheReset := by
  simp [Engine.cacheRead, h]

/-- The cursor does not wrap while it stays inside the image (R24, R26). -/
theorem Engine.advance_pix_toNat (e : Engine) (m : Nat) (h : e.pix.toNat + m ≤ e.npix.toNat) :
    (e.advance m).pix.toNat = e.pix.toNat + m := by
  have := e.npix.isLt
  simp only [advance_pix, BitVec.toNat_add, BitVec.toNat_ofNat]
  rw [Nat.mod_eq_of_lt (a := m) (by omega), Nat.mod_eq_of_lt (by omega)]

/-- R33: NPIX is the exact product. -/
theorem npix_toNat (w h : Word32) : (w.zeroExtend 64 * h.zeroExtend 64 : Word64).toNat = w.toNat * h.toNat := by
  have h1 := w.isLt
  have h2 := h.isLt
  have h3 : w.toNat * h.toNat < 2 ^ 64 := by nlinarith
  simp only [BitVec.toNat_mul, BitVec.truncate_eq_setWidth, BitVec.toNat_setWidth]
  rw [Nat.mod_eq_of_lt (a := w.toNat) (by omega), Nat.mod_eq_of_lt (a := h.toNat) (by omega), Nat.mod_eq_of_lt h3]

/-- The register update of a chunk step (R129, R164), whatever the byte count. -/
theorem Engine.committed (e : Engine) (b : Word64) (px : Pixel) (m : Nat) (kind : ChunkKind) (len : Nat) (hm : m < 64)
    (hl : len < 8) (hp : e.pix.toNat + m ≤ e.npix.toNat) :
    e.Committed (((Engine.update px { e with bytes := b }).advance m).chunkEvent kind len m) px m kind len where
  prev := rfl
  slot := by rw [Engine.cacheRead_of_set px (e := e) rfl, if_pos rfl]
  slots i hi := by rw [Engine.cacheRead_of_set px (e := e) rfl, if_neg hi]
  cursor := Engine.advance_pix_toNat { e with bytes := b } m hp
  event := ⟨_, rfl, rfl, by simp; omega, by simp; omega⟩
  npix := rfl
  width := rfl
  height := rfl

/-! ## The decoder -/

/-- R131: the stop test either leaves the decoder or ends its session. -/
theorem Decoder.stopTest_cases (d : Decoder) :
    (d.eng.pix.toNat < d.eng.npix.toNat ∧ d.stopTest = d) ∨
    (d.eng.npix.toNat ≤ d.eng.pix.toNat ∧ d.stopTest = { d with eng := d.eng.finish }) := by
  unfold Decoder.stopTest Decoder.needsPixels
  by_cases h : d.eng.pix.toNat < d.eng.npix.toNat
  · exact .inl ⟨h, by simp [h]⟩
  · exact .inr ⟨by omega, by simp [h]⟩

/-- A chunk step runs on a BUSY decoder that needs pixels (R122). -/
theorem Decoder.whileBusy_of_busy (f : Decoder → Decoder) {d : Decoder} (hb : d.eng.st = .busy)
    (hn : d.eng.pix.toNat < d.eng.npix.toNat) : d.whileBusy f = f d := by
  unfold Decoder.whileBusy Decoder.needsPixels
  rw [if_neg (by simp [hb]), if_pos (by simp [hn])]

/-- R193, R213: the host has not answered for all pixels of the chunk: the expansion waits after those it has answered. -/
theorem Decoder.writeChunk_waits (px : Pixel) (m : Nat) (kind : ChunkKind) (len j : Nat) {d : Decoder}
    (h : j + d.pixelAnswers < m) : d.writeChunk px m kind len j = { d with
      sink := Memory.fill d.sink (d.eng.pix.toNat + j) px d.pixelAnswers
      pixelAnswers := 0
      expanded := some (j + d.pixelAnswers) } := by
  have hmin : min (m - j) d.pixelAnswers = d.pixelAnswers := by omega
  simp only [Decoder.writeChunk, Decoder.expand, Decoder.reach, hmin, h, if_true, Nat.sub_self]

/-- R130, R131, R136: the host has answered for the pixels that are left: the chunk step ends. -/
theorem Decoder.writeChunk_ends (px : Pixel) (m : Nat) (kind : ChunkKind) (len j : Nat) {d : Decoder} (hj : j ≤ m)
    (h : m ≤ j + d.pixelAnswers) : d.writeChunk px m kind len j = Decoder.stopTest { d with
      eng := (d.eng.advance m).chunkEvent kind len m
      chunkBuf := []
      expanded := none
      sink := Memory.fill d.sink (d.eng.pix.toNat + j) px (m - j)
      pixelAnswers := d.pixelAnswers - (m - j) } := by
  have hmin : min (m - j) d.pixelAnswers = m - j := by omega
  have hn : ¬ m < m := by omega
  simp only [Decoder.writeChunk, Decoder.endChunk, Decoder.expand, Decoder.reach, hmin, Nat.add_sub_cancel' hj, hn, if_false]

/-- R129, R133: a chunk step that begins its commit, with a run that fits or is clamped. -/
theorem Decoder.commit_begins (policy : RunOvershoot) (px : Pixel) (run : Nat) (kind : ChunkKind) (len : Nat) {d : Decoder}
    (hx : d.expanded = none) (h : policy = .clamp ∨ d.eng.pix.toNat + run ≤ d.eng.npix.toNat) :
    d.commit policy px run kind len =
      Decoder.writeChunk px (d.needed run) kind len 0 { d with eng := d.eng.update px } := by
  simp only [Decoder.commit, hx]
  rw [if_neg]
  · rfl
  · rintro ⟨h1, h2⟩
    rcases h with h | h
    · rw [h] at h1; cases h1
    · simp [Decoder.overshoots] at h2; omega

/-- A chunk step that has waited for the pixel sink goes on with its expansion (R130). -/
theorem Decoder.commit_goesOn (policy : RunOvershoot) (px : Pixel) (run : Nat) (kind : ChunkKind) (len : Nat) {d : Decoder}
    {j : Nat} (hx : d.expanded = some j) :
    d.commit policy px run kind len = d.writeChunk d.eng.prev (d.needed run) kind len j := by
  simp only [Decoder.commit, hx]
  rfl

/-- R133: with RUN_OVERSHOOT = fault, a run past the end raises INTERNAL. -/
theorem Decoder.commit_overshoot (px : Pixel) (run : Nat) (kind : ChunkKind) (len : Nat) {d : Decoder}
    (hx : d.expanded = none) (hn : d.eng.pix.toNat < d.eng.npix.toNat) (h : d.eng.npix.toNat < d.eng.pix.toNat + run) :
    d.commit .fault px run kind len = d.raise .internal := by
  simp only [Decoder.commit, hx, Decoder.overshoots]
  rw [if_pos ⟨trivial, by simp; omega⟩]

/-- R129 to R131, R136: what a chunk step that ends changes and what it leaves, in the registers. `d` is the decoder before the
common update, `u` after it. -/
theorem Decoder.ends_committed {d u : Decoder} (px : Pixel) (m : Nat) (kind : ChunkKind) (len j : Nat) (hm : m < 64)
    (hl : len < 8) (hb : d.eng.st = .busy) (hp : d.eng.pix.toNat + m ≤ d.eng.npix.toNat) (hj : j ≤ m)
    (ha : m ≤ j + u.pixelAnswers) (hu : u.eng = d.eng.update px) (t : Decoder) (ht : t = u.writeChunk px m kind len j) :
    d.eng.Committed t.eng px m kind len ∧ t.eng.bytes = d.eng.bytes ∧ t.chunkBuf = [] ∧ t.expanded = none ∧
      t.source = u.source ∧ t.pixelAnswers = u.pixelAnswers - (m - j) ∧
      t.sink = Memory.fill u.sink (d.eng.pix.toNat + j) px (m - j) ∧
      (t.eng.pix = t.eng.npix → t.eng.st = .done ∧ t.eng.err = .none) ∧
      (t.eng.pix ≠ t.eng.npix → t.eng.st = .busy ∧ t.eng.err = d.eng.err) := by
  have hE := Engine.committed d.eng d.eng.bytes px m kind len hm hl hp
  rw [Decoder.writeChunk_ends px m kind len j hj ha, hu] at ht
  have hc : (((d.eng.update px).advance m).chunkEvent kind len m).pix.toNat = d.eng.pix.toNat + m := hE.cursor
  rcases Decoder.stopTest_cases { u with
      eng := ((d.eng.update px).advance m).chunkEvent kind len m
      chunkBuf := []
      expanded := none
      sink := Memory.fill u.sink ((d.eng.update px).pix.toNat + j) px (m - j)
      pixelAnswers := u.pixelAnswers - (m - j) } with ⟨hlt, he⟩ | ⟨hge, he⟩ <;>
    rw [he] at ht <;> subst ht
  · exact ⟨hE, rfl, rfl, rfl, rfl, rfl, rfl, fun hh => by rw [hh] at hlt; omega, fun _ => ⟨hb, rfl⟩⟩
  · refine ⟨⟨hE.prev, hE.slot, hE.slots, hE.cursor, hE.event, hE.npix, hE.width, hE.height⟩, rfl, rfl, rfl, rfl, rfl, rfl,
      fun _ => ⟨rfl, rfl⟩, fun hh => absurd (BitVec.eq_of_toNat_eq (Nat.le_antisymm ?_ hge)) hh⟩
    show (((d.eng.update px).advance m).chunkEvent kind len m).pix.toNat ≤ d.eng.npix.toNat
    rw [hc]
    exact hp

/-- R129 to R131, R136: what a commit changes and what it leaves, when the host has answered for every pixel of the chunk. -/
theorem Decoder.commit_committed (policy : RunOvershoot) (px : Pixel) (run : Nat) (kind : ChunkKind) (len : Nat)
    {d : Decoder} (hr : run < 64) (hl : len < 8) (hb : d.eng.st = .busy) (hn : d.eng.pix.toNat < d.eng.npix.toNat)
    (hx : d.expanded = none) (ha : d.needed run ≤ d.pixelAnswers)
    (h : policy = .clamp ∨ d.eng.pix.toNat + run ≤ d.eng.npix.toNat) :
    d.Committed (d.commit policy px run kind len) px (d.needed run) kind len := by
  rw [Decoder.commit_begins policy px run kind len hx h]
  have hm : d.needed run = min run (d.eng.npix.toNat - d.eng.pix.toNat) := rfl
  obtain ⟨hE, h1, h2, h3, h4, h5, h6, h7, h8⟩ := Decoder.ends_committed (d := d) (u := { d with eng := d.eng.update px }) px
    (d.needed run) kind len 0 (by omega) hl hb (by omega) (Nat.zero_le _) (by simpa using ha) rfl _ rfl
  rw [Nat.add_zero] at h6
  exact {
    eng := hE, bytes := h1, chunkBuf := h2, expanded := h3, source := h4, pixelAnswers := h5, stop := h7, goOn := h8
    written := fun p hp1 hp2 => by rw [h6, Memory.read_fill, if_pos ⟨hp1, by omega⟩]
    kept := fun p hp => by rw [h6, Memory.read_fill, if_neg (by omega)] }

/-- Writing a pixel that its slot and `prev` hold already changes nothing (R104, R108). -/
theorem Engine.update_self {e : Engine} {px : Pixel} (hp : e.prev = px) (hc : e.cacheRead (pixelHash px) = px) :
    e.update px = e := by
  have hs : e.cache.set (pixelHash px).toNat px = e.cache := by
    apply Vector.ext
    intro i hi
    rw [Vector.getElem_set]
    split
    · next h => subst h; exact hc.symm
    · rfl
  subst hp
  simp only [Engine.update, Engine.cacheWrite, hs]

/-- R122: reading bytes that complete no chunk before their last one. -/
theorem Decoder.fetch_reads (bs : List Byte) (d : Decoder) (more : List ReadAnswer) (fuel : Nat)
    (hs : d.source = bs.map .byte ++ more)
    (hp : ∀ p q, bs = p ++ q → q ≠ [] → ∃ why, decodeChunk (d.chunkBuf ++ p) = .rejected why) :
    d.fetch (bs.length + fuel) = Decoder.fetch fuel { d with
      eng := { d.eng with bytes := d.eng.bytes + BitVec.ofNat 64 bs.length }
      chunkBuf := d.chunkBuf ++ bs
      source := more } := by
  induction bs generalizing d with
  | nil => simp at hs; simp [← hs]
  | cons b bs ih =>
    obtain ⟨why, hw⟩ := hp [] (b :: bs) rfl (by simp)
    rw [List.append_nil] at hw
    rw [List.length_cons, Nat.add_right_comm, Decoder.fetch]
    simp only [hw, Decoder.readByte, hs, List.map_cons, List.cons_append]
    rw [ih]
    · congr 1
      simp only [Engine.countByte, List.append_assoc, List.cons_append, List.nil_append, Decoder.mk.injEq, Engine.mk.injEq,
        true_and, and_true]
      rw [BitVec.add_assoc, BitVec.add_right_inj, Nat.add_comm, BitVec.ofNat_add]
      rfl
    · rfl
    · intro p q hpq hq
      obtain ⟨w, hw⟩ := hp (b :: p) q (by rw [hpq]; rfl) hq
      exact ⟨w, by simpa using hw⟩

/-! ## The encoder -/

/-- R53: every byte is accepted. -/
theorem Encoder.emitBytes_ok (bs : List Byte) (e : Encoder) (rest : List EmitAnswer)
    (h : e.answers = List.replicate bs.length .ok ++ rest) :
    Encoder.emitBytes bs e = .accepted { e with
      eng := { e.eng with bytes := e.eng.bytes + BitVec.ofNat 64 bs.length }
      answers := rest
      sink := e.sink ++ bs
      epos := e.epos + bs.length } := by
  induction bs generalizing e with
  | nil => simp only [List.length_nil, List.replicate_zero, List.nil_append] at h; subst h; simp [Encoder.emitBytes]
  | cons b bs ih =>
    simp only [List.length_cons, List.replicate_succ, List.cons_append] at h
    simp only [Encoder.emitBytes, Encoder.emitByte, h]
    rw [ih _ rfl]
    simp only [Engine.countByte, List.append_assoc, List.cons_append, List.nil_append, List.length_cons,
      EmitResult.accepted.injEq, Encoder.mk.injEq, true_and, Engine.mk.injEq, and_true]
    refine ⟨?_, by omega⟩
    rw [BitVec.add_assoc, BitVec.add_right_inj, Nat.add_comm, BitVec.ofNat_add]
    rfl

/-- R53: only the first `j` bytes are answered, all accepted. -/
theorem Encoder.emitBytes_wait (bs : List Byte) (e : Encoder) (j : Nat) (hj : j < bs.length)
    (h : e.answers = List.replicate j .ok) :
    Encoder.emitBytes bs e = .waiting { e with
      eng := { e.eng with bytes := e.eng.bytes + BitVec.ofNat 64 j }
      answers := []
      sink := e.sink ++ bs.take j
      epos := e.epos + j } := by
  induction bs generalizing e j with
  | nil => simp at hj
  | cons b bs ih =>
    cases j with
    | zero =>
      simp only [List.replicate_zero] at h
      simp only [Encoder.emitBytes, Encoder.emitByte, h]
      simp [← h]
    | succ j =>
      simp only [List.replicate_succ] at h
      simp only [Encoder.emitBytes, Encoder.emitByte, h]
      rw [ih _ j (by simpa using hj) rfl]
      simp only [Engine.countByte, List.append_assoc, List.cons_append, List.nil_append, List.take_succ_cons,
        EmitResult.waiting.injEq, Encoder.mk.injEq, true_and, Engine.mk.injEq, and_true]
      refine ⟨?_, by omega⟩
      rw [BitVec.add_assoc, BitVec.add_right_inj, Nat.add_comm, BitVec.ofNat_add]
      rfl

/-- R53, R167: the first `j` bytes are accepted and the next one fails. -/
theorem Encoder.emitBytes_fail (bs : List Byte) (e : Encoder) (j : Nat) (hj : j < bs.length) (more : List EmitAnswer)
    (h : e.answers = List.replicate j .ok ++ .fail :: more) :
    Encoder.emitBytes bs e = .failed { e with
      eng := { e.eng with bytes := e.eng.bytes + BitVec.ofNat 64 j, st := .error, err := .ioError }
      answers := more
      sink := e.sink ++ bs.take j
      epos := 0
      erun := 0 } := by
  induction bs generalizing e j with
  | nil => simp at hj
  | cons b bs ih =>
    cases j with
    | zero =>
      simp only [List.replicate_zero, List.nil_append] at h
      simp only [Encoder.emitBytes, Encoder.emitByte, h]
      simp [Encoder.raise, Engine.raise]
    | succ j =>
      simp only [List.replicate_succ, List.cons_append] at h
      simp only [Encoder.emitBytes, Encoder.emitByte, h]
      rw [ih _ j (by simpa using hj) rfl]
      simp only [Engine.countByte, List.append_assoc, List.cons_append, List.nil_append, List.take_succ_cons,
        EmitResult.failed.injEq, Encoder.mk.injEq, true_and, Engine.mk.injEq, and_true]
      rw [BitVec.add_assoc, BitVec.add_right_inj, Nat.add_comm, BitVec.ofNat_add]
      rfl

/-- The byte sink's answers to `n` requests: all accepted, not all answered, or one failed. -/
theorem answers_cases (n : Nat) (as : List EmitAnswer) :
    (∃ rest, as = List.replicate n .ok ++ rest) ∨ (∃ j, j < n ∧ as = List.replicate j .ok) ∨
    (∃ j more, j < n ∧ as = List.replicate j .ok ++ .fail :: more) := by
  induction n generalizing as with
  | zero => exact .inl ⟨as, rfl⟩
  | succ n ih =>
    match as with
    | [] => exact .inr (.inl ⟨0, by omega, rfl⟩)
    | .fail :: more => exact .inr (.inr ⟨0, more, by omega, rfl⟩)
    | .ok :: as =>
      rcases ih as with ⟨rest, h⟩ | ⟨j, hj, h⟩ | ⟨j, more, hj, h⟩
      · exact .inl ⟨rest, by rw [h]; rfl⟩
      · exact .inr (.inl ⟨j + 1, by omega, by rw [h]; rfl⟩)
      · exact .inr (.inr ⟨j + 1, more, by omega, by rw [h]; rfl⟩)

/-- R53: a unit whose remaining bytes are all accepted is finished. -/
theorem Encoder.emit_ok (bytes : List Byte) (fin : Encoder → Encoder) (e : Encoder) (rest : List EmitAnswer)
    (h : e.sinkAccepts bytes rest) :
    e.emit bytes fin = fin { e with
      eng := { e.eng with bytes := e.eng.bytes + BitVec.ofNat 64 (bytes.length - e.epos) }
      answers := rest
      sink := e.sink ++ bytes.drop e.epos
      epos := bytes.length } := by
  obtain ⟨h1, h2⟩ := h
  unfold Encoder.emit
  rw [Encoder.emitBytes_ok (rest := rest) (h := by simpa using h2)]
  simp [Nat.add_sub_cancel' h1]

/-! ## Selection (R151) -/

/-- A lookahead that waits has counted equal pixels up to a position the host has not answered (R152). -/
theorem Encoder.lookahead_wait {e : Encoder} {px : Pixel} {n : Nat} :
    ∀ fuel m, e.lookahead px fuel m = .waitSource n →
      m ≤ n ∧ n < 62 ∧ e.eng.pix.toNat + n < e.eng.npix.toNat ∧ e.srcPixel n = none ∧
        ∀ j, m ≤ j → j < n → e.srcPixel j = some px
  | 0, m, h => nomatch h
  | fuel + 1, m, h => by
    unfold Encoder.lookahead at h
    split at h
    · next hc =>
      split at h
      · next hs => cases h; exact ⟨Nat.le_refl _, hc.1, hc.2, hs, fun j h1 h2 => absurd h2 (by omega)⟩
      · next q hs =>
        split at h
        · next hq =>
          obtain ⟨h1, h2, h3, h4, h5⟩ := Encoder.lookahead_wait fuel (m + 1) h
          refine ⟨by omega, h2, h3, h4, fun j hj1 hj2 => ?_⟩
          by_cases hjm : j = m
          · rw [hjm, hs, hq]
          · exact h5 j (by omega) hj2
        · cases h
    · cases h

/-- A lookahead that ends gives a run of equal pixels, at most 62 and inside the image (R152). -/
theorem Encoder.lookahead_run {e : Encoder} {px : Pixel} {i : Instr} :
    ∀ fuel m, m ≤ 62 → e.eng.pix.toNat + m ≤ e.eng.npix.toNat → e.lookahead px fuel m = .unit i →
      ∃ n, i = .run n ∧ m ≤ n ∧ n ≤ 62 ∧ e.eng.pix.toNat + n ≤ e.eng.npix.toNat ∧
        ∀ j, m ≤ j → j < n → e.srcPixel j = some px
  | 0, m, hm, hp, h => by
    cases h; exact ⟨m, rfl, Nat.le_refl _, hm, hp, fun j h1 h2 => absurd h2 (by omega)⟩
  | fuel + 1, m, hm, hp, h => by
    have here : ∃ n, Instr.run m = .run n ∧ m ≤ n ∧ n ≤ 62 ∧ e.eng.pix.toNat + n ≤ e.eng.npix.toNat ∧
        ∀ j, m ≤ j → j < n → e.srcPixel j = some px :=
      ⟨m, rfl, Nat.le_refl _, hm, hp, fun j h1 h2 => absurd h2 (by omega)⟩
    unfold Encoder.lookahead at h
    split at h
    · next hc =>
      split at h
      · cases h
      · next q hs =>
        split at h
        · next hq =>
          have hc1 : m < 62 := hc.1
          obtain ⟨n, h1, h2, h3, h4, h5⟩ := Encoder.lookahead_run fuel (m + 1) (by omega) (by omega) h
          refine ⟨n, h1, by omega, h3, h4, fun j hj1 hj2 => ?_⟩
          by_cases hjm : j = m
          · rw [hjm, hs, hq]
          · exact h5 j (by omega) hj2
        · cases h; exact here
    · cases h; exact here

/-- The lookahead finds a run that ends where R152 says runs end. -/
theorem Encoder.lookahead_eq {e : Encoder} {px : Pixel} {n : Nat} (hs : ∀ j < n, e.srcPixel j = some px) (hn : n ≤ 62)
    (hp : e.eng.pix.toNat + n ≤ e.eng.npix.toNat)
    (hend : n = 62 ∨ e.eng.pix.toNat + n = e.eng.npix.toNat ∨ ∃ q, e.srcPixel n = some q ∧ q ≠ px) :
    ∀ fuel m, m ≤ n → n ≤ m + fuel → e.lookahead px fuel m = .unit (.run n)
  | 0, m, h1, h2 => by rw [show n = m by omega]; rfl
  | fuel + 1, m, h1, h2 => by
    unfold Encoder.lookahead
    by_cases hm : m = n
    · subst hm
      split
      · next hc =>
        have hc1 : m < 62 := hc.1
        rcases hend with h | h | ⟨q, h, hq⟩
        · omega
        · omega
        · rw [h]; simp [hq]
      · rfl
    · rw [if_pos ⟨show m < 62 by omega, by omega⟩, hs m (by omega)]
      simp only [if_true]
      exact Encoder.lookahead_eq hs hn hp hend fuel (m + 1) (by omega) (by omega)

/-- What a selection for the pixel `px` can be, with the check that made it (R151). -/
theorem Encoder.selectFor_cases {e : Encoder} {px : Pixel} {i : Instr} (h : e.selectFor px = .unit i) :
    (px = e.eng.prev ∧ e.lookahead px Config.runMax (max 1 e.erun) = .unit i) ∨
    (e.missesCopies px ∧ diffOk px e.eng.prev = true ∧ i = diffChunk px e.eng.prev) ∨
    (e.missesCopies px ∧ lumaOk px e.eng.prev = true ∧ i = lumaChunk px e.eng.prev) ∨
    (px ≠ e.eng.prev ∧ e.eng.cacheRead (pixelHash px) = px ∧ i = .index (pixelHash px)) ∨
    (e.missesCopies px ∧ px.a = e.eng.prev.a ∧ i = .rgb px.r px.g px.b) ∨
    (e.missesCopies px ∧ px.a ≠ e.eng.prev.a ∧ i = .rgba px.r px.g px.b px.a) := by
  unfold Encoder.selectFor at h
  split at h
  · next hr => exact .inl ⟨hr, h⟩
  · next hr =>
    split at h
    · next hi => cases h; exact .inr (.inr (.inr (.inl ⟨hr, hi, rfl⟩)))
    · next hi =>
      split at h
      · next hd => cases h; exact .inr (.inl ⟨⟨hr, hi⟩, hd, rfl⟩)
      · split at h
        · next hl => cases h; exact .inr (.inr (.inl ⟨⟨hr, hi⟩, hl, rfl⟩))
        · split at h
          · next ha => cases h; exact .inr (.inr (.inr (.inr (.inl ⟨⟨hr, hi⟩, by simpa [alphaSame] using ha, rfl⟩))))
          · next ha => cases h; exact .inr (.inr (.inr (.inr (.inr ⟨⟨hr, hi⟩, by simpa [alphaSame] using ha, rfl⟩))))

/-- With a pixel at `ECUR`, the selection is R151's chain. -/
theorem Encoder.select_eq {e : Encoder} {px : Pixel} (hn : e.eng.pix.toNat < e.eng.npix.toNat)
    (hp : e.srcPixel 0 = some px) : e.select = e.selectFor px := by
  unfold Encoder.select
  rw [if_pos hn, hp]

/-- With no pixel left, END is selected (R150). -/
theorem Encoder.select_end {e : Encoder} (hn : e.eng.npix.toNat ≤ e.eng.pix.toNat) : e.select = .unit .endMarker := by
  unfold Encoder.select
  rw [if_neg (by omega)]

/-- A chunk is selected only for an answered pixel inside the image. -/
theorem Encoder.pixel_of_select {e : Encoder} {i : Instr} (hs : e.select = .unit i) (hi : i ≠ .endMarker) :
    e.eng.pix.toNat < e.eng.npix.toNat ∧ ∃ px, e.srcPixel 0 = some px ∧ e.selectFor px = .unit i := by
  unfold Encoder.select at hs
  split at hs
  · next hn =>
    split at hs
    · cases hs
    · next px hp => exact ⟨hn, px, hp, hs⟩
  · cases hs; exact absurd rfl hi

/-- The lookahead depends on the cursor, NPIX and the source alone. -/
theorem Encoder.lookahead_congr {e e' : Encoder} (hp : e'.eng.pix = e.eng.pix) (hn : e'.eng.npix = e.eng.npix)
    (hs : e'.source = e.source) (px : Pixel) :
    ∀ fuel m, e'.lookahead px fuel m = e.lookahead px fuel m
  | 0, _ => rfl
  | fuel + 1, m => by
    unfold Encoder.lookahead
    simp only [Encoder.srcPixel, hp, hn, hs, Encoder.lookahead_congr hp hn hs px fuel (m + 1)]

/-- The selection depends on `prev`, the cache, the cursor, NPIX, ERUN and the source alone. -/
theorem Encoder.select_congr {e e' : Encoder} (hv : e'.eng.prev = e.eng.prev) (hc : e'.eng.cache = e.eng.cache)
    (hp : e'.eng.pix = e.eng.pix) (hn : e'.eng.npix = e.eng.npix) (hr : e'.erun = e.erun) (hs : e'.source = e.source) :
    e'.select = e.select := by
  have hl := Encoder.lookahead_congr hp hn hs
  unfold Encoder.select Encoder.selectFor
  simp only [Encoder.srcPixel, Engine.cacheRead, hv, hc, hp, hn, hr, hs, hl]
  rfl

/-! ## Whose turn it is -/

theorem State.onTurn_dec {s : State} {k : Nat} {d : Decoder} (ht : s.turn = .dec k) (hd : s.decs[k]? = some d)
    (onDec : Decoder → Except Refusal Decoder) (onEnc : Encoder → Except Refusal Encoder) :
    s.onTurn onDec onEnc = s.answerDec k (onDec d) := by
  unfold State.onTurn
  rw [ht]
  simp only [hd]

theorem State.onTurn_enc {s : State} {k : Nat} {e : Encoder} (ht : s.turn = .enc k) (he : s.encs[k]? = some e)
    (onDec : Decoder → Except Refusal Decoder) (onEnc : Encoder → Except Refusal Encoder) :
    s.onTurn onDec onEnc = s.answerEnc k (onEnc e) := by
  unfold State.onTurn
  rw [ht]
  simp only [he]

end Sys2Proof.Machine
end

