-- ==== Sys2Proof/Laws/Turn.lean ====
section
/-! SUPPORT. What a turn makes of an instance, as one function of the instance, and everything that a step can do. -/

namespace Sys2Proof.Machine

/-! ## A chunk, seen by a decoder -/

/-- R77, R84: a chunk that can be spelled stands for 1 to 62 pixels. -/
theorem chunkRun_range {i : Instr} (h : i.wf = true) : 1 ≤ chunkRun i ∧ chunkRun i ≤ 62 := by
  cases i <;> simp [chunkRun] at h ⊢
  exact h

/-- R70: a chunk has at most 5 bytes. -/
theorem byteLength_le {i : Instr} (h : i ≠ .endMarker) : i.byteLength ≤ 5 := by
  cases i <;> simp [Instr.byteLength] at h ⊢

/-- A decoder after it has run a chunk (R122). -/
def Decoder.runChunk (policy : RunOvershoot) (i : Instr) (d : Decoder) : Decoder :=
  d.whileBusy fun d => d.commit policy (chunkPixel i d.eng) (chunkRun i) (chunkOp i) i.byteLength

/-- Every chunk's meaning on a decoder is `runChunk`. -/
theorem exec_dec {s : State} {k : Nat} {d : Decoder} {i : Instr} (ht : s.turn = .dec k) (hd : s.decs[k]? = some d)
    (hi : i ≠ .endMarker) : exec i s = .next (s.setDec k (d.runChunk s.overshoot i)) := by
  cases i with
  | endMarker => exact absurd rfl hi
  | rgb | rgba | index | diff | luma | run => exact State.onTurn_dec ht hd _ _

/-- In a session, every chunk's meaning on a decoder is one commit (R129). -/
theorem exec_commit {s : State} {k : Nat} {d : Decoder} {i : Instr} (h : s.decodesOn k d) (hi : i ≠ .endMarker) :
    exec i s = .next { s with
      decs := s.decs.set k (d.commit s.overshoot (chunkPixel i d.eng) (chunkRun i) (chunkOp i) i.byteLength) } := by
  obtain ⟨ht, hd, hb, hn⟩ := h
  rw [exec_dec ht hd hi, Decoder.runChunk, Decoder.whileBusy_of_busy _ hb hn]
  rfl

/-- A decoder after its turn (R120, R122). -/
def Decoder.turn (policy : RunOvershoot) (d : Decoder) : Decoder :=
  if d.eng.st ≠ .busy then d
  else if d.needsPixels then
    match d.fetch fetchFuel with
    | .chunk i d' => d'.runChunk policy i
    | .waiting d' => d'
    | .truncated d' => d'
  else d.stopTest

/-! ## The fetch -/

/-- Everything that a fetch can do, with at most one chunk in the chunk buffer: only the byte count, the chunk buffer and the
source change, except that a missing byte also ends the session with TRUNCATION. The chunk buffer holds exactly one chunk, or
part of one, or nothing (R122, R134). -/
theorem Decoder.fetch_cases : ∀ (fuel : Nat) (d : Decoder), 1 ≤ fuel → 6 ≤ d.chunkBuf.length + fuel →
    (∀ i rest, decodeChunk d.chunkBuf = .unit i rest → rest = []) →
    match d.fetch fuel with
    | .chunk i d' =>
      (∃ b buf src, d' = { d with eng := { d.eng with bytes := b }, chunkBuf := buf, source := src }) ∧
        decodeChunk d'.chunkBuf = .unit i []
    | .waiting d' =>
      (∃ b buf src, d' = { d with eng := { d.eng with bytes := b }, chunkBuf := buf, source := src }) ∧
        ∃ why, decodeChunk d'.chunkBuf = .rejected why
    | .truncated d' =>
      ∃ b src, d' = { d with
        eng := { d.eng with bytes := b, st := .error, err := .truncation }
        chunkBuf := []
        expanded := none
        source := src }
  | 0, _, h, _, _ => absurd h (by omega)
  | fuel + 1, d, _, h, hbuf => by
    unfold Decoder.fetch
    cases hd : decodeChunk d.chunkBuf with
    | unit i rest => exact ⟨⟨_, _, _, rfl⟩, by rw [hd, hbuf i rest hd]⟩
    | rejected why =>
      have hl := length_of_rejected hd
      simp only
      unfold Decoder.readByte
      rcases hsrc : d.source with _ | ⟨a, rest⟩
      · exact ⟨⟨_, _, _, rfl⟩, _, hd⟩
      · cases a with
        | byte b =>
          have ih := Decoder.fetch_cases fuel { d with eng := d.eng.countByte, chunkBuf := d.chunkBuf ++ [b], source := rest }
            (by omega) (by simp; omega) (fun i rest hi => rest_of_completed hi hd)
          simp only
          revert ih
          cases Decoder.fetch fuel { d with eng := d.eng.countByte, chunkBuf := d.chunkBuf ++ [b], source := rest } with
          | chunk i d' => exact fun ⟨⟨b, buf, src, h⟩, h2⟩ => ⟨⟨b, buf, src, h⟩, h2⟩
          | waiting d' => exact fun ⟨⟨b, buf, src, h⟩, h2⟩ => ⟨⟨b, buf, src, h⟩, h2⟩
          | truncated d' => exact fun ⟨b, src, h⟩ => ⟨b, src, h⟩
        | exhausted => exact ⟨_, _, rfl⟩
        | fail => exact ⟨_, _, rfl⟩

/-- A whole chunk in the chunk buffer is fetched as it is: a chunk step that waits for the pixel sink reads no byte. -/
theorem Decoder.fetch_whole {d : Decoder} {i : Instr} {rest : List Byte} (h : decodeChunk d.chunkBuf = .unit i rest)
    (fuel : Nat) : d.fetch (fuel + 1) = .chunk i d := by
  unfold Decoder.fetch
  rw [h]

/-! ## A unit, emitted by an encoder -/

/-- What an encoder does once every byte of the unit is accepted: R164 with the source pixel, or R166. -/
def Encoder.finishUnit (i : Instr) (px : Pixel) : Encoder → Encoder :=
  match i with
  | .endMarker => Encoder.finish
  | _ => Encoder.commit px (chunkRun i) (chunkOp i) (encode i).length

/-- An encoder after its turn (R150, R151). -/
def Encoder.turn (e : Encoder) : Encoder :=
  if e.eng.st ≠ .busy then e
  else
    match e.select with
    | .waitSource n => { e with erun := n }
    | .unit i => e.emit (encode i) (Encoder.finishUnit i ((e.srcPixel 0).getD Config.cacheReset))

/-- Every unit's meaning on the encoder that selects it. -/
theorem exec_enc {s : State} {k : Nat} {e : Encoder} {i : Instr} (ht : s.turn = .enc k) (he : s.encs[k]? = some e)
    (hb : e.eng.st = .busy) (hs : e.select = .unit i) : exec i s = .next (s.setEnc k e.turn) := by
  have hturn : e.turn = e.emit (encode i) (Encoder.finishUnit i ((e.srcPixel 0).getD Config.cacheReset)) := by
    rw [Encoder.turn, if_neg (by simp [hb]), hs]
  by_cases hi : i = .endMarker
  · subst hi
    rw [hturn, exec, execEndMarker, State.onTurn_enc ht he, Encoder.emitEnd, if_neg (by simp [hb]), if_pos hs]
    rfl
  · obtain ⟨-, px, hp, -⟩ := Encoder.pixel_of_select hs hi
    have key : ∀ onDec, s.onTurn onDec (Encoder.emitChunk i (chunkRun i) (chunkOp i)) =
        .next (s.setEnc k (e.emit (encode i) (Encoder.commit px (chunkRun i) (chunkOp i) (encode i).length))) := by
      intro onDec
      rw [State.onTurn_enc ht he, Encoder.emitChunk, if_neg (by simp [hb]), hp]
      simp only [hs, if_true]
      rfl
    rw [hturn, hp]
    cases i with
    | endMarker => exact absurd rfl hi
    | rgb | rgba | index | diff | luma | run => exact key _

/-! ## A step -/

/-- The decoder never reads END (R85, R132). -/
theorem ne_endMarker_of_decodeChunk {bs rest : List Byte} {i : Instr} (h : decodeChunk bs = .unit i rest) :
    i ≠ .endMarker := by
  rintro rfl
  unfold decodeChunk at h
  split at h
  · cases h
  · split at h <;> cases h

/-- A fetched chunk is no END. -/
theorem Decoder.ne_endMarker_of_fetch {i : Instr} {d' : Decoder} :
    ∀ (fuel : Nat) (d : Decoder), d.fetch fuel = .chunk i d' → i ≠ .endMarker
  | 0, d, h => nomatch h
  | fuel + 1, d, h => by
    unfold Decoder.fetch at h
    split at h
    · next hd => cases h; exact ne_endMarker_of_decodeChunk hd
    · split at h
      · exact Decoder.ne_endMarker_of_fetch fuel _ h
      · cases h
      · cases h

/-- Writing back what is there changes nothing. -/
theorem set_of_getElem? {α : Type} {l : List α} {k : Nat} {a : α} (h : l[k]? = some a) : l.set k a = l := by
  obtain ⟨hk, rfl⟩ := List.getElem?_eq_some_iff.1 h
  exact List.set_getElem_self hk

theorem State.setDec_of_getElem? {s : State} {k : Nat} {d : Decoder} (h : s.decs[k]? = some d) : s.setDec k d = s := by
  unfold State.setDec
  rw [set_of_getElem? h]

theorem State.setEnc_of_getElem? {s : State} {k : Nat} {e : Encoder} (h : s.encs[k]? = some e) : s.setEnc k e = s := by
  unfold State.setEnc
  rw [set_of_getElem? h]

/-- A decoder's turn is `Decoder.turn` of that instance and nothing else. -/
theorem planTurn_dec {s : State} {k : Nat} {d : Decoder} (hd : s.decs[k]? = some d) :
    (s.planTurn (.dec k)).outcome = .next (State.setDec k (d.turn s.overshoot) { s with turn := .dec k }) := by
  have hk : k < s.decs.length := (List.getElem?_eq_some_iff.1 hd).1
  simp only [State.planTurn, State.planDec, hd, Decoder.turn]
  split
  · exact congrArg _ (State.setDec_of_getElem? (s := { s with turn := .dec k }) hd).symm
  · split
    · cases hf : d.fetch fetchFuel with
      | chunk i d' =>
        show exec i (State.setDec k d' { s with turn := .dec k }) = _
        rw [exec_dec (k := k) (d := d') rfl (by simp [hk]) (Decoder.ne_endMarker_of_fetch _ _ hf)]
        simp [State.setDec, List.set_set]
      | waiting d' => rfl
      | truncated d' => rfl
    · rfl

/-- An encoder's turn is `Encoder.turn` of that instance and nothing else. -/
theorem planTurn_enc {s : State} {k : Nat} {e : Encoder} (he : s.encs[k]? = some e) :
    (s.planTurn (.enc k)).outcome = .next (State.setEnc k e.turn { s with turn := .enc k }) := by
  simp only [State.planTurn, State.planEnc, he]
  by_cases hb : e.eng.st = .busy
  · rw [if_neg (by simp [hb])]
    cases hs : e.select with
    | waitSource n =>
      show Host.Outcome.next _ = _
      rw [Encoder.turn, if_neg (by simp [hb]), hs]
    | unit i => exact exec_enc (s := { s with turn := .enc k }) rfl he hb hs
  · rw [if_pos hb, Encoder.turn, if_pos hb]
    exact congrArg _ (State.setEnc_of_getElem? (s := { s with turn := .enc k }) he).symm

/-- A turn of an instance that the block does not have. -/
theorem planTurn_dec_none {s : State} {k : Nat} (hd : s.decs[k]? = none) :
    (s.planTurn (.dec k)).outcome = .fault .noSuchInstance := by
  simp only [State.planTurn, State.planDec, hd]
  rfl

@[inherit_doc planTurn_dec_none]
theorem planTurn_enc_none {s : State} {k : Nat} (he : s.encs[k]? = none) :
    (s.planTurn (.enc k)).outcome = .fault .noSuchInstance := by
  simp only [State.planTurn, State.planEnc, he]
  rfl

/-- What a step does with a turn on the agenda. -/
theorem step_turn {s : State} {a : Agent} {agenda : List Action} (ha : s.agenda = .turn a :: agenda) :
    step s = (State.planTurn a { s with agenda := agenda }).outcome := by
  unfold step State.plan
  rw [ha]

/-- What a step does with a host action on the agenda. -/
theorem step_hostAction {s : State} {act : Action} {agenda : List Action} (ha : s.agenda = act :: agenda)
    (hact : ∀ a, act ≠ .turn a) : step s = State.hostAction act { s with agenda := agenda } := by
  unfold step State.plan
  rw [ha]
  cases act with
  | turn a => exact absurd rfl (hact a)
  | regWrite | regRead | byteSource | pixelSink | pixelAnswers | pixelSource | sinkAnswers | byteSink | powerOn => rfl

/-- What a turn that answers a next state has done. -/
theorem planTurn_next {s s' : State} {a : Agent} (h : (s.planTurn a).outcome = .next s') :
    (∃ k d, a = .dec k ∧ s.decs[k]? = some d ∧ s' = State.setDec k (d.turn s.overshoot) { s with turn := a }) ∨
    (∃ k e, a = .enc k ∧ s.encs[k]? = some e ∧ s' = State.setEnc k e.turn { s with turn := a }) := by
  cases a with
  | dec k =>
    cases hd : s.decs[k]? with
    | none => rw [planTurn_dec_none hd] at h; cases h
    | some d =>
      rw [planTurn_dec hd] at h
      cases h
      exact .inl ⟨k, d, rfl, hd, rfl⟩
  | enc k =>
    cases he : s.encs[k]? with
    | none => rw [planTurn_enc_none he] at h; cases h
    | some e =>
      rw [planTurn_enc he] at h
      cases h
      exact .inr ⟨k, e, rfl, he, rfl⟩

/-- Everything that a step which answers a next state can have done: nothing, a turn of a decoder, a turn of an encoder, or a
host action. -/
theorem step_cases {s s' : State} (h : step s = .next s') :
    (s.agenda = [] ∧ s' = s) ∨
    (∃ a k d, (s.agenda = [] ∨ s.agenda.head? = some (.turn a)) ∧ a = .dec k ∧ s.decs[k]? = some d ∧
      s' = State.setDec k (d.turn s.overshoot) { s with agenda := s.agenda.tail, turn := a }) ∨
    (∃ a k e, (s.agenda = [] ∨ s.agenda.head? = some (.turn a)) ∧ a = .enc k ∧ s.encs[k]? = some e ∧
      s' = State.setEnc k e.turn { s with agenda := s.agenda.tail, turn := a }) ∨
    (∃ act agenda, s.agenda = act :: agenda ∧ (∀ a, act ≠ .turn a) ∧
      State.hostAction act { s with agenda := agenda } = .next s') := by
  cases ha : s.agenda with
  | nil =>
    have hs : s = { s with agenda := [] } := by rw [← ha]
    unfold step State.plan at h
    simp only [ha] at h
    cases hp : s.pick with
    | none => rw [hp] at h; cases h; exact .inl ⟨rfl, rfl⟩
    | some a =>
      rw [hp] at h
      rcases planTurn_next h with ⟨k, d, rfl, hd, rfl⟩ | ⟨k, e, rfl, he, rfl⟩
      · exact .inr (.inl ⟨_, k, d, .inl rfl, rfl, hd, by rw [List.tail_nil]; exact congrArg _ (by rw [← ha])⟩)
      · exact .inr (.inr (.inl ⟨_, k, e, .inl rfl, rfl, he, by rw [List.tail_nil]; exact congrArg _ (by rw [← ha])⟩))
  | cons act agenda =>
    by_cases hact : ∃ a, act = .turn a
    · obtain ⟨a, rfl⟩ := hact
      rw [step_turn ha] at h
      rcases planTurn_next h with ⟨k, d, rfl, hd, rfl⟩ | ⟨k, e, rfl, he, rfl⟩
      · exact .inr (.inl ⟨_, k, d, .inr rfl, rfl, hd, rfl⟩)
      · exact .inr (.inr (.inl ⟨_, k, e, .inr rfl, rfl, he, rfl⟩))
    · have hact' : ∀ a, act ≠ .turn a := fun a ha' => hact ⟨a, ha'⟩
      rw [step_hostAction ha hact'] at h
      exact .inr (.inr (.inr ⟨act, agenda, rfl, hact', h⟩))

end Sys2Proof.Machine
end

