-- ==== Sys2Proof/Laws/HostPort.lean ====
section
/-! SUPPORT. What the host's actions do, one lemma each, and runs of several steps. -/

namespace Sys2Proof.Machine

/-! ## Register accesses (R30 to R36) -/

/-- R31: when a register write starts a session. -/
theorem Engine.isStart_iff {offset : Nat} {v : Word32} {e : Engine} :
    e.isStart offset v = true ↔ offset = 0 ∧ v.getLsbD 0 = true ∧ e.st ≠ .busy := by
  simp [Engine.isStart, and_assoc]

/-- R30: offsets of whole words, and offsets above the block, are accesses the block answers. -/
theorem partialAccess_of_whole {offset : Nat} (h : offset % 4 = 0 ∨ 0x20 ≤ offset) : partialAccess offset = false := by
  simp [partialAccess]
  omega

/-- R33: everything that a register write which is no START does to the registers. -/
theorem Engine.writeExtent_eq (offset : Nat) (v : Word32) (e : Engine) :
    e.writeExtent offset v = if e.st = .busy then e else { e with
      width := if offset = 0x08 then v else e.width
      height := if offset = 0x0C then v else e.height } := by
  unfold Engine.writeExtent
  split
  · rfl
  · split
    · rfl
    · rfl
    · next h1 h2 => rw [if_neg h1, if_neg h2]

/-- A host register write to a decoder, as a step. -/
theorem step_regWrite_dec {s : State} {k offset : Nat} {d : Decoder} {v : Word32} {agenda : List Action}
    (ha : s.agenda = .regWrite (.dec k) offset v :: agenda) (hd : s.decs[k]? = some d) (ho : partialAccess offset = false) :
    step s = .next { s with agenda := agenda, decs := s.decs.set k (d.writeReg offset v) } := by
  rw [step_hostAction ha fun _ => by simp]
  simp only [State.hostAction, State.regWrite, ho, hd]
  rfl

/-- A host register write to an encoder, as a step. -/
theorem step_regWrite_enc {s : State} {k offset : Nat} {e : Encoder} {v : Word32} {agenda : List Action}
    (ha : s.agenda = .regWrite (.enc k) offset v :: agenda) (he : s.encs[k]? = some e) (ho : partialAccess offset = false) :
    step s = .next { s with agenda := agenda, encs := s.encs.set k (e.writeReg offset v) } := by
  rw [step_hostAction ha fun _ => by simp]
  simp only [State.hostAction, State.regWrite, ho, he]
  rfl

/-- A host register read, as a step. -/
theorem step_regRead {s : State} {a : Agent} {offset : Nat} {e : Engine} {agenda : List Action}
    (ha : s.agenda = .regRead a offset :: agenda) (he : s.engineOf a = some e) (ho : partialAccess offset = false) :
    step s = .next { s with agenda := agenda, busData := e.readReg offset } := by
  rw [step_hostAction ha fun _ => by simp]
  cases a with
  | dec k =>
    obtain ⟨d, hd, rfl⟩ : ∃ d, s.decs[k]? = some d ∧ d.eng = e := by simpa [State.engineOf] using he
    simp only [State.hostAction, State.regRead, ho, hd]
    rfl
  | enc k =>
    obtain ⟨n, hn, rfl⟩ : ∃ n, s.encs[k]? = some n ∧ n.eng = e := by simpa [State.engineOf] using he
    simp only [State.hostAction, State.regRead, ho, hn]
    rfl

/-! ## Collaborators (R191) -/

/-- What an action on a decoder's collaborator that answers a next state has done. -/
theorem State.hostDec_next {s s' : State} {k : Nat} {f : Decoder → Except Refusal Decoder} (h : s.hostDec k f = .next s') :
    ∃ d d', s.decs[k]? = some d ∧ f d = .ok d' ∧ s' = s.setDec k d' := by
  unfold State.hostDec at h
  split at h
  · cases h
  · next d hd =>
    unfold State.answerDec at h
    split at h
    · next d' hd' => cases h; exact ⟨d, d', hd, hd', rfl⟩
    · cases h

/-- What an action on an encoder's collaborator that answers a next state has done. -/
theorem State.hostEnc_next {s s' : State} {k : Nat} {f : Encoder → Except Refusal Encoder} (h : s.hostEnc k f = .next s') :
    ∃ e e', s.encs[k]? = some e ∧ f e = .ok e' ∧ s' = s.setEnc k e' := by
  unfold State.hostEnc at h
  split at h
  · cases h
  · next e he =>
    unfold State.answerEnc at h
    split at h
    · next e' he' => cases h; exact ⟨e, e', he, he', rfl⟩
    · cases h

/-- R67: what providing the pixel source does when it is not refused. -/
theorem Encoder.provideSource_ok {e e' : Encoder} {cells : List (Nat × Pixel)} (h : e.provideSource cells = .ok e') :
    e' = { e with source := Memory.ofCells cells } ∧
      (e.eng.st = .busy → Memory.extendedBy e.source (Memory.ofCells cells) = true) := by
  simp only [Encoder.provideSource] at h
  split at h
  · cases h
  · next hc =>
    cases h
    refine ⟨rfl, fun hb => ?_⟩
    by_contra hx
    exact hc ⟨hb, by simpa using hx⟩

/-! ## Whose registers -/

/-- After a decoder is replaced, an instance's registers are the new ones of that decoder or as before. -/
theorem State.engineOf_setDec {s : State} {a : Agent} {k : Nat} {d : Decoder} {e e' : Engine} (h : s.engineOf a = some e)
    (h' : (s.setDec k d).engineOf a = some e') : (a = .dec k ∧ e' = d.eng) ∨ e' = e := by
  cases a with
  | enc j => exact .inr (Option.some.inj (h'.symm.trans h))
  | dec j =>
    by_cases hj : k = j
    · subst hj
      have hl : k < s.decs.length := by
        by_contra hc
        simp [State.engineOf, List.getElem?_eq_none (Nat.le_of_not_lt hc)] at h
      exact .inl ⟨rfl, by simpa [State.engineOf, State.setDec, hl] using h'.symm⟩
    · simp only [State.engineOf, State.setDec, List.getElem?_set_ne hj] at h h'
      exact .inr (Option.some.inj (h'.symm.trans h))

/-- After an encoder is replaced, an instance's registers are the new ones of that encoder or as before. -/
theorem State.engineOf_setEnc {s : State} {a : Agent} {k : Nat} {n : Encoder} {e e' : Engine} (h : s.engineOf a = some e)
    (h' : (s.setEnc k n).engineOf a = some e') : (a = .enc k ∧ e' = n.eng) ∨ e' = e := by
  cases a with
  | dec j => exact .inr (Option.some.inj (h'.symm.trans h))
  | enc j =>
    by_cases hj : k = j
    · subst hj
      have hl : k < s.encs.length := by
        by_contra hc
        simp [State.engineOf, List.getElem?_eq_none (Nat.le_of_not_lt hc)] at h
      exact .inl ⟨rfl, by simpa [State.engineOf, State.setEnc, hl] using h'.symm⟩
    · simp only [State.engineOf, State.setEnc, List.getElem?_set_ne hj] at h h'
      exact .inr (Option.some.inj (h'.symm.trans h))

/-! ## Runs -/

/-- A run of one step more. -/
theorem run_succ {s t : State} (k : Nat) (h : step s = .next t) :
    Host.Core.run core (k + 1) s = Host.Core.run core k t := by
  have h' : core.step s = .next t := h
  simp only [Host.Core.run, h']

/-- What a run that answers a next state began with. -/
theorem run_succ_next {s u : State} {k : Nat} (h : Host.Core.run core (k + 1) s = .next u) :
    ∃ t : State, step s = .next t ∧ Host.Core.run core k t = .next u := by
  simp only [Host.Core.run] at h
  split at h
  · next t ht => exact ⟨t, ht, h⟩
  · cases h
  · cases h

/-- Runs one after the other. -/
theorem run_add {s t : State} {j k : Nat} (h : Host.Core.run core j s = .next t) :
    Host.Core.run core (j + k) s = Host.Core.run core k t := by
  induction j generalizing s with
  | zero => cases h; rw [Nat.zero_add]
  | succ j ih =>
    obtain ⟨u, h1, h2⟩ := run_succ_next h
    rw [Nat.add_right_comm, run_succ _ h1]
    exact ih h2

end Sys2Proof.Machine
end

