-- ==== Sys2Proof/Laws/PerInstr.lean ====
section
/-! SUPPORT. Statements made instruction by instruction. -/

namespace Sys2Proof.Laws.EncodeLength

/-- R70, R83: an instruction's encoding has the length that the tables give it. -/
def Statement (i : Instr) : Prop := (encode i).length = i.byteLength

theorem rgb (r g b : Byte) : Statement (.rgb r g b) := rfl

theorem rgba (r g b a : Byte) : Statement (.rgba r g b a) := rfl

theorem index (i : BitVec 6) : Statement (.index i) := rfl

theorem diff (dr dg db : Int) : Statement (.diff dr dg db) := rfl

theorem luma (dg drg dbg : Int) : Statement (.luma dg drg dbg) := rfl

theorem run (n : Nat) : Statement (.run n) := rfl

theorem endMarker : Statement .endMarker := rfl

end Sys2Proof.Laws.EncodeLength
end

