-- ==== Sys2Proof/Tests/Slice0.lean ====
section
/-! SUPPORT. Tests of one step each, with values from spec/95_test_vectors.md and from the rules' own examples, and for every
obligation that has hypotheses a witness that meets them. -/

namespace Sys2Proof.Tests

open Sys2Proof Sys2Proof.Machine

/-! ## Small states -/

/-- The outcome is a next state with this property. -/
def nextAnd (o : Host.Outcome State Fault Refusal) (p : State → Bool) : Bool :=
  match o with
  | .next s => p s
  | _ => false

/-- A decoder right after START on an image of `w` × 1 pixels, with these answers coming from its byte source and a pixel sink
that answers for every pixel. -/
def decoder (w : Word32) (source : List ReadAnswer) : Decoder :=
  Decoder.start { Decoder.powerOn with
    eng := { Engine.powerOn with width := w, height := 1 }, source := source, pixelAnswers := w.toNat }

/-- An encoder right after START on an image of `w` × 1 pixels, with these pixels and these answers of its byte sink. -/
def encoder (w : Word32) (pixels : List (Nat × Pixel)) (answers : List EmitAnswer) : Encoder :=
  Encoder.start { Encoder.powerOn with
    eng := { Engine.powerOn with width := w, height := 1 }, source := pixels, answers := answers }

/-- The block with this decoder, whose turn it is. -/
def decTurn (d : Decoder) : State := { State.reset with decs := [d], turn := .dec 0, agenda := [.turn (.dec 0)] }

/-- The block with this encoder, whose turn it is. -/
def encTurn (e : Encoder) : State := { State.reset with encs := [e], turn := .enc 0, agenda := [.turn (.enc 0)] }

/-- `n` pixels of one value from position 0 on. -/
def flat (n : Nat) (px : Pixel) : List (Nat × Pixel) := (List.range n).map fun p => (p, px)

/-- The first decoder of a state. -/
def dec0 (s : State) : Decoder := s.decs.headD Decoder.powerOn

/-- The first encoder of a state. -/
def enc0 (s : State) : Encoder := s.encs.headD Encoder.powerOn

/-! ## WellFormed: an ill-formed term for each check (R84) -/

theorem test_wf_diff_dr : (Instr.diff (-3) 0 0).wf = false ∧ (Instr.diff 2 0 0).wf = false := by decide

theorem test_wf_diff_dg : (Instr.diff 0 (-3) 0).wf = false ∧ (Instr.diff 0 2 0).wf = false := by decide

theorem test_wf_diff_db : (Instr.diff 0 0 (-3)).wf = false ∧ (Instr.diff 0 0 2).wf = false := by decide

theorem test_wf_luma_dg : (Instr.luma (-33) 0 0).wf = false ∧ (Instr.luma 32 0 0).wf = false := by decide

theorem test_wf_luma_drg : (Instr.luma 0 (-9) 0).wf = false ∧ (Instr.luma 0 8 0).wf = false := by decide

theorem test_wf_luma_dbg : (Instr.luma 0 0 (-9)).wf = false ∧ (Instr.luma 0 0 8).wf = false := by decide

theorem test_wf_run : (Instr.run 0).wf = false ∧ (Instr.run 63).wf = false := by decide

/-! ## Decoding: words written out from the encodings of R72 to R77, R83 -/

theorem test_decode_rgb : decodeChunk [0b11111110, 9, 8, 7, 0x21] = .unit (.rgb 9 8 7) [0x21] := by decide

theorem test_decode_rgba : decodeChunk [0b11111111, 1, 2, 3, 4] = .unit (.rgba 1 2 3 4) [] := by decide

theorem test_decode_index : decodeChunk [0b00100001] = .unit (.index 33) [] := by decide

/-- R75 with the source's vector 0x76, and the least tag 0x40 (L2-D-5). -/
theorem test_decode_diff :
    decodeChunk [0b01110110] = .unit (.diff 1 (-1) 0) [] ∧ decodeChunk [0b01000000] = .unit (.diff (-2) (-2) (-2)) [] := by
  decide

/-- R127: B0 10 of L3-P1, and A0 7D of L2-E-19. -/
theorem test_decode_luma :
    decodeChunk [0b10110000, 0b00010000] = .unit (.luma 16 (-7) (-8)) [] ∧
    decodeChunk [0b10100000, 0b01111101] = .unit (.luma 0 (-1) 5) [] := by decide

/-- R77: the least and the greatest RUN tag. -/
theorem test_decode_run :
    decodeChunk [0b11000000] = .unit (.run 1) [] ∧ decodeChunk [0b11111101] = .unit (.run 62) [] := by decide

theorem test_decode_rejects :
    decodeChunk [] = .rejected .noTag ∧ decodeChunk [0xFE, 1, 2] = .rejected (.shortPayload 0xFE) ∧
    decodeChunk [0x80] = .rejected (.shortPayload 0x80) := by decide

/-- R83: END in both numberings of its table word; its first byte alone is INDEX 0. -/
theorem test_table_words :
    decodeTableWord 64 1 = some .endMarker ∧ decodeTableWord 64 (2 ^ 56) = some .endMarker ∧
    decodeTableWord 8 0 = some (.index 0) ∧ decodeTableWord 8 0xFE = some (.rgb 0 0 0) ∧
    decodeTableWord 40 0x801E140AFF = some (.rgba 10 20 30 128) ∧ decodeTableWord 16 0x31AF = some (.luma 15 (-5) (-7)) := by
  decide

/-! ## The hash and the header -/

/-- L2-H-6, L2-H-8, L2-H-9, L2-H-11, in both arithmetics. -/
theorem test_hash :
    pixelHash ⟨11, 9, 10, 255⟩ = 9 ∧ pixelHash6 ⟨1, 2, 3, 4⟩ = 14 ∧ pixelHash ⟨10, 20, 30, 128⟩ = 20 ∧
    pixelHash6 ⟨254, 0, 0, 255⟩ = 47 := by decide

/-- L1-5: the magic "qoig". -/
theorem test_header_magic : decodeHeader true [0x71, 0x6F, 0x69, 0x67, 0, 0, 0, 1, 0, 0, 0, 1, 4, 0] = .error .invalidHeader := by
  decide

/-! ## One step of a decoder (part 2.2 of the vectors) -/

/-- L2-D-1. -/
theorem test_step_decode_rgb :
    nextAnd (step (decTurn (decoder 1 [.byte 0xFE, .byte 1, .byte 2, .byte 3]))) (fun t =>
      (dec0 t).sink == [(0, ⟨1, 2, 3, 255⟩)] && (dec0 t).eng.st == .done && (dec0 t).eng.bytes == 4) = true := by decide

/-- L2-D-2. -/
theorem test_step_decode_rgba :
    nextAnd (step (decTurn (decoder 1 [.byte 0xFF, .byte 10, .byte 20, .byte 30, .byte 128]))) (fun t =>
      (dec0 t).sink == [(0, ⟨10, 20, 30, 128⟩)] && (dec0 t).eng.cacheRead 20 == ⟨10, 20, 30, 128⟩) = true := by decide

/-- L2-D-16: a slot never written. -/
theorem test_step_decode_index :
    nextAnd (step (decTurn (decoder 1 [.byte 0x35]))) (fun t =>
      (dec0 t).eng.prev == ⟨0, 0, 0, 0⟩ && (dec0 t).eng.cacheRead 53 == ⟨0, 0, 0, 0⟩) = true := by decide

/-- L2-D-5: wraps. -/
theorem test_step_decode_diff :
    nextAnd (step (decTurn (decoder 1 [.byte 0x40]))) (fun t =>
      (dec0 t).eng.prev == ⟨254, 254, 254, 255⟩ && (dec0 t).eng.cacheRead 23 == ⟨254, 254, 254, 255⟩) = true := by decide

/-- L2-D-8: wraps. -/
theorem test_step_decode_luma :
    nextAnd (step (decTurn (decoder 1 [.byte 0x80, .byte 0x00]))) (fun t =>
      (dec0 t).eng.prev == ⟨216, 224, 216, 255⟩ && (dec0 t).eng.bytes == 2) = true := by decide

/-- L2-D-21: RUN 5 with 4 needed, under both policies. -/
theorem test_step_decode_run :
    nextAnd (step (decTurn (decoder 4 [.byte 0xC4]))) (fun t =>
      (dec0 t).sink == flat 4 ⟨0, 0, 0, 255⟩ && (dec0 t).eng.events == [⟨.run, 1, 4⟩]) = true ∧
    nextAnd (step { decTurn (decoder 4 [.byte 0xC4]) with overshoot := .fault }) (fun t =>
      (dec0 t).sink == [] && (dec0 t).eng.st == .error && (dec0 t).eng.err == .internal && (dec0 t).eng.bytes == 1) = true := by
  decide

/-- A decoder that has begun to write the 4 pixels of a RUN 5 and has written 2 (R60, R130); its byte source would fail. -/
abbrev dPaced : Decoder :=
  { decoder 4 [.fail] with
    eng := { (decoder 4 []).eng.cacheWrite ⟨0, 0, 0, 255⟩ with bytes := 1 }
    chunkBuf := [0xC4]
    expanded := some 2
    sink := flat 2 ⟨0, 0, 0, 255⟩
    pixelAnswers := 0 }

/-- L2-D-21 with 2 of the 4 `SinkPixel`s answered: the step waits there (R193); and with none. -/
theorem test_step_pixel_sink_waits :
    nextAnd (step (decTurn { decoder 4 [.byte 0xC4, .fail] with pixelAnswers := 2 })) (fun t => dec0 t == dPaced) = true ∧
    nextAnd (step (decTurn { decoder 4 [.byte 0xC4] with pixelAnswers := 0 })) (fun t =>
      (dec0 t).sink == [] && (dec0 t).expanded == some 0 && (dec0 t).eng.st == .busy) = true := by decide

/-- The host answers the other 2: the chunk step ends and so does the session; before that the decoder cannot go on (U7). -/
theorem test_step_pixel_sink_answers :
    dPaced.canRun = false ∧
    nextAnd (step (decTurn { dPaced with pixelAnswers := 2 })) (fun t =>
      (dec0 t).sink == flat 4 ⟨0, 0, 0, 255⟩ && (dec0 t).eng.st == .done && (dec0 t).eng.events == [⟨.run, 1, 4⟩] &&
        (dec0 t).chunkBuf == [] && (dec0 t).source == [.fail]) = true := by decide

/-- L2-D-22: truncation in a payload. -/
theorem test_step_truncation :
    nextAnd (step (decTurn (decoder 2 [.byte 0xFE, .byte 1, .byte 2, .exhausted]))) (fun t =>
      (dec0 t).eng.err == .truncation && (dec0 t).eng.bytes == 3 && (dec0 t).eng.pix == 0 && (dec0 t).eng.events == []) =
      true := by decide

/-! ## One step of an encoder (part 2.3 of the vectors) -/

/-- L2-E-14: just outside LUMA. -/
theorem test_step_encode_rgb :
    nextAnd (step (encTurn (encoder 1 [(0, ⟨8, 0, 0, 255⟩)] (List.replicate 4 .ok)))) (fun t =>
      (enc0 t).sink == [0xFE, 8, 0, 0] && (enc0 t).eng.cacheRead 13 == ⟨8, 0, 0, 255⟩) = true := by decide

/-- L2-E-18: in DIFF range, but alpha changes. -/
theorem test_step_encode_rgba :
    nextAnd (step (encTurn (encoder 1 [(0, ⟨1, 1, 1, 254⟩)] (List.replicate 5 .ok)))) (fun t =>
      (enc0 t).sink == [0xFF, 1, 1, 1, 0xFE] && (enc0 t).eng.events == [⟨.rgba, 5, 1⟩]) = true := by decide

/-- L2-E-17: INDEX of slot 0 at session start. -/
theorem test_step_encode_index :
    nextAnd (step (encTurn (encoder 1 [(0, ⟨0, 0, 0, 0⟩)] [.ok]))) (fun t => (enc0 t).sink == [0x00]) = true := by decide

/-- L1-3: wraps, and DIFF wins (C1). -/
theorem test_step_encode_diff :
    nextAnd (step (encTurn (encoder 1 [(0, ⟨254, 0, 0, 255⟩)] [.ok]))) (fun t => (enc0 t).sink == [0x4A]) = true := by decide

/-- L2-E-19: a wrapping red delta. -/
theorem test_step_encode_luma :
    nextAnd (step (encTurn (encoder 1 [(0, ⟨255, 0, 5, 255⟩)] [.ok, .ok]))) (fun t => (enc0 t).sink == [0xA0, 0x7D]) =
      true := by decide

/-- L2-E-3, first step: the cap. -/
theorem test_step_encode_run :
    nextAnd (step (encTurn (encoder 63 (flat 63 ⟨0, 0, 0, 255⟩) [.ok]))) (fun t =>
      (enc0 t).sink == [0xFD] && (enc0 t).eng.pix == 62) = true := by decide

/-- L2-E-26: the end marker only. -/
theorem test_step_encode_end :
    nextAnd (step (encTurn (encoder 0 [] (List.replicate 8 .ok)))) (fun t =>
      (enc0 t).sink == [0, 0, 0, 0, 0, 0, 0, 1] && (enc0 t).eng.st == .done && (enc0 t).eng.bytes == 8) = true := by decide

/-! ## The word that the next step runs -/

theorem test_fetch_word :
    nextAnd (step (State.reset.withFetchWord 40 0x801E140AFF)) (fun t => (dec0 t).sink == [(0, ⟨10, 20, 30, 128⟩)]) = true ∧
    nextAnd (step (State.reset.withFetchWord 64 1)) (fun t => (enc0 t).sink == [0, 0, 0, 0, 0, 0, 0, 1]) = true := by decide

/-! ## Witnesses: encoding, pixels, header -/

theorem witness_DecodeEncodeAgree : (Instr.luma (-32) (-8) 7).wf = true ∧ Instr.luma (-32) (-8) 7 ≠ .endMarker ∧
    (Instr.run 62).wf = true ∧ Instr.endMarker.wf = true := by decide

theorem witness_EncodeDecodeAgree : decodeChunk [0xFD, 0] = .unit (.run 62) [0] := by decide

theorem witness_TagAloneGivesLength :
    (5 : Nat) = (if (0xFF : Byte) = 0xFF then 5 else if (0xFF : Byte) = 0xFE then 4
      else if (0xFF : Byte).toNat / 64 = 2 then 2 else 1) ∧
    5 ≤ ([1, 2, 3, 4] : List Byte).length + 1 ∧ ([1, 2, 3] : List Byte).length + 1 < 5 := by decide

theorem witness_CacheWriteIsBySlotOfHash : (0 : BitVec 6) ≠ pixelHash ⟨0, 0, 0, 255⟩ ∧
    Engine.powerOn.cacheRead (pixelHash ⟨0, 0, 0, 0⟩) = ⟨0, 0, 0, 0⟩ := by decide

theorem witness_LinearPositionsAreRowMajor :
    (2 : Nat) < (3 : Word32).toNat ∧ (1 : Nat) < (2 : Word32).toNat ∧ linearPosition 3 2 1 = linearPosition 3 2 1 := by decide

theorem witness_HeaderRejections : ([0x71, 0x6F, 0x69, 0x66] : List Byte).length = 4 ∧ ([0, 0, 0, 1, 0, 0, 0, 1] : List Byte).length = 8 ∧
    (1 : Nat) < (2 : Byte).toNat ∧ (List.replicate 13 (0 : Byte)).length < 14 := by decide

/-! ## Witnesses: a decoder that consumes a chunk -/

/-- A decoder that needs 3 pixels. -/
abbrev d3 : Decoder := decoder 3 []

/-- It meets the hypotheses of DecodeRgbKeepsAlpha, DecodeRgbaReplacesPixel, DecodeIndexReadsSlot, DecodeDiffAddsModulo256 and
DecodeLumaAddsModulo256. -/
theorem witness_decodes : (decTurn d3).decodes 0 d3 ∧ 1 ≤ d3.pixelAnswers := by decide

/-- A run that fits exactly, and one that is clamped. -/
theorem witness_DecodeRunRepeatsPrev :
    (decTurn d3).decodes 0 d3 ∧ d3.eng.pix.toNat + 3 ≤ d3.eng.npix.toNat ∧ (decTurn d3).overshoot = .clamp ∧
    min 3 (d3.eng.npix.toNat - d3.eng.pix.toNat) ≤ d3.pixelAnswers ∧
    min 62 (d3.eng.npix.toNat - d3.eng.pix.toNat) ≤ d3.pixelAnswers := by decide

/-- One pixel too many, under both policies. -/
theorem witness_RunOvershootIsClampedOrFaults :
    (decTurn d3).decodes 0 d3 ∧ d3.eng.npix.toNat - d3.eng.pix.toNat < 4 ∧ (decTurn d3).overshoot = .clamp ∧
    d3.eng.npix.toNat - d3.eng.pix.toNat ≤ d3.pixelAnswers ∧
    ({ decTurn d3 with overshoot := .fault } : State).decodes 0 d3 := by decide

theorem witness_ChunkStepAdvancesCursor : (decTurn d3).decodes 0 d3 ∧ (Instr.run 3).wf = true ∧
    nextAnd (exec (.run 3) (decTurn d3)) (fun t => t.decs.length == 1) = true := by decide

/-- A decoder that waits for its pixel sink is in a good state. -/
theorem inv_dPaced : dPaced.Inv where
  eng := ⟨by decide, by decide, by decide, by decide, by decide⟩
  busy := by decide
  done := by decide
  partialChunk := fun h => by cases h
  expanding := fun j hj => ⟨.run 5, by decide, by cases hj; decide⟩
  updated := by decide
  quiet := by decide
  errorKind := by decide
  grid := by decide

/-- One answer fewer than a run needs; then, waiting, one answer fewer than what is left, and exactly what is left. -/
theorem witness_PixelSinkPacesExpansion :
    ((decTurn { d3 with pixelAnswers := 2 }).decodes 0 { d3 with pixelAnswers := 2 } ∧ (Instr.run 3).wf = true ∧
      (decTurn d3).overshoot = .clamp ∧ ({ d3 with pixelAnswers := 2 } : Decoder).pixelAnswers < d3.needed (chunkRun (.run 3))) ∧
    ({ dPaced with pixelAnswers := 1 } : Decoder).Inv ∧ ({ dPaced with pixelAnswers := 2 } : Decoder).Inv ∧
    dPaced.expanded = some 2 ∧ decodeChunk dPaced.chunkBuf = .unit (.run 5) [] ∧
    2 + 1 < dPaced.needed (chunkRun (.run 5)) ∧ dPaced.needed (chunkRun (.run 5)) ≤ 2 + 2 := by
  have h := inv_dPaced
  have inv : ∀ n, ({ dPaced with pixelAnswers := n } : Decoder).Inv := fun n =>
    ⟨h.eng, h.busy, h.done, h.partialChunk, h.expanding, h.updated, h.quiet, h.errorKind, h.grid⟩
  exact ⟨by decide, inv 1, inv 2, by decide⟩

/-- A run of 3 that waits after 2 answers. -/
theorem witness_PixelSinkLatencyDoesNotMatter :
    (decTurn d3).decodes 0 d3 ∧ (Instr.run 3).wf = true ∧
    nextAnd (exec (.run 3) { decTurn d3 with decs := (decTurn d3).decs.set 0 { d3 with pixelAnswers := 2 } })
      (fun u => (dec0 u).expanded == some 2) = true := by decide

/-! ## Witnesses: an encoder that emits a unit -/

/-- The longest run, at the end of the image. -/
abbrev eRun : Encoder := encoder 62 (flat 62 ⟨0, 0, 0, 255⟩) [.ok]

theorem witness_EncodeRunEmitsCount :
    (encTurn eRun).encodes 0 eRun ⟨0, 0, 0, 255⟩ ∧ (⟨0, 0, 0, 255⟩ : Pixel) = eRun.eng.prev ∧
    eRun.eng.pix.toNat + 62 ≤ eRun.eng.npix.toNat ∧ (∀ j < 62, eRun.srcPixel j = some ⟨0, 0, 0, 255⟩) ∧ eRun.erun ≤ 62 ∧
    eRun.sinkAccepts [BitVec.ofNat 8 (0xC0 + (62 - 1))] [] := by decide

/-- A run of 2 ended by a differing pixel. -/
abbrev eRunEnds : Encoder := encoder 5 [(0, ⟨0, 0, 0, 255⟩), (1, ⟨0, 0, 0, 255⟩), (2, ⟨1, 0, 0, 255⟩)] [.ok]

theorem witness_EncodeRunEmitsCount_differing :
    (encTurn eRunEnds).encodes 0 eRunEnds ⟨0, 0, 0, 255⟩ ∧ (⟨0, 0, 0, 255⟩ : Pixel) = eRunEnds.eng.prev ∧
    eRunEnds.eng.pix.toNat + 2 ≤ eRunEnds.eng.npix.toNat ∧ (∀ j < 2, eRunEnds.srcPixel j = some ⟨0, 0, 0, 255⟩) ∧
    (eRunEnds.srcPixel 2 = some ⟨1, 0, 0, 255⟩ ∧ (⟨1, 0, 0, 255⟩ : Pixel) ≠ ⟨0, 0, 0, 255⟩) ∧ eRunEnds.erun ≤ 2 ∧
    eRunEnds.sinkAccepts [BitVec.ofNat 8 (0xC0 + (2 - 1))] [] := by decide

/-- A pixel that sits in slot 0 from session start. -/
abbrev eIndex : Encoder := encoder 1 [(0, ⟨0, 0, 0, 0⟩)] [.ok]

theorem witness_EncodeIndexEmitsSlot :
    (encTurn eIndex).encodes 0 eIndex ⟨0, 0, 0, 0⟩ ∧ (⟨0, 0, 0, 0⟩ : Pixel) ≠ eIndex.eng.prev ∧
    eIndex.eng.cacheRead (pixelHash ⟨0, 0, 0, 0⟩) = ⟨0, 0, 0, 0⟩ ∧
    eIndex.sinkAccepts [BitVec.ofNat 8 (pixelHash ⟨0, 0, 0, 0⟩).toNat] [] := by decide

/-- The ends of the DIFF ranges: deltas −2, +1, −2. -/
abbrev eDiff : Encoder := encoder 1 [(0, ⟨254, 1, 254, 255⟩)] [.ok]

theorem witness_EncodeDiffEmitsBiasedDeltas :
    (encTurn eDiff).encodes 0 eDiff ⟨254, 1, 254, 255⟩ ∧ eDiff.missesCopies ⟨254, 1, 254, 255⟩ ∧
    inDiffRange ⟨254, 1, 254, 255⟩ eDiff.eng.prev ∧ ((254 : Byte) - eDiff.eng.prev.r).toInt = -2 ∧
    eDiff.sinkAccepts [BitVec.ofInt 8 (0x40 + 16 * (-2 + 2) + 4 * (1 + 2) + (-2 + 2))] [] := by decide

/-- The ends of the LUMA ranges: −32, −8, +7 (L2-E-11). -/
abbrev eLuma : Encoder := encoder 1 [(0, ⟨216, 224, 231, 255⟩)] [.ok, .ok]

theorem witness_EncodeLumaEmitsBiasedDeltas :
    (encTurn eLuma).encodes 0 eLuma ⟨216, 224, 231, 255⟩ ∧ eLuma.missesCopies ⟨216, 224, 231, 255⟩ ∧
    ¬ inDiffRange ⟨216, 224, 231, 255⟩ eLuma.eng.prev ∧ inLumaRange ⟨216, 224, 231, 255⟩ eLuma.eng.prev ∧
    eLuma.sinkAccepts [BitVec.ofInt 8 (0x80 + (-32 + 32)), BitVec.ofInt 8 (16 * (-40 - -32 + 8) + (-25 - -32 + 8))] [] := by
  decide

/-- Just outside LUMA: a green delta of +32 (L2-E-12). -/
abbrev eRgb : Encoder := encoder 1 [(0, ⟨32, 32, 32, 255⟩)] (List.replicate 4 .ok)

theorem witness_EncodeRgbEmitsChannels :
    (encTurn eRgb).encodes 0 eRgb ⟨32, 32, 32, 255⟩ ∧ eRgb.missesCopies ⟨32, 32, 32, 255⟩ ∧
    (255 : Byte) = eRgb.eng.prev.a ∧ ¬ inDiffRange ⟨32, 32, 32, 255⟩ eRgb.eng.prev ∧
    ¬ inLumaRange ⟨32, 32, 32, 255⟩ eRgb.eng.prev ∧ eRgb.sinkAccepts [0xFE, 32, 32, 32] [] := by decide

/-- Only alpha changes (L2-E-15). -/
abbrev eRgba : Encoder := encoder 1 [(0, ⟨0, 0, 0, 254⟩)] (List.replicate 5 .ok)

theorem witness_EncodeRgbaEmitsChannels :
    (encTurn eRgba).encodes 0 eRgba ⟨0, 0, 0, 254⟩ ∧ eRgba.missesCopies ⟨0, 0, 0, 254⟩ ∧
    (254 : Byte) ≠ eRgba.eng.prev.a ∧ eRgba.sinkAccepts [0xFF, 0, 0, 0, 254] [] := by decide

/-- No pixel left; NPIX is 0. -/
abbrev eEnd : Encoder := encoder 0 [] (List.replicate 8 .ok)

theorem witness_EncodeEndEmitsMarker :
    (encTurn eEnd).turn = .enc 0 ∧ (encTurn eEnd).encs[0]? = some eEnd ∧ eEnd.eng.st = .busy ∧ eEnd.eng.pix = eEnd.eng.npix ∧
    eEnd.sinkAccepts [0, 0, 0, 0, 0, 0, 0, 1] [] := by decide

/-- One pixel for each clause of EncoderSelectsByPriority; `eEnd` meets the first. -/
theorem witness_EncoderSelectsByPriority :
    eEnd.eng.npix.toNat ≤ eEnd.eng.pix.toNat ∧
    (eRun.eng.pix.toNat < eRun.eng.npix.toNat ∧ eRun.srcPixel 0 = some eRun.eng.prev) ∧
    (eIndex.srcPixel 0 = some ⟨0, 0, 0, 0⟩ ∧ eIndex.eng.cacheRead (pixelHash ⟨0, 0, 0, 0⟩) = ⟨0, 0, 0, 0⟩) ∧
    (eDiff.srcPixel 0 = some ⟨254, 1, 254, 255⟩ ∧ inDiffRange ⟨254, 1, 254, 255⟩ eDiff.eng.prev) ∧
    (eLuma.srcPixel 0 = some ⟨216, 224, 231, 255⟩ ∧ inLumaRange ⟨216, 224, 231, 255⟩ eLuma.eng.prev) ∧
    (eRgb.srcPixel 0 = some ⟨32, 32, 32, 255⟩ ∧ ¬ inLumaRange ⟨32, 32, 32, 255⟩ eRgb.eng.prev) ∧
    (eRgba.srcPixel 0 = some ⟨0, 0, 0, 254⟩ ∧ (254 : Byte) ≠ eRgba.eng.prev.a) := by decide

/-! ## Witnesses: where exec and the host's actions stop -/

/-- A decoder that is IDLE. -/
theorem witness_ExecLeavesQuiescentInstance :
    (State.reset.turn = .dec 0 ∧ State.reset.decs[0]? = some Decoder.powerOn ∧ Decoder.powerOn.eng.st ≠ .busy) ∧
    ({ State.reset with turn := .enc 0 } : State).encs[0]? = some Encoder.powerOn ∧ Encoder.powerOn.eng.st ≠ .busy := by decide

theorem witness_ExecStopsByName :
    ({ State.reset with turn := .dec 1 } : State).decs[1]? = none ∧ ({ State.reset with turn := .enc 1 } : State).encs[1]? = none ∧
    ((decTurn d3).turn = .dec 0 ∧ (decTurn d3).decs[0]? = some d3 ∧ d3.eng.st = .busy) ∧
    ((encTurn eRun).encs[0]? = some eRun ∧ eRun.eng.st = .busy ∧ eRun.select ≠ .unit (.run 61)) := by decide

/-- Instances that the block has and does not have; a source that may grow while BUSY; a position listed twice. -/
theorem witness_CollaboratorActionsSetOneCollaborator :
    State.reset.decs[0]? = some Decoder.powerOn ∧ State.reset.encs[0]? = some Encoder.powerOn ∧
    ({ State.reset with agenda := [.byteSource 0 [.fail]] } : State).agenda = .byteSource 0 [.fail] :: [] ∧
    Encoder.powerOn.eng.st ≠ .busy ∧
    (eRgb.eng.st = .busy ∧ eRgb.source = [(0, ⟨32, 32, 32, 255⟩)] ∧
      Memory.read (Memory.ofCells [(1, ⟨1, 1, 1, 1⟩), (0, ⟨32, 32, 32, 255⟩)]) 0 = some ⟨32, 32, 32, 255⟩) ∧
    State.reset.decs[1]? = none ∧ State.reset.encs[1]? = none ∧
    Memory.ofCells [(3, ⟨1, 1, 1, 1⟩), (3, ⟨2, 2, 2, 2⟩)] = [(3, ⟨2, 2, 2, 2⟩)] := by decide

theorem witness_HostActionsStopByName :
    ((0x1E : Nat) < 0x20 ∧ 0x1E % 4 ≠ 0) ∧ State.reset.engineOf (.dec 1) = none ∧
    ((encTurn eRgb).encs[0]? = some eRgb ∧ eRgb.eng.st = .busy ∧ Memory.read eRgb.source 0 = some ⟨32, 32, 32, 255⟩ ∧
      Memory.read (Memory.ofCells []) 0 ≠ some ⟨32, 32, 32, 255⟩) := by decide

/-! ## Witnesses: a step around exec -/

/-- A decoder that has read an RGB tag and waits for its payload. -/
abbrev dWait : Decoder :=
  { decoder 3 [.byte 1, .byte 2, .byte 3] with chunkBuf := [0xFE] }

theorem witness_StepRunsDecodedChunk :
    (decTurn dWait).agenda = [.turn (.dec 0)] ∧ (decTurn dWait).decs[0]? = some dWait ∧ dWait.eng.st = .busy ∧
    dWait.eng.pix.toNat < dWait.eng.npix.toNat ∧ (Instr.rgb 1 2 3).wf = true ∧
    dWait.chunkBuf ++ [1, 2, 3] = encode (.rgb 1 2 3) ∧ dWait.source = ([1, 2, 3] : List Byte).map .byte ++ [] := by decide

theorem witness_StepRunsSelectedUnit :
    (encTurn eRun).agenda = [.turn (.enc 0)] ∧ (encTurn eRun).encs[0]? = some eRun ∧ eRun.eng.st = .busy ∧
    eRun.select = .unit (.run 62) := by decide

/-- Idle with nothing to do, and a decoder that can run. -/
theorem witness_IdleAgendaRunsAReadyInstance :
    State.reset.agenda = [] ∧ State.reset.pick = none ∧
    ({ decTurn (decoder 1 [.byte 0]) with agenda := [] } : State).canRun (.dec 0) = true := by decide

theorem witness_QuiescentInstanceKeepsState :
    (decTurn Decoder.powerOn).agenda = [.turn (.dec 0)] ∧ (decTurn Decoder.powerOn).decs[0]? = some Decoder.powerOn ∧
    Decoder.powerOn.eng.st ≠ .busy ∧ (encTurn Encoder.powerOn).encs[0]? = some Encoder.powerOn ∧
    Encoder.powerOn.eng.st ≠ .busy := by decide

/-- L2-D-24, and with no byte at all. -/
theorem witness_MissingByteRaisesTruncation :
    decodeChunk ([] ++ [0xAF]) = .rejected (.shortPayload 0xAF) ∧ decodeChunk ([] ++ []) = .rejected .noTag ∧
    (decTurn (decoder 1 [.byte 0xAF, .fail])).decodes 0 (decoder 1 [.byte 0xAF, .fail]) ∧
    (decoder 1 [.byte 0xAF, .fail]).source = ([0xAF] : List Byte).map .byte ++ .fail :: [] := by decide

theorem witness_DecoderWaitsForByteSource :
    (decTurn (decoder 1 [.byte 0xAF])).decodes 0 (decoder 1 [.byte 0xAF]) ∧
    decodeChunk ((decoder 1 [.byte 0xAF]).chunkBuf ++ [0xAF]) = .rejected (.shortPayload 0xAF) ∧
    (decoder 1 [.byte 0xAF]).source = ([0xAF] : List Byte).map .byte := by decide

/-- The last of five bytes fails. -/
abbrev eFail : Encoder := encoder 1 [(0, ⟨0, 0, 0, 254⟩)] [.ok, .ok, .ok, .ok, .fail]

theorem witness_SinkFailureRaisesIoError :
    (encTurn eFail).encs[0]? = some eFail ∧ eFail.eng.st = .busy ∧ eFail.select = .unit (.rgba 0 0 0 254) ∧
    eFail.epos + 4 < (encode (.rgba 0 0 0 254)).length ∧ eFail.answers = List.replicate 4 .ok ++ .fail :: [] := by decide

/-- Four of five bytes are answered. -/
abbrev eHalf : Encoder := encoder 1 [(0, ⟨0, 0, 0, 254⟩)] [.ok, .ok, .ok, .ok]

theorem witness_EncoderWaitsForByteSink :
    (encTurn eHalf).encs[0]? = some eHalf ∧ eHalf.eng.st = .busy ∧ eHalf.select = .unit (.rgba 0 0 0 254) ∧
    eHalf.epos + 4 < (encode (.rgba 0 0 0 254)).length ∧ eHalf.answers = List.replicate 4 .ok := by decide

/-- No pixel is answered; and 61 equal pixels are, of 62, the first 5 of them counted before an earlier wait. -/
theorem witness_EncoderWaitsForPixelSource :
    (encoder 3 [] []).select = .waitSource 0 ∧ (encoder 3 [] []).eng.st = .busy ∧ (encoder 3 [] []).Inv ∧
    ({ encoder 62 (flat 61 ⟨0, 0, 0, 255⟩) [] with erun := 5 } : Encoder).select = .waitSource 61 ∧
    ({ encoder 62 (flat 61 ⟨0, 0, 0, 255⟩) [] with erun := 5 } : Encoder).Inv := by
  refine ⟨by decide, by decide, ?_, by decide, ?_⟩ <;> exact {
    eng := ⟨by decide, by decide, by decide, by decide, by decide⟩
    done := by decide
    quiet := by decide
    run := by decide
    runPixels := by decide
    emitting := .inl rfl
    errorKind := by decide
    grid := by decide }

/-! ## Witnesses: registers, START, reset -/

/-- A decoder with this extent that is not BUSY. -/
abbrev dIdle (w h : Word32) : Decoder := { Decoder.powerOn with eng := { Engine.powerOn with width := w, height := h } }

/-- The largest image, and an empty one. -/
theorem witness_StartBeginsDecoderSession :
    (dIdle 0xFFFFFFFF 0xFFFFFFFF).eng.st ≠ .busy ∧ (1 : Word32).getLsbD 0 = true ∧
    (dIdle 0xFFFFFFFF 0xFFFFFFFF).eng.width.toNat * (dIdle 0xFFFFFFFF 0xFFFFFFFF).eng.height.toNat ≠ 0 ∧
    (decTurn (dIdle 0xFFFFFFFF 0xFFFFFFFF)).decs[0]? = some (dIdle 0xFFFFFFFF 0xFFFFFFFF) := by decide

theorem witness_EmptyImageDecodesAtStart :
    (dIdle 0 5).eng.st ≠ .busy ∧ (dIdle 0 5).eng.width.toNat * (dIdle 0 5).eng.height.toNat = 0 ∧
    (decTurn (dIdle 0 5)).decs[0]? = some (dIdle 0 5) := by decide

theorem witness_StartBeginsEncoderSession :
    ({ State.reset with agenda := [.regWrite (.enc 0) 0 0xFFFFFFFF] } : State).encs[0]? = some Encoder.powerOn ∧
    Encoder.powerOn.eng.st ≠ .busy ∧ (0xFFFFFFFF : Word32).getLsbD 0 = true := by decide

theorem witness_RegisterWritesIgnoredWhileBusy :
    (decTurn d3).decs[0]? = some d3 ∧ d3.eng.st = .busy ∧ (encTurn eRun).encs[0]? = some eRun ∧ eRun.eng.st = .busy ∧
    (0x1C % 4 = 0 ∨ 0x20 ≤ 0x1C) ∧ (0x21 % 4 = 0 ∨ 0x20 ≤ 0x21) := by decide

theorem witness_OnlyExtentRegistersAreWritable :
    State.reset.decs[0]? = some Decoder.powerOn ∧ State.reset.encs[0]? = some Encoder.powerOn ∧ Decoder.powerOn.eng.st ≠ .busy ∧
    (0 % 4 = 0 ∨ 0x20 ≤ 0) ∧ (2 : Word32).getLsbD 0 = false := by decide

theorem witness_RegisterReadsReturnFields :
    (decTurn d3).engineOf (.dec 0) = some d3.eng ∧ (encTurn eRun).engineOf (.enc 0) = some eRun.eng ∧
    (0x1C % 4 = 0 ∨ 0x20 ≤ 0x1C) := by decide

/-- Power-on reset of a busy block, and an instance in it. -/
theorem witness_PowerOnResetValues :
    ({ decTurn d3 with agenda := [.powerOn] } : State).agenda = .powerOn :: [] ∧
    ∃ d ∈ (decTurn d3).powerOn.decs, d.eng = d3.resetPower.eng := by decide

/-! ## Witnesses: whole-machine rules -/

/-- A decoder in its session is in a good state. -/
theorem inv_d3 : d3.Inv where
  eng := ⟨by decide, by decide, by decide, by decide, by decide⟩
  busy := by decide
  done := by decide
  partialChunk := fun _ => ⟨_, rfl⟩
  expanding := fun j hj => by cases hj
  updated := by decide
  quiet := by decide
  errorKind := by decide
  grid := by decide

/-- An encoder in its session is in a good state. -/
theorem inv_eRun : eRun.Inv where
  eng := ⟨by decide, by decide, by decide, by decide, by decide⟩
  done := by decide
  quiet := by decide
  run := by decide
  runPixels := by decide
  emitting := .inl rfl
  errorKind := by decide
  grid := by decide

/-- A good state, mid-session on both sides, that takes a step. -/
theorem witness_StepKeepsGoodStates :
    ({ encTurn eRun with decs := [d3] } : State).Inv ∧
    nextAnd (step { encTurn eRun with decs := [d3] }) (fun t => (enc0 t).eng.pix == 62) = true :=
  ⟨⟨by simpa using inv_d3, by simpa [encTurn] using inv_eRun, by decide⟩, by decide⟩

theorem witness_TurnTouchesOneInstance :
    (decTurn (decoder 1 [.byte 0])).agenda = [.turn (.dec 0)] ∧ Agent.dec 0 ≠ .enc 0 ∧
    nextAnd (step (decTurn (decoder 1 [.byte 0]))) (fun t => (enc0 t) == Encoder.powerOn) = true := by decide

theorem witness_TurnsOfTwoInstancesCommute :
    Agent.dec 0 ≠ .enc 0 ∧
    nextAnd (Host.Core.run core 2 { encTurn eRun with decs := [d3], agenda := [.turn (.dec 0), .turn (.enc 0)] })
      (fun t => (enc0 t).sink == [0xFD]) = true ∧
    nextAnd (Host.Core.run core 2 { encTurn eRun with decs := [d3], agenda := [.turn (.enc 0), .turn (.dec 0)] })
      (fun t => (enc0 t).sink == [0xFD]) = true := by decide

/-- The width of an idle decoder changes, and nothing but a register write can do that. -/
theorem witness_OnlyStartLeavesEndedSession :
    State.reset.engineOf (.dec 0) = some Engine.powerOn ∧ Engine.powerOn.st ≠ .busy ∧
    nextAnd (step { State.reset with agenda := [.regWrite (.dec 0) 8 7] })
      (fun t => t.engineOf (.dec 0) == some { Engine.powerOn with width := 7 }) = true := by decide

theorem witness_EncoderConsumesInsideImage : eRun.Inv ∧ eRun.eng.st = .busy ∧ eRun.select = .unit (.run 62) :=
  ⟨inv_eRun, by decide, by decide⟩

/-- A decoder and an encoder at the start of their sessions on the same image. -/
theorem witness_OneChunkInLockStep :
    (decTurn (decoder 62 [])).decodes 0 (decoder 62 []) ∧ (encTurn eRun).encodes 0 eRun ⟨0, 0, 0, 255⟩ ∧ eRun.Inv ∧
    ((decoder 62 []).eng.prev = eRun.eng.prev ∧ (decoder 62 []).eng.cache = eRun.eng.cache ∧
      (decoder 62 []).eng.pix = eRun.eng.pix ∧ (decoder 62 []).eng.npix = eRun.eng.npix) ∧
    eRun.select = .unit (.run 62) ∧ eRun.sinkAccepts (encode (.run 62)) [] ∧ chunkRun (.run 62) ≤ (decoder 62 []).pixelAnswers :=
  ⟨by decide, by decide, inv_eRun, by decide, by decide, by decide, by decide⟩

/-- A 2 × 2 image with every pixel given, and the empty image. -/
theorem witness_RoundTripIsIdentity :
    (∀ p < (2 : Word32).toNat * (2 : Word32).toNat, Memory.read (Memory.ofCells (flat 4 ⟨1, 2, 3, 4⟩)) p ≠ none) ∧
    (∀ p < (0 : Word32).toNat * (5 : Word32).toNat, Memory.read (Memory.ofCells []) p ≠ none) := by decide

end Sys2Proof.Tests
end

section
/-! PROOF. A pixel in one word (R10): the word's value, and packing and unpacking as inverses of each other. -/

namespace Sys2Proof

/-- R10: pixels are equal exactly channel by channel. -/
theorem Pixel.eq_iff_channels (p q : Pixel) : p = q ↔ p.r = q.r ∧ p.g = q.g ∧ p.b = q.b ∧ p.a = q.a := by
  cases p
  cases q
  simp only [Pixel.mk.injEq]

/-- `BitVec.toNat_append` as a sum: the low part does not reach into the high part, so no bit is lost to the `|||`. -/
theorem toNat_append_eq_add {m n : Nat} (hi : BitVec m) (lo : BitVec n) :
    (hi ++ lo).toNat = hi.toNat * 2 ^ n + lo.toNat := by
  rw [BitVec.toNat_append, ← Nat.shiftLeft_add_eq_or_of_lt lo.isLt, Nat.shiftLeft_eq]

/-- The value of an 8-bit field of a word, as division and remainder. -/
theorem toNat_byteField {n : Nat} (w : BitVec n) (start : Nat) :
    (w.extractLsb' start 8).toNat = w.toNat / 2 ^ start % 2 ^ 8 := by
  rw [BitVec.extractLsb'_toNat, Nat.shiftRight_eq_div_pow]

/-- R10: R is the most significant byte of the word, A the least. -/
theorem Pixel.toNat_toWord (p : Pixel) :
    p.toWord.toNat = p.r.toNat * 2 ^ 24 + p.g.toNat * 2 ^ 16 + p.b.toNat * 2 ^ 8 + p.a.toNat := by
  calc p.toWord.toNat
    _ = ((p.r.toNat * 2 ^ 8 + p.g.toNat) * 2 ^ 8 + p.b.toNat) * 2 ^ 8 + p.a.toNat := by
      simp only [Pixel.toWord, toNat_append_eq_add]
    _ = p.r.toNat * 2 ^ 24 + p.g.toNat * 2 ^ 16 + p.b.toNat * 2 ^ 8 + p.a.toNat := by omega

/-- Each channel is read back from its own byte of the word. -/
@[simp] theorem Pixel.ofWord_toWord (p : Pixel) : Pixel.ofWord p.toWord = p := by
  have value := p.toNat_toWord
  have hr := p.r.isLt
  have hg := p.g.isLt
  have hb := p.b.isLt
  have ha := p.a.isLt
  refine (Pixel.eq_iff_channels _ _).mpr ⟨?_, ?_, ?_, ?_⟩ <;>
    refine BitVec.eq_of_toNat_eq ((toNat_byteField _ _).trans ?_) <;> omega

/-- The four bytes of a word, packed again, are the word. -/
@[simp] theorem Pixel.toWord_ofWord (w : Word32) : (Pixel.ofWord w).toWord = w := by
  apply BitVec.eq_of_toNat_eq
  rw [Pixel.toNat_toWord]
  simp only [Pixel.ofWord, toNat_byteField]
  have hw := w.isLt
  omega

end Sys2Proof

section

open Sys2Proof

/-- Settles O6: the word's value is R's, G's, B's and A's bytes in that order, and either direction follows from it. -/
theorem pixelPacking : Obligations.PixelPacking :=
  ⟨Pixel.eq_iff_channels, fun p => ⟨p.ofWord_toWord, p.toNat_toWord⟩, Pixel.toWord_ofWord⟩

end
end

section
/-! PROOF. Good registers: which of the engine's operations keep `Engine.Inv`. -/

namespace Sys2Proof.Machine

namespace Engine

variable {e : Engine}

/-- R27, R182: a session that runs has raised no error. -/
theorem Inv.err_of_busy (h : e.Inv) (hb : e.st = .busy) : e.err = .none := by
  by_contra herr
  have hst := h.error.mpr herr
  rw [hb] at hst
  cases hst

/-- R52, R53: the byte count is not constrained (it may wrap, U12). -/
theorem Inv.withBytes (h : e.Inv) (b : Word64) : Engine.Inv { e with bytes := b } :=
  ⟨h.cursor, h.error, h.extent, h.slots, h.events⟩

/-- R105, R108, R109: the common update puts the pixel in the slot of its own hash. -/
theorem Inv.update (h : e.Inv) (px : Pixel) : (e.update px).Inv where
  cursor := h.cursor
  error := h.error
  extent := h.extent
  slots i := by
    rw [cacheRead_of_set px (e := e) rfl]
    split
    · next hi => exact .inr hi.symm
    · exact h.slots i
  events := h.events

/-- The slot that the common update wrote (R104). -/
theorem cacheRead_update_self (px : Pixel) (e : Engine) : (e.update px).cacheRead (pixelHash px) = px := by
  rw [cacheRead_of_set px (e := e) rfl, if_pos rfl]

/-- R130, R136, R164: the cursor advances inside the image, by a number of pixels that an event record can hold. -/
theorem Inv.endChunk (h : e.Inv) (kind : ChunkKind) (len : Nat) {m : Nat} (hlo : 1 ≤ m) (hhi : m ≤ 62)
    (hfit : e.pix.toNat + m ≤ e.npix.toNat) : ((e.advance m).chunkEvent kind len m).Inv where
  cursor := (advance_pix_toNat e m hfit).trans_le hfit
  error := h.error
  extent := h.extent
  slots := h.slots
  events r hr := by
    rw [chunkEvent_events, advance_events, List.mem_append, List.mem_singleton] at hr
    rcases hr with hr | rfl
    · exact h.events r hr
    · rw [BitVec.toNat_ofNat, Nat.mod_eq_of_lt (by omega)]
      exact ⟨hlo, hhi⟩

/-- R182: raising an error that is one. -/
theorem Inv.raise (h : e.Inv) {c : ErrorCode} (hc : c ≠ .none) : (e.raise c).Inv :=
  ⟨h.cursor, iff_of_true rfl hc, nofun, h.slots, h.events⟩

/-- R131, R150: a normal end. -/
theorem Inv.finish (h : e.Inv) : e.finish.Inv :=
  ⟨h.cursor, iff_of_false nofun fun hc => hc rfl, nofun, h.slots, h.events⟩

/-- R201, R33, R37: a session starts on fresh registers, with NPIX latched; only the events are of the past. -/
theorem Inv.startSession (h : e.Inv) : e.startSession.Inv where
  cursor := Nat.zero_le _
  error := iff_of_false nofun fun hc => hc rfl
  extent _ := npix_toNat e.width e.height
  slots i := .inl (cacheRead_fresh rfl i)
  events := h.events

/-- R200, R37: power-on reset, likewise. -/
theorem Inv.resetPower (h : e.Inv) : e.resetPower.Inv where
  cursor := Nat.zero_le _
  error := iff_of_false nofun fun hc => hc rfl
  extent := nofun
  slots i := .inl (cacheRead_fresh rfl i)
  events := h.events

/-- R200: the registers after power-on reset. -/
theorem inv_powerOn : Engine.powerOn.Inv where
  cursor := Nat.zero_le _
  error := iff_of_false nofun fun hc => hc rfl
  extent := nofun
  slots i := .inl (cacheRead_fresh rfl i)
  events := nofun

/-- R33: while BUSY the extent registers ignore writes. -/
theorem writeExtent_of_busy (hb : e.st = .busy) (offset : Nat) (v : Word32) : e.writeExtent offset v = e := by
  rw [writeExtent_eq, if_pos hb]

/-- R33: outside a session a write of WIDTH or HEIGHT sets that register and nothing else. -/
theorem writeExtent_of_not_busy (hb : e.st ≠ .busy) (offset : Nat) (v : Word32) :
    e.writeExtent offset v = { e with
      width := if offset = 0x08 then v else e.width
      height := if offset = 0x0C then v else e.height } := by
  rw [writeExtent_eq, if_neg hb]

/-- R33: WIDTH and HEIGHT are tied to NPIX only while BUSY, and then no write reaches them. -/
theorem Inv.withExtent (h : e.Inv) (hb : e.st ≠ .busy) (w ht : Word32) :
    Engine.Inv { e with width := w, height := ht } :=
  ⟨h.cursor, h.error, fun hb' => absurd hb' hb, h.slots, h.events⟩

end Engine

end Sys2Proof.Machine
end

section
/-! PROOF. Decoders: each operation keeps a decoder good, and so does a turn (R120 to R136). -/

namespace Sys2Proof

/-- R78, R80, R84: what the decoder reads can be spelled. -/
theorem wf_of_decodeChunk {bs rest : List Byte} {i : Instr} (h : decodeChunk bs = .unit i rest) : i.wf = true := by
  unfold decodeChunk at h
  split at h
  · cases h
  · next tag payload =>
    split at h <;> cases h
    case h_1 | h_2 | h_3 => rfl
    case h_4 =>
      have hr := unbias_range 2 (tag.extractLsb' 4 2)
      have hg := unbias_range 2 (tag.extractLsb' 2 2)
      have hb := unbias_range 2 (tag.extractLsb' 0 2)
      rw [Instr.wf_diff]
      push_cast at hr hg hb
      omega
    case h_5 b2 _ =>
      have hg := unbias_range 32 (tag.extractLsb' 0 6)
      have hr := unbias_range 8 (b2.extractLsb' 4 4)
      have hb := unbias_range 8 (b2.extractLsb' 0 4)
      rw [Instr.wf_luma]
      push_cast at hr hg hb
      omega
    case h_6 hk =>
      have hn := (tag_of_run tag hk).1
      rw [Instr.wf_run]
      omega

namespace Machine

/-- A good decoder under a RUN_OVERSHOOT policy: what `State.Inv` asks of each decoder (R135, R181). -/
structure Decoder.Good (policy : RunOvershoot) (d : Decoder) : Prop where
  inv : d.Inv
  internal : policy = .clamp → d.eng.err ≠ .internal

/-- `State.Inv` asks for each decoder and each encoder separately. -/
theorem State.inv_iff (s : State) :
    s.Inv ↔ (∀ d ∈ s.decs, d.Good s.overshoot) ∧ ∀ e ∈ s.encs, e.Inv :=
  ⟨fun h => ⟨fun d hd => ⟨h.decs d hd, fun hp => h.internal hp d hd⟩, h.encs⟩,
    fun h => ⟨fun d hd => (h.1 d hd).inv, h.2, fun hp d hd => (h.1 d hd).internal hp⟩⟩

/-- A decoder between two chunk steps: nothing is in the chunk buffer and no expansion is under way (R27, R130). It is good if
its registers are, wherever its session stands. -/
theorem Decoder.good_between_chunks {policy : RunOvershoot} {d : Decoder} (heng : d.eng.Inv) (hgrid : Memory.wf d.sink)
    (hbuf : d.chunkBuf = []) (hexp : d.expanded = none) (hbusy : d.eng.st = .busy → d.eng.pix.toNat < d.eng.npix.toNat)
    (hdone : d.eng.st = .done → d.eng.pix = d.eng.npix) (hkind : d.eng.err ≠ .ioError)
    (hint : policy = .clamp → d.eng.err ≠ .internal) : d.Good policy where
  inv := {
    eng := heng, busy := hbusy, done := hdone, errorKind := hkind, grid := hgrid
    partialChunk := fun _ => ⟨.noTag, by rw [hbuf]; rfl⟩
    expanding := fun j hj => by rw [hexp] at hj; cases hj
    updated := fun hne => absurd hexp hne
    quiet := fun _ => ⟨hbuf, hexp⟩ }
  internal := hint

section

variable {policy : RunOvershoot} {d : Decoder}

/-- The host's side of a decoder is its own: any answers, and any grid in canonical form (R191). -/
theorem Decoder.Good.withCollaborators (h : d.Good policy) (src : List ReadAnswer) {g : Memory} (hg : Memory.wf g) (n : Nat) :
    Decoder.Good policy { d with source := src, sink := g, pixelAnswers := n } :=
  ⟨⟨h.inv.eng, h.inv.busy, h.inv.done, h.inv.partialChunk, h.inv.expanding, h.inv.updated, h.inv.quiet, h.inv.errorKind, hg⟩,
    h.internal⟩

/-- R131: the stop test of a running session, between two chunk steps. -/
theorem Decoder.good_stopTest (heng : d.eng.Inv) (hgrid : Memory.wf d.sink) (hb : d.eng.st = .busy)
    (hbuf : d.chunkBuf = []) (hexp : d.expanded = none) : d.stopTest.Good policy := by
  rcases d.stopTest_cases with ⟨hlt, hstop⟩ | ⟨hge, hstop⟩ <;> rw [hstop]
  · have herr := heng.err_of_busy hb
    exact Decoder.good_between_chunks heng hgrid hbuf hexp (fun _ => hlt) (by simp [hb]) (by simp [herr]) (by simp [herr])
  · exact Decoder.good_between_chunks heng.finish hgrid hbuf hexp nofun
      (fun _ => BitVec.eq_of_toNat_eq (Nat.le_antisymm heng.cursor hge)) nofun nofun

/-- R134, R182, R185: raising one of the decoder's two errors, INTERNAL only with RUN_OVERSHOOT = fault (R135). -/
theorem Decoder.good_raise (heng : d.eng.Inv) (hgrid : Memory.wf d.sink) {c : ErrorCode} (hnone : c ≠ .none)
    (hio : c ≠ .ioError) (hint : policy = .clamp → c ≠ .internal) : (d.raise c).Good policy :=
  Decoder.good_between_chunks (heng.raise hnone) hgrid rfl rfl nofun nofun hio hint

/-! ## A chunk step that has fetched its chunk -/

/-- A decoder in the middle of a chunk step: BUSY with pixels needed, chunk `i` whole in its chunk buffer (R122, R129). -/
structure Decoder.Holds (d : Decoder) (i : Instr) : Prop where
  eng : d.eng.Inv
  grid : Memory.wf d.sink
  busy : d.eng.st = .busy
  needs : d.eng.pix.toNat < d.eng.npix.toNat
  whole : decodeChunk d.chunkBuf = .unit i []

/-- R130: a chunk writes at least one pixel, at most 62, and none outside the image. -/
theorem Decoder.Holds.needed_range {i : Instr} (h : d.Holds i) :
    1 ≤ d.needed (chunkRun i) ∧ d.needed (chunkRun i) ≤ 62 ∧ d.eng.pix.toNat + d.needed (chunkRun i) ≤ d.eng.npix.toNat := by
  have hrun := chunkRun_range (wf_of_decodeChunk h.whole)
  have hneeds := h.needs
  unfold Decoder.needed
  omega

/-- R130, R193: the expansion, with the common update made, either waits for the pixel sink inside its chunk or ends the chunk
step; the decoder is good after both. -/
theorem Decoder.Holds.writeChunk_good {i : Instr} (h : d.Holds i) (kind : ChunkKind) (len : Nat) {j : Nat}
    (hj : j ≤ d.needed (chunkRun i)) (hprev : d.eng.cacheRead (pixelHash d.eng.prev) = d.eng.prev) :
    (d.writeChunk d.eng.prev (d.needed (chunkRun i)) kind len j).Good policy := by
  obtain ⟨hlo, hhi, hfit⟩ := h.needed_range
  by_cases hwait : j + d.pixelAnswers < d.needed (chunkRun i)
  · rw [Decoder.writeChunk_waits _ _ _ _ _ hwait]
    have herr := h.eng.err_of_busy h.busy
    exact {
      inv := {
        eng := h.eng, busy := fun _ => h.needs, grid := Memory.fill_wf _ _ _ _ h.grid
        done := by simp [h.busy]
        partialChunk := nofun
        expanding := fun _ hx => ⟨i, h.whole, Option.some.inj hx ▸ hwait⟩
        updated := fun _ => hprev
        quiet := fun hb => absurd h.busy hb
        errorKind := by simp [herr] }
      internal := by simp [herr] }
  · rw [Decoder.writeChunk_ends _ _ _ _ _ hj (by omega)]
    exact Decoder.good_stopTest (h.eng.endChunk kind len hlo hhi hfit) (Memory.fill_wf _ _ _ _ h.grid) h.busy rfl rfl

/-- R129, R133: a chunk step that begins its commit either raises INTERNAL, with RUN_OVERSHOOT = fault only, or makes the common
update and expands. -/
theorem Decoder.Holds.commit_begins_good {i : Instr} (h : d.Holds i) (hexp : d.expanded = none) (px : Pixel)
    (kind : ChunkKind) (len : Nat) : (d.commit policy px (chunkRun i) kind len).Good policy := by
  by_cases hfits : policy = .clamp ∨ d.eng.pix.toNat + chunkRun i ≤ d.eng.npix.toNat
  · rw [Decoder.commit_begins policy px _ kind len hexp hfits]
    have hupd : Decoder.Holds { d with eng := d.eng.update px } i := ⟨h.eng.update px, h.grid, h.busy, h.needs, h.whole⟩
    exact hupd.writeChunk_good kind len (Nat.zero_le _) (Engine.cacheRead_update_self px d.eng)
  · obtain ⟨hpolicy, hover⟩ := not_or.mp hfits
    obtain rfl : policy = .fault := by cases policy <;> trivial
    rw [Decoder.commit_overshoot px _ kind len hexp h.needs (by omega)]
    exact Decoder.good_raise h.eng h.grid nofun nofun nofun

/-- R130: a chunk step that has waited for the pixel sink goes on where it stood. -/
theorem Decoder.Holds.commit_goesOn_good {i : Instr} (h : d.Holds i) (hinv : d.Inv) {j : Nat} (hexp : d.expanded = some j)
    (px : Pixel) (kind : ChunkKind) (len : Nat) : (d.commit policy px (chunkRun i) kind len).Good policy := by
  rw [Decoder.commit_goesOn policy px _ kind len hexp]
  obtain ⟨i', hwhole, hj⟩ := hinv.expanding j hexp
  obtain rfl : i' = i := by simpa [h.whole] using hwhole.symm
  exact h.writeChunk_good kind len hj.le (hinv.updated (by simp [hexp]))

/-- Running the chunk that is held is its commit (R122). -/
theorem Decoder.Holds.runChunk_eq {i : Instr} (h : d.Holds i) (policy : RunOvershoot) :
    d.runChunk policy i = d.commit policy (chunkPixel i d.eng) (chunkRun i) (chunkOp i) i.byteLength :=
  Decoder.whileBusy_of_busy _ h.busy h.needs

/-! ## A turn -/

/-- A good decoder never has more than one chunk in its chunk buffer (R27). -/
theorem Decoder.Inv.rest_of_chunkBuf (h : d.Inv) {i : Instr} {rest : List Byte} (hd : decodeChunk d.chunkBuf = .unit i rest) :
    rest = [] := by
  cases hexp : d.expanded with
  | none =>
    obtain ⟨why, hrej⟩ := h.partialChunk hexp
    rw [hd] at hrej
    cases hrej
  | some j =>
    obtain ⟨i', hwhole, -⟩ := h.expanding j hexp
    rw [hd] at hwhole
    cases hwhole
    rfl

/-- R122, R130: a chunk step of a BUSY decoder. One that waits for the pixel sink goes on with its chunk; any other reads bytes,
and runs the chunk once it is whole, waits for the byte source, or ends the session with TRUNCATION (R134). -/
theorem Decoder.Inv.turn_good_of_busy (h : d.Inv) (hb : d.eng.st = .busy) : (d.turn policy).Good policy := by
  have hneeds := h.busy hb
  rw [Decoder.turn, if_neg (by simp [hb]), if_pos (by simp [Decoder.needsPixels, hneeds])]
  cases hexp : d.expanded with
  | some j =>
    obtain ⟨i, hwhole, -⟩ := h.expanding j hexp
    have hholds : d.Holds i := ⟨h.eng, h.grid, hb, hneeds, hwhole⟩
    have hfetch : d.fetch fetchFuel = .chunk i d := Decoder.fetch_whole hwhole 5
    simp only [hfetch, hholds.runChunk_eq]
    exact hholds.commit_goesOn_good h hexp _ _ _
  | none =>
    have hfetch := d.fetch_cases fetchFuel (by decide) (by simp [fetchFuel]) fun i rest => h.rest_of_chunkBuf
    revert hfetch
    cases d.fetch fetchFuel with
    | chunk i d' =>
      rintro ⟨⟨b, buf, src, hd'⟩, hwhole⟩
      have hholds : d'.Holds i := by
        subst hd'
        exact ⟨h.eng.withBytes b, h.grid, hb, hneeds, hwhole⟩
      simp only [hholds.runChunk_eq]
      exact hholds.commit_begins_good (by rw [hd', hexp]) _ _ _
    | waiting d' =>
      rintro ⟨⟨b, buf, src, rfl⟩, hrej⟩
      have herr := h.eng.err_of_busy hb
      exact {
        inv := {
          eng := h.eng.withBytes b, busy := h.busy, done := h.done, errorKind := h.errorKind, grid := h.grid
          partialChunk := fun _ => hrej
          expanding := fun j hj => by rw [hexp] at hj; cases hj
          updated := h.updated
          quiet := fun hq => absurd hb hq }
        internal := by simp [herr] }
    | truncated d' =>
      rintro ⟨b, src, rfl⟩
      exact Decoder.good_raise (d := { d with eng := { d.eng with bytes := b }, source := src }) (c := .truncation)
        (h.eng.withBytes b) h.grid nofun nofun nofun

/-- R193: a decoder that is not BUSY keeps all its state on its turn. -/
theorem Decoder.turn_of_not_busy (policy : RunOvershoot) (hb : d.eng.st ≠ .busy) : d.turn policy = d := by
  rw [Decoder.turn, if_pos hb]

/-- R120 to R136: a turn keeps a decoder good. -/
theorem Decoder.Good.turn (h : d.Good policy) : (d.turn policy).Good policy := by
  by_cases hb : d.eng.st = .busy
  · exact h.inv.turn_good_of_busy hb
  · rwa [Decoder.turn_of_not_busy policy hb]

/-! ## The host's actions -/

/-- R201, R131: a session starts with an empty chunk buffer, and may end at once. -/
theorem Decoder.Good.start (h : d.Good policy) : d.start.Good policy :=
  Decoder.good_stopTest h.inv.eng.startSession h.inv.grid rfl rfl rfl

/-- R31: a write that starts a session. -/
theorem Decoder.writeReg_of_start {offset : Nat} {v : Word32} (hs : d.eng.isStart offset v = true) :
    d.writeReg offset v = d.start := by
  rw [Decoder.writeReg, if_pos hs]

/-- R33: any other register write. -/
theorem Decoder.writeReg_of_not_start {offset : Nat} {v : Word32} (hs : ¬ d.eng.isStart offset v = true) :
    d.writeReg offset v = { d with eng := d.eng.writeExtent offset v } := by
  rw [Decoder.writeReg, if_neg hs]

/-- R31, R33, R211: a register write while BUSY. -/
theorem Decoder.writeReg_of_busy (hb : d.eng.st = .busy) (offset : Nat) (v : Word32) : d.writeReg offset v = d := by
  rw [Decoder.writeReg_of_not_start (by simp [Engine.isStart_iff, hb]), Engine.writeExtent_of_busy hb]

/-- R31, R33: a register write keeps a decoder good. -/
theorem Decoder.Good.writeReg (h : d.Good policy) (offset : Nat) (v : Word32) : (d.writeReg offset v).Good policy := by
  by_cases hb : d.eng.st = .busy
  · rwa [Decoder.writeReg_of_busy hb]
  by_cases hs : d.eng.isStart offset v = true
  · rw [Decoder.writeReg_of_start hs]
    exact h.start
  · rw [Decoder.writeReg_of_not_start hs, Engine.writeExtent_of_not_busy hb]
    obtain ⟨hbuf, hexp⟩ := h.inv.quiet hb
    exact Decoder.good_between_chunks (h.inv.eng.withExtent hb _ _) h.inv.grid hbuf hexp h.inv.busy h.inv.done
      h.inv.errorKind h.internal

/-- R200: power-on reset keeps a decoder good. -/
theorem Decoder.Good.resetPower (h : d.Good policy) : d.resetPower.Good policy :=
  Decoder.good_between_chunks h.inv.eng.resetPower h.inv.grid rfl rfl nofun nofun nofun nofun

/-- R200: a decoder after power-on reset is good. -/
theorem Decoder.good_powerOn (policy : RunOvershoot) : Decoder.powerOn.Good policy :=
  Decoder.good_between_chunks Engine.inv_powerOn List.Pairwise.nil rfl rfl nofun nofun nofun nofun

end

end Machine

end Sys2Proof
end

section
/-! PROOF. Encoders: each operation keeps an encoder good, and so does a turn (R150 to R169). -/

namespace Sys2Proof.Machine

/-! ## What an encoder selects (R150 to R152) -/

section

variable {e : Encoder}

/-- R25, R152: where the lookahead begins is inside the image and at most 62, with a pixel at `ECUR`. -/
theorem Encoder.Inv.lookahead_start (h : e.Inv) (hn : e.eng.pix.toNat < e.eng.npix.toNat) :
    max 1 e.erun ≤ 62 ∧ e.eng.pix.toNat + max 1 e.erun ≤ e.eng.npix.toNat := by
  obtain ⟨hmax, hfit⟩ := h.run
  have hmax' : e.erun ≤ 62 := hmax
  omega

/-- R152, R168: the unit selected for a pixel is a chunk, of 1 to 62 pixels inside the image. -/
theorem Encoder.Inv.selectFor_fits (h : e.Inv) (hn : e.eng.pix.toNat < e.eng.npix.toNat) {px : Pixel} {i : Instr}
    (hs : e.selectFor px = .unit i) :
    i ≠ .endMarker ∧ 1 ≤ chunkRun i ∧ chunkRun i ≤ 62 ∧ e.eng.pix.toNat + chunkRun i ≤ e.eng.npix.toNat := by
  rcases Encoder.selectFor_cases hs with ⟨-, hrun⟩ | ⟨-, -, rfl⟩ | ⟨-, -, rfl⟩ | ⟨-, -, rfl⟩ | ⟨-, -, rfl⟩ | ⟨-, -, rfl⟩
  case inl =>
    obtain ⟨hmax, hfit⟩ := h.lookahead_start hn
    obtain ⟨n, rfl, hlo, hhi, hend, -⟩ := Encoder.lookahead_run Config.runMax _ hmax hfit hrun
    exact ⟨nofun, (Nat.le_max_left 1 e.erun).trans hlo, hhi, hend⟩
  all_goals exact ⟨nofun, Nat.le_refl 1, (by decide : 1 ≤ 62), hn⟩

/-- R150: END is selected only once all NPIX source pixels are consumed. -/
theorem Encoder.Inv.consumed_of_select_end (h : e.Inv) (hs : e.select = .unit .endMarker) : e.eng.pix = e.eng.npix := by
  refine BitVec.eq_of_toNat_eq (Nat.le_antisymm h.eng.cursor ?_)
  by_contra hlt
  have hn : e.eng.pix.toNat < e.eng.npix.toNat := by omega
  cases hp : e.srcPixel 0 with
  | none => simp [Encoder.select, hn, hp] at hs
  | some px =>
    rw [Encoder.select_eq hn hp] at hs
    exact (h.selectFor_fits hn hs).1 rfl

/-- R25, R152: when the encoder waits for the pixel source, the count that it keeps is of source pixels equal to `prev`, at most
62 and inside the image. -/
theorem Encoder.Inv.waitSource_count (h : e.Inv) {n : Nat} (hs : e.select = .waitSource n) :
    n ≤ 62 ∧ e.eng.pix.toNat + n ≤ e.eng.npix.toNat ∧ ∀ j < n, e.srcPixel j = some e.eng.prev := by
  by_cases hn : e.eng.pix.toNat < e.eng.npix.toNat
  · cases hp : e.srcPixel 0 with
    | none =>
      obtain rfl : e.erun = n := by simpa [Encoder.select, hn, hp] using hs
      exact ⟨h.run.1, h.run.2, h.runPixels⟩
    | some px =>
      rw [Encoder.select_eq hn hp, Encoder.selectFor] at hs
      split at hs
      · next heq =>
        subst heq
        obtain ⟨-, hmax, hfit, -, hpixels⟩ := Encoder.lookahead_wait _ _ hs
        refine ⟨hmax.le, hfit.le, fun j hj => ?_⟩
        rcases Nat.lt_or_ge j (max 1 e.erun) with hlt | hge
        · rcases Nat.eq_zero_or_pos j with rfl | hpos
          · exact hp
          · exact h.runPixels j (by omega)
        · exact hpixels j hge hj
      · split_ifs at hs
  · rw [Encoder.select_end (Nat.le_of_not_lt hn)] at hs
    cases hs

/-! ### More of the pixel source (R54, R67) -/

variable {g : Memory}

/-- R67: a lookahead that has ended comes out the same with more pixels answered. -/
theorem Encoder.lookahead_withSource
    (hmore : ∀ n q, e.srcPixel n = some q → Encoder.srcPixel { e with source := g } n = some q) {px : Pixel} {i : Instr} :
    ∀ fuel m, e.lookahead px fuel m = .unit i → Encoder.lookahead { e with source := g } px fuel m = .unit i
  | 0, _, h => h
  | fuel + 1, m, h => by
    unfold Encoder.lookahead at h ⊢
    split at h
    · next hc =>
      rw [if_pos hc]
      split at h
      · cases h
      · next q hq =>
        rw [hmore m q hq]
        split at h
        · next heq => simpa only [if_pos heq] using Encoder.lookahead_withSource hmore fuel (m + 1) h
        · next hne => simpa only [if_neg hne] using h
    · next hc => rwa [if_neg hc]

/-- R67, R151: a unit that is selected stays selected with more pixels answered. -/
theorem Encoder.select_withSource
    (hmore : ∀ n q, e.srcPixel n = some q → Encoder.srcPixel { e with source := g } n = some q) {i : Instr}
    (h : e.select = .unit i) : Encoder.select { e with source := g } = .unit i := by
  by_cases hn : e.eng.pix.toNat < e.eng.npix.toNat
  · cases hp : e.srcPixel 0 with
    | none => simp [Encoder.select, hn, hp] at h
    | some px =>
      rw [Encoder.select_eq hn hp, Encoder.selectFor] at h
      rw [Encoder.select_eq (e := { e with source := g }) hn (hmore 0 px hp), Encoder.selectFor]
      split at h
      · next hr =>
        rw [if_pos hr]
        exact Encoder.lookahead_withSource hmore _ _ h
      · next hr => rwa [if_neg hr]
  · have hge := Nat.le_of_not_lt hn
    rw [Encoder.select_end hge] at h
    rwa [Encoder.select_end (e := { e with source := g }) hge]

/-! ## Good encoders -/

/-- An encoder between two units: no count and no emitted byte is kept (R25). It is good if its registers are. -/
theorem Encoder.inv_between_units (heng : e.eng.Inv) (hgrid : Memory.wf e.source) (herun : e.erun = 0) (hepos : e.epos = 0)
    (hdone : e.eng.st = .done → e.eng.pix = e.eng.npix) (hkind : e.eng.err = .none ∨ e.eng.err = .ioError) : e.Inv where
  eng := heng
  done := hdone
  quiet _ := ⟨herun, hepos⟩
  run := by rw [herun]; exact ⟨Nat.zero_le _, heng.cursor⟩
  runPixels j hj := by rw [herun] at hj; exact absurd hj (Nat.not_lt_zero j)
  emitting := .inl hepos
  errorKind := hkind
  grid := hgrid

/-- The byte sink is the host's own: any answers, any contents (R53, R191). -/
theorem Encoder.Inv.withSink (h : e.Inv) (as : List EmitAnswer) (bs : List Byte) :
    Encoder.Inv { e with answers := as, sink := bs } where
  eng := h.eng
  done := h.done
  quiet := h.quiet
  run := h.run
  runPixels := h.runPixels
  emitting := h.emitting.imp_right fun ⟨i, hsel, hpos⟩ =>
    ⟨i, (Encoder.select_congr (e := e) rfl rfl rfl rfl rfl rfl).trans hsel, hpos⟩
  errorKind := h.errorKind
  grid := h.grid

/-- R67: the pixel source may be set outside a session, and in one if every pixel already given stays. -/
theorem Encoder.Inv.withSource (h : e.Inv) (hg : Memory.wf g)
    (hext : e.eng.st = .busy → Memory.extendedBy e.source g = true) : Encoder.Inv { e with source := g } := by
  by_cases hb : e.eng.st = .busy
  · have hmore : ∀ n q, e.srcPixel n = some q → Encoder.srcPixel { e with source := g } n = some q :=
      fun n q => Memory.read_of_extendedBy (hext hb)
    exact {
      eng := h.eng, done := h.done, quiet := h.quiet, run := h.run, errorKind := h.errorKind, grid := hg
      runPixels := fun j hj => hmore j _ (h.runPixels j hj)
      emitting := h.emitting.imp_right fun ⟨i, hsel, hpos⟩ =>
        ⟨i, Encoder.select_withSource hmore hsel, hpos⟩ }
  · obtain ⟨herun, hepos⟩ := h.quiet hb
    exact Encoder.inv_between_units h.eng hg herun hepos h.done h.errorKind

/-! ## A turn -/

/-- R25, R54, R193: the encoder waits for the pixel source and keeps its count; no byte of a unit is out. -/
theorem Encoder.Inv.waits_for_source (h : e.Inv) (hb : e.eng.st = .busy) {n : Nat} (hs : e.select = .waitSource n) :
    Encoder.Inv { e with erun := n } := by
  obtain ⟨hmax, hfit, hpixels⟩ := h.waitSource_count hs
  exact {
    eng := h.eng, done := h.done, errorKind := h.errorKind, grid := h.grid
    quiet := fun hq => absurd hb hq
    run := ⟨hmax, hfit⟩
    runPixels := hpixels
    emitting := .inl <| h.emitting.resolve_right fun ⟨i, hsel, _⟩ => by rw [hs] at hsel; cases hsel }

/-- R151: the bytes of the selected unit are not all out. -/
theorem Encoder.Inv.epos_lt (h : e.Inv) {i : Instr} (hs : e.select = .unit i) : e.epos < (encode i).length := by
  rcases h.emitting with h0 | ⟨i', hs', hpos⟩
  · rw [h0]
    exact encode_length_pos i
  · rw [hs] at hs'
    cases hs'
    exact hpos

/-- R53: everything that the emission of the rest of a unit comes to. Every byte is accepted and the unit is finished; or the sink
accepts some and has not answered the next; or it accepts some and fails the next. -/
theorem Encoder.emit_cases {bytes : List Byte} (hpos : e.epos < bytes.length) (fin : Encoder → Encoder) :
    (∃ b as bs, e.emit bytes fin =
      fin { e with eng := { e.eng with bytes := b }, answers := as, sink := bs, epos := bytes.length }) ∨
    (∃ b bs p, p < bytes.length ∧ e.emit bytes fin =
      { e with eng := { e.eng with bytes := b }, answers := [], sink := bs, epos := p }) ∨
    (∃ b as bs, e.emit bytes fin =
      Encoder.raise .ioError { e with eng := { e.eng with bytes := b }, answers := as, sink := bs }) := by
  have hlen : (bytes.drop e.epos).length = bytes.length - e.epos := List.length_drop
  rcases answers_cases (bytes.length - e.epos) e.answers with ⟨rest, has⟩ | ⟨j, hj, has⟩ | ⟨j, more, hj, has⟩
  · exact .inl ⟨_, _, _, Encoder.emit_ok bytes fin e rest ⟨hpos.le, has⟩⟩
  · refine .inr (.inl ⟨e.eng.bytes + BitVec.ofNat 64 j, e.sink ++ (bytes.drop e.epos).take j, e.epos + j, by omega, ?_⟩)
    rw [Encoder.emit, Encoder.emitBytes_wait _ e j (by omega) has]
  · refine .inr (.inr ⟨e.eng.bytes + BitVec.ofNat 64 j, more, e.sink ++ (bytes.drop e.epos).take j, ?_⟩)
    rw [Encoder.emit, Encoder.emitBytes_fail _ e j (by omega) more has]
    rfl

/-- R164: a chunk of 1 to 62 pixels inside the image is committed. -/
theorem Encoder.inv_commit (heng : e.eng.Inv) (hgrid : Memory.wf e.source) (hb : e.eng.st = .busy) (px : Pixel)
    (kind : ChunkKind) (len : Nat) {m : Nat} (hlo : 1 ≤ m) (hhi : m ≤ 62) (hfit : e.eng.pix.toNat + m ≤ e.eng.npix.toNat) :
    (e.commit px m kind len).Inv :=
  Encoder.inv_between_units ((heng.update px).endChunk kind len hlo hhi hfit) hgrid rfl rfl (by simp [hb])
    (.inl (heng.err_of_busy hb))

/-- R150, R166: the session ends after the end marker, with every source pixel consumed. -/
theorem Encoder.inv_finish (heng : e.eng.Inv) (hgrid : Memory.wf e.source) (hall : e.eng.pix = e.eng.npix) : e.finish.Inv :=
  Encoder.inv_between_units heng.finish hgrid rfl rfl (fun _ => hall) (.inl rfl)

/-- R167, R185: the one error an encoder raises. -/
theorem Encoder.inv_raise_ioError (heng : e.eng.Inv) (hgrid : Memory.wf e.source) : (e.raise .ioError).Inv :=
  Encoder.inv_between_units (heng.raise nofun) hgrid rfl rfl nofun (.inr rfl)

/-- R164, R166: once its bytes are out, the unit that was selected is finished, whatever the byte sink held and answers. -/
theorem Encoder.Inv.finishUnit_inv (h : e.Inv) (hb : e.eng.st = .busy) {i : Instr} (hs : e.select = .unit i) (px : Pixel)
    (b : Word64) (as : List EmitAnswer) (bs : List Byte) (p : Nat) :
    (Encoder.finishUnit i px { e with eng := { e.eng with bytes := b }, answers := as, sink := bs, epos := p }).Inv := by
  by_cases hi : i = .endMarker
  · subst hi
    exact Encoder.inv_finish (h.eng.withBytes b) h.grid (h.consumed_of_select_end hs)
  · obtain ⟨hn, q, -, hsel⟩ := Encoder.pixel_of_select hs hi
    obtain ⟨-, hlo, hhi, hfit⟩ := h.selectFor_fits hn hsel
    have hfin : Encoder.finishUnit i px = Encoder.commit px (chunkRun i) (chunkOp i) (encode i).length := by
      cases i <;> trivial
    rw [hfin]
    refine Encoder.inv_commit ?_ ?_ ?_ px _ _ hlo hhi ?_
    exacts [h.eng.withBytes b, h.grid, hb, hfit]

/-- R193, R151: the byte sink has not answered for all of the selected unit, which stays the selected one. -/
theorem Encoder.Inv.waits_for_sink (h : e.Inv) (hb : e.eng.st = .busy) {i : Instr} (hs : e.select = .unit i) (b : Word64)
    (bs : List Byte) {p : Nat} (hp : p < (encode i).length) :
    Encoder.Inv { e with eng := { e.eng with bytes := b }, answers := [], sink := bs, epos := p } where
  eng := h.eng.withBytes b
  done := h.done
  quiet hq := absurd hb hq
  run := h.run
  runPixels := h.runPixels
  emitting := .inr ⟨i, (Encoder.select_congr (e := e) rfl rfl rfl rfl rfl rfl).trans hs, hp⟩
  errorKind := h.errorKind
  grid := h.grid

/-- R193: an encoder that is not BUSY keeps all its state on its turn. -/
theorem Encoder.turn_of_not_busy (hb : e.eng.st ≠ .busy) : e.turn = e := by
  rw [Encoder.turn, if_pos hb]

/-- R150 to R169: a turn keeps an encoder good. -/
theorem Encoder.Inv.turn (h : e.Inv) : e.turn.Inv := by
  by_cases hb : e.eng.st = .busy
  · rw [Encoder.turn, if_neg (by simp [hb])]
    cases hs : e.select with
    | waitSource n => exact h.waits_for_source hb hs
    | unit i =>
      dsimp only
      generalize (e.srcPixel 0).getD Config.cacheReset = px
      rcases Encoder.emit_cases (h.epos_lt hs) (Encoder.finishUnit i px) with
        ⟨b, as, bs, hemit⟩ | ⟨b, bs, p, hp, hemit⟩ | ⟨b, as, bs, hemit⟩ <;> rw [hemit]
      · exact h.finishUnit_inv hb hs px b as bs _
      · exact h.waits_for_sink hb hs b bs hp
      · exact Encoder.inv_raise_ioError (h.eng.withBytes b) h.grid
  · rwa [Encoder.turn_of_not_busy hb]

/-! ## The host's actions -/

/-- R31: a write that starts a session. -/
theorem Encoder.writeReg_of_start {offset : Nat} {v : Word32} (hs : e.eng.isStart offset v = true) :
    e.writeReg offset v = e.start := by
  rw [Encoder.writeReg, if_pos hs]

/-- R33: any other register write. -/
theorem Encoder.writeReg_of_not_start {offset : Nat} {v : Word32} (hs : ¬ e.eng.isStart offset v = true) :
    e.writeReg offset v = { e with eng := e.eng.writeExtent offset v } := by
  rw [Encoder.writeReg, if_neg hs]

/-- R31, R33, R211: a register write while BUSY. -/
theorem Encoder.writeReg_of_busy (hb : e.eng.st = .busy) (offset : Nat) (v : Word32) : e.writeReg offset v = e := by
  rw [Encoder.writeReg_of_not_start (by simp [Engine.isStart_iff, hb]), Engine.writeExtent_of_busy hb]

/-- R31, R33: a register write keeps an encoder good. -/
theorem Encoder.Inv.writeReg (h : e.Inv) (offset : Nat) (v : Word32) : (e.writeReg offset v).Inv := by
  by_cases hb : e.eng.st = .busy
  · rwa [Encoder.writeReg_of_busy hb]
  by_cases hs : e.eng.isStart offset v = true
  · rw [Encoder.writeReg_of_start hs]
    exact Encoder.inv_between_units h.eng.startSession h.grid rfl rfl nofun (.inl rfl)
  · rw [Encoder.writeReg_of_not_start hs, Engine.writeExtent_of_not_busy hb]
    obtain ⟨herun, hepos⟩ := h.quiet hb
    exact Encoder.inv_between_units (h.eng.withExtent hb _ _) h.grid herun hepos h.done h.errorKind

/-- R200: power-on reset keeps an encoder good. -/
theorem Encoder.Inv.resetPower (h : e.Inv) : e.resetPower.Inv :=
  Encoder.inv_between_units h.eng.resetPower h.grid rfl rfl nofun (.inl rfl)

/-- R200: an encoder after power-on reset is good. -/
theorem Encoder.inv_powerOn : Encoder.powerOn.Inv :=
  Encoder.inv_between_units Engine.inv_powerOn List.Pairwise.nil rfl rfl nofun (.inl rfl)

end

end Sys2Proof.Machine
end

section
/-! PROOF. What the host's actions can have done, and that every step keeps a good state (R189, R191, R200). -/

namespace Sys2Proof.Machine

/-! ## What a host action that is answered has done -/

/-- The effect of each host action that answers a next state: a register write, a register read, a change of what one decoder's or
one encoder's collaborators answer and hold, or power-on reset. -/
inductive State.HostEffect (s : State) : Action → State → Prop where
  | writeDec (k offset : Nat) (v : Word32) (d : Decoder) (hd : s.decs[k]? = some d) :
    HostEffect s (.regWrite (.dec k) offset v) (s.setDec k (d.writeReg offset v))
  | writeEnc (k offset : Nat) (v : Word32) (e : Encoder) (he : s.encs[k]? = some e) :
    HostEffect s (.regWrite (.enc k) offset v) (s.setEnc k (e.writeReg offset v))
  | read (a : Agent) (offset : Nat) (v : Word32) : HostEffect s (.regRead a offset) { s with busData := v }
  | decCollaborators (act : Action) (k : Nat) (d : Decoder) (hd : s.decs[k]? = some d) (source : List ReadAnswer)
    (sink : Memory) (hsink : sink = d.sink ∨ Memory.wf sink) (n : Nat) :
    HostEffect s act (s.setDec k { d with source := source, sink := sink, pixelAnswers := n })
  | pixelSource (act : Action) (k : Nat) (e : Encoder) (he : s.encs[k]? = some e) (source : Memory) (hwf : Memory.wf source)
    (hext : e.eng.st = .busy → Memory.extendedBy e.source source = true) :
    HostEffect s act (s.setEnc k { e with source := source })
  | byteSink (act : Action) (k : Nat) (e : Encoder) (he : s.encs[k]? = some e) (answers : List EmitAnswer)
    (sink : List Byte) : HostEffect s act (s.setEnc k { e with answers := answers, sink := sink })
  | powerOn : HostEffect s .powerOn s.powerOn

section

variable {s s' : State}

theorem State.regWrite_next {a : Agent} {offset : Nat} {v : Word32} (h : s.regWrite a offset v = .next s') :
    s.HostEffect (.regWrite a offset v) s' := by
  unfold State.regWrite at h
  split at h
  · cases h
  · cases a with
    | dec k =>
      dsimp only at h
      split at h <;> cases h
      next d hd => exact .writeDec k offset v d hd
    | enc k =>
      dsimp only at h
      split at h <;> cases h
      next e he => exact .writeEnc k offset v e he

theorem State.regRead_next {a : Agent} {offset : Nat} (h : s.regRead a offset = .next s') :
    s.HostEffect (.regRead a offset) s' := by
  unfold State.regRead at h
  split at h
  · cases h
  · cases a with
    | dec k =>
      dsimp only at h
      split at h <;> cases h
      exact .read _ _ _
    | enc k =>
      dsimp only at h
      split at h <;> cases h
      exact .read _ _ _

/-- Everything that a host action which answers a next state can have done. -/
theorem State.hostAction_next {act : Action} (hact : ∀ a, act ≠ .turn a) (h : s.hostAction act = .next s') :
    s.HostEffect act s' := by
  cases act with
  | turn a => exact absurd rfl (hact a)
  | regWrite a offset v => exact State.regWrite_next h
  | regRead a offset => exact State.regRead_next h
  | byteSource k answers =>
    obtain ⟨d, _, hd, hok, rfl⟩ := State.hostDec_next h
    cases hok
    exact .decCollaborators _ k d hd answers d.sink (.inl rfl) d.pixelAnswers
  | pixelSink k cells =>
    obtain ⟨d, _, hd, hok, rfl⟩ := State.hostDec_next h
    cases hok
    exact .decCollaborators _ k d hd d.source _ (.inr (Memory.ofCells_wf cells)) d.pixelAnswers
  | pixelAnswers k n =>
    obtain ⟨d, _, hd, hok, rfl⟩ := State.hostDec_next h
    cases hok
    exact .decCollaborators _ k d hd d.source d.sink (.inl rfl) n
  | pixelSource k cells =>
    obtain ⟨e, _, he, hok, rfl⟩ := State.hostEnc_next h
    obtain ⟨rfl, hext⟩ := Encoder.provideSource_ok hok
    exact .pixelSource _ k e he _ (Memory.ofCells_wf cells) hext
  | sinkAnswers k answers =>
    obtain ⟨e, _, he, hok, rfl⟩ := State.hostEnc_next h
    cases hok
    exact .byteSink _ k e he answers e.sink
  | byteSink k contents =>
    obtain ⟨e, _, he, hok, rfl⟩ := State.hostEnc_next h
    cases hok
    exact .byteSink _ k e he e.answers contents
  | powerOn =>
    cases h
    exact .powerOn

/-! ## Good states -/

/-- The agenda, the turn and the read data are no part of a good state. -/
theorem State.Inv.withControl (h : s.Inv) (busData : Word32) (turn : Agent) (agenda : List Action) :
    State.Inv { s with busData := busData, turn := turn, agenda := agenda } :=
  ⟨h.decs, h.encs, h.internal⟩

/-- In a good state every decoder is good under the state's policy. -/
theorem State.Inv.dec_good (h : s.Inv) {k : Nat} {d : Decoder} (hd : s.decs[k]? = some d) : d.Good s.overshoot :=
  (s.inv_iff.mp h).1 d (List.mem_of_getElem? hd)

/-- In a good state every encoder is good. -/
theorem State.Inv.enc_inv (h : s.Inv) {k : Nat} {e : Encoder} (he : s.encs[k]? = some e) : e.Inv :=
  h.encs e (List.mem_of_getElem? he)

/-- One decoder becomes another good one. -/
theorem State.Inv.setDec (h : s.Inv) (k : Nat) {d : Decoder} (hd : d.Good s.overshoot) : (s.setDec k d).Inv := by
  obtain ⟨hdecs, hencs⟩ := s.inv_iff.mp h
  refine (State.inv_iff _).mpr ⟨fun d' hd' => ?_, hencs⟩
  rcases List.mem_or_eq_of_mem_set hd' with hold | rfl
  · exact hdecs d' hold
  · exact hd

/-- One encoder becomes another good one. -/
theorem State.Inv.setEnc (h : s.Inv) (k : Nat) {e : Encoder} (he : e.Inv) : (s.setEnc k e).Inv := by
  refine ⟨h.decs, fun e' he' => ?_, h.internal⟩
  rcases List.mem_or_eq_of_mem_set he' with hold | rfl
  · exact h.encs e' hold
  · exact he

/-- R200: power-on reset of a good block. -/
theorem State.Inv.powerOn (h : s.Inv) : s.powerOn.Inv := by
  obtain ⟨hdecs, hencs⟩ := s.inv_iff.mp h
  refine (State.inv_iff _).mpr ⟨fun d hd => ?_, fun e he => ?_⟩
  · obtain ⟨d, hmem, rfl⟩ := List.mem_map.mp hd
    exact (hdecs d hmem).resetPower
  · obtain ⟨e, hmem, rfl⟩ := List.mem_map.mp he
    exact (hencs e hmem).resetPower

/-- R191, R30, R200: whatever the host does keeps a good state. -/
theorem State.HostEffect.inv {act : Action} (heff : s.HostEffect act s') (h : s.Inv) : s'.Inv := by
  cases heff with
  | writeDec k offset v d hd => exact h.setDec k ((h.dec_good hd).writeReg offset v)
  | writeEnc k offset v e he => exact h.setEnc k ((h.enc_inv he).writeReg offset v)
  | read a offset v => exact h.withControl v s.turn s.agenda
  | decCollaborators _ k d hd source sink hsink n =>
    have hgood := h.dec_good hd
    have hwf : Memory.wf sink := hsink.elim (fun heq => heq ▸ hgood.inv.grid) id
    exact h.setDec k (hgood.withCollaborators source hwf n)
  | pixelSource _ k e he source hwf hext => exact h.setEnc k ((h.enc_inv he).withSource hwf hext)
  | byteSink _ k e he answers sink => exact h.setEnc k ((h.enc_inv he).withSink answers sink)
  | powerOn => exact h.powerOn

/-- The invariant's step lemma: a turn keeps its instance good, a host action all of them, and an idle step changes nothing. -/
theorem State.Inv.step (h : s.Inv) (hstep : Machine.step s = .next s') : s'.Inv := by
  rcases step_cases hstep with ⟨-, rfl⟩ | ⟨a, k, d, -, rfl, hd, rfl⟩ | ⟨a, k, e, -, rfl, he, rfl⟩ |
    ⟨act, agenda, -, hact, hhost⟩
  · exact h
  · exact (h.withControl s.busData (.dec k) s.agenda.tail).setDec k (h.dec_good hd).turn
  · exact (h.withControl s.busData (.enc k) s.agenda.tail).setEnc k (h.enc_inv he).turn
  · exact (State.hostAction_next hact hhost).inv (h.withControl s.busData s.turn agenda)

end

/-- R37, R39, R200: the state after reset, for any numbers of instances. -/
theorem State.inv_resetWith (nDec nEnc : Nat) (policy : RunOvershoot) : (State.resetWith nDec nEnc policy).Inv := by
  refine (State.inv_iff _).mpr ⟨fun d hd => ?_, fun e he => ?_⟩
  · obtain rfl := List.eq_of_mem_replicate hd
    exact Decoder.good_powerOn policy
  · obtain rfl := List.eq_of_mem_replicate he
    exact Encoder.inv_powerOn

end Sys2Proof.Machine

section

open Sys2Proof Sys2Proof.Machine

/-- Settles O48: the step's cases, each a lemma that its operation keeps the invariant. -/
theorem stepKeepsGoodStates : Obligations.StepKeepsGoodStates := fun _ _ h hstep => h.step hstep

/-- Settles O47: every instance after reset is idle, on fresh registers. -/
theorem resetIsGood : Obligations.ResetIsGood := State.inv_resetWith

end
end

section
/-! PROOF. What a step leaves alone: the parameters, the other instances on a turn, and the registers of an instance outside a
session (R20, R184, R189, R193). -/

namespace Sys2Proof.Machine

/-! ## Register writes outside a session (R31, R33) -/

/-- R33: a write of WIDTH or HEIGHT leaves STATE alone. -/
@[simp] theorem Engine.writeExtent_st (offset : Nat) (v : Word32) (e : Engine) : (e.writeExtent offset v).st = e.st := by
  rw [Engine.writeExtent_eq]
  split <;> rfl

/-- R31: a register write without CTRL's bit 0 is no START. -/
theorem Engine.not_isStart {e : Engine} {offset : Nat} {v : Word32} (h : ¬ (offset = 0 ∧ v.getLsbD 0 = true)) :
    ¬ e.isStart offset v = true := fun hs =>
  have ⟨hoff, hbit, _⟩ := Engine.isStart_iff.mp hs
  h ⟨hoff, hbit⟩

/-- R31, R184: the one register write that changes a decoder's STATE is START. -/
theorem Decoder.start_of_writeReg_st {d : Decoder} {offset : Nat} {v : Word32}
    (hst : (d.writeReg offset v).eng.st ≠ d.eng.st) : offset = 0 ∧ v.getLsbD 0 = true := by
  by_contra hns
  rw [Decoder.writeReg_of_not_start (Engine.not_isStart hns)] at hst
  exact hst (Engine.writeExtent_st offset v d.eng)

@[inherit_doc Decoder.start_of_writeReg_st]
theorem Encoder.start_of_writeReg_st {e : Encoder} {offset : Nat} {v : Word32}
    (hst : (e.writeReg offset v).eng.st ≠ e.eng.st) : offset = 0 ∧ v.getLsbD 0 = true := by
  by_contra hns
  rw [Encoder.writeReg_of_not_start (Engine.not_isStart hns)] at hst
  exact hst (Engine.writeExtent_st offset v e.eng)

section

variable {s s' : State} {a : Agent} {e e' : Engine}

/-! ## Whose registers change -/

/-- R189: when decoder `k` is replaced, an instance whose registers differ is decoder `k`. -/
theorem State.engine_changed_setDec {k : Nat} {d d' : Decoder} (hd : s.decs[k]? = some d) (h : s.engineOf a = some e)
    (h' : (s.setDec k d').engineOf a = some e') (hne : e' ≠ e) : a = .dec k ∧ e = d.eng ∧ e' = d'.eng := by
  obtain ⟨rfl, heng⟩ := (State.engineOf_setDec h h').resolve_right hne
  have hk : s.engineOf (.dec k) = some d.eng := congrArg (Option.map Decoder.eng) hd
  exact ⟨rfl, Option.some.inj (h.symm.trans hk), heng⟩

/-- R189: when encoder `k` is replaced, an instance whose registers differ is encoder `k`. -/
theorem State.engine_changed_setEnc {k : Nat} {n n' : Encoder} (hn : s.encs[k]? = some n) (h : s.engineOf a = some e)
    (h' : (s.setEnc k n').engineOf a = some e') (hne : e' ≠ e) : a = .enc k ∧ e = n.eng ∧ e' = n'.eng := by
  obtain ⟨rfl, heng⟩ := (State.engineOf_setEnc h h').resolve_right hne
  have hk : s.engineOf (.enc k) = some n.eng := congrArg (Option.map Encoder.eng) hn
  exact ⟨rfl, Option.some.inj (h.symm.trans hk), heng⟩

/-- R191, R31: of the host's actions only a write to an instance, or power-on reset, reaches its registers, and of the writes
only START reaches STATE. -/
theorem State.HostEffect.engine_changed {act : Action} (heff : s.HostEffect act s') (h : s.engineOf a = some e)
    (h' : s'.engineOf a = some e') (hne : e' ≠ e) :
    (∃ offset v, act = .regWrite a offset v ∧ (e'.st ≠ e.st → offset = 0 ∧ v.getLsbD 0 = true)) ∨ act = .powerOn := by
  cases heff with
  | writeDec k offset v d hd =>
    obtain ⟨rfl, rfl, rfl⟩ := State.engine_changed_setDec hd h h' hne
    exact .inl ⟨offset, v, rfl, Decoder.start_of_writeReg_st⟩
  | writeEnc k offset v n hn =>
    obtain ⟨rfl, rfl, rfl⟩ := State.engine_changed_setEnc hn h h' hne
    exact .inl ⟨offset, v, rfl, Encoder.start_of_writeReg_st⟩
  | read => exact absurd (Option.some.inj (h'.symm.trans h)) hne
  | decCollaborators _ k d hd source sink hsink n =>
    obtain ⟨-, rfl, rfl⟩ := State.engine_changed_setDec hd h h' hne
    exact absurd rfl hne
  | pixelSource _ k n hn source hwf hext =>
    obtain ⟨-, rfl, rfl⟩ := State.engine_changed_setEnc hn h h' hne
    exact absurd rfl hne
  | byteSink _ k n hn answers sink =>
    obtain ⟨-, rfl, rfl⟩ := State.engine_changed_setEnc hn h h' hne
    exact absurd rfl hne
  | powerOn => exact .inr rfl

/-- R193, R184: a step that changes the registers of an instance outside a session is a host action on them. -/
theorem engine_changed_of_step (hstep : step s = .next s') (h : s.engineOf a = some e) (h' : s'.engineOf a = some e')
    (hb : e.st ≠ .busy) (hne : e' ≠ e) :
    (∃ offset v rest, s.agenda = .regWrite a offset v :: rest ∧ (e'.st ≠ e.st → offset = 0 ∧ v.getLsbD 0 = true)) ∨
    ∃ rest, s.agenda = .powerOn :: rest := by
  rcases step_cases hstep with ⟨-, rfl⟩ | ⟨b, k, d, -, rfl, hd, rfl⟩ | ⟨b, k, n, -, rfl, hn, rfl⟩ |
    ⟨act, rest, ha, hact, hhost⟩
  · exact absurd (Option.some.inj (h'.symm.trans h)) hne
  · obtain ⟨-, rfl, rfl⟩ := State.engine_changed_setDec (s := { s with agenda := s.agenda.tail, turn := _ }) hd h h' hne
    exact absurd (congrArg Decoder.eng (Decoder.turn_of_not_busy s.overshoot hb)) hne
  · obtain ⟨-, rfl, rfl⟩ := State.engine_changed_setEnc (s := { s with agenda := s.agenda.tail, turn := _ }) hn h h' hne
    exact absurd (congrArg Encoder.eng (Encoder.turn_of_not_busy hb)) hne
  · rcases (State.hostAction_next hact hhost).engine_changed h h' hne with ⟨offset, v, rfl, hst⟩ | rfl
    · exact .inl ⟨offset, v, rest, ha, hst⟩
    · exact .inr ⟨rest, ha⟩

/-! ## The parameters, and the other instances -/

/-- The OPEN parameters that a state holds, RUN_OVERSHOOT, N_DEC and N_ENC (R8, R20), are the same. -/
def State.SameParameters (s s' : State) : Prop :=
  s'.overshoot = s.overshoot ∧ s'.decs.length = s.decs.length ∧ s'.encs.length = s.encs.length

theorem State.sameParameters_setDec (s : State) (k : Nat) (d : Decoder) : s.SameParameters (s.setDec k d) :=
  ⟨rfl, List.length_set, rfl⟩

theorem State.sameParameters_setEnc (s : State) (k : Nat) (n : Encoder) : s.SameParameters (s.setEnc k n) :=
  ⟨rfl, rfl, List.length_set⟩

/-- R8: no host action writes a parameter. -/
theorem State.HostEffect.sameParameters {act : Action} (heff : s.HostEffect act s') : s.SameParameters s' := by
  cases heff with
  | writeDec | decCollaborators => exact s.sameParameters_setDec _ _
  | writeEnc | pixelSource | byteSink => exact s.sameParameters_setEnc _ _
  | read => exact ⟨rfl, rfl, rfl⟩
  | powerOn => exact ⟨rfl, List.length_map _, List.length_map _⟩

/-- R8: no step writes a parameter (log entries 2 and 3). -/
theorem sameParameters_of_step (hstep : step s = .next s') : s.SameParameters s' := by
  rcases step_cases hstep with ⟨-, rfl⟩ | ⟨b, k, d, -, rfl, -, rfl⟩ | ⟨b, k, n, -, rfl, -, rfl⟩ |
    ⟨act, rest, -, hact, hhost⟩
  · exact ⟨rfl, rfl, rfl⟩
  · exact State.sameParameters_setDec { s with agenda := s.agenda.tail, turn := .dec k } k _
  · exact State.sameParameters_setEnc { s with agenda := s.agenda.tail, turn := .enc k } k _
  · exact (State.hostAction_next hact hhost).sameParameters

/-- R189: a turn replaces its own instance, takes its entry from the agenda, and touches nothing else. -/
theorem frame_of_turn {agenda : List Action} (ha : s.agenda = .turn a :: agenda) (hstep : step s = .next s') :
    (∀ k, a ≠ .dec k → s'.decs[k]? = s.decs[k]?) ∧ (∀ k, a ≠ .enc k → s'.encs[k]? = s.encs[k]?) ∧
      s'.busData = s.busData ∧ s'.agenda = agenda := by
  rw [step_turn ha] at hstep
  rcases planTurn_next hstep with ⟨j, d, rfl, -, rfl⟩ | ⟨j, n, rfl, -, rfl⟩
  · exact ⟨fun k hk => List.getElem?_set_ne fun hjk : j = k => hk (congrArg Agent.dec hjk), fun _ _ => rfl, rfl, rfl⟩
  · exact ⟨fun _ _ => rfl, fun k hk => List.getElem?_set_ne fun hjk : j = k => hk (congrArg Agent.enc hjk), rfl, rfl⟩

end

end Sys2Proof.Machine

section

open Sys2Proof Sys2Proof.Machine

/-- Settles O49: of the step's cases none replaces more than one instance, but power-on reset, which keeps the lists' lengths. -/
theorem turnTouchesOneInstance : Obligations.TurnTouchesOneInstance :=
  ⟨fun _ _ => sameParameters_of_step, fun _ _ _ _ => frame_of_turn⟩

/-- Settles O51: a turn of an instance outside a session changes nothing, and of the host's actions only a write to it or
power-on reset reaches its registers. -/
theorem onlyStartLeavesEndedSession : Obligations.OnlyStartLeavesEndedSession :=
  fun _ _ _ _ _ => engine_changed_of_step

end
end

section
/-! PROOF. Where `exec` stops, and under which name (R20, R85, R165). -/

namespace Sys2Proof.Machine

/-- What an instruction means on a decoder whose turn it is: its chunk step, or for END a refusal in a session (R85). -/
def Decoder.meaning (policy : RunOvershoot) : Instr → Decoder → Except Refusal Decoder
  | .endMarker, d => if d.eng.st ≠ .busy then .ok d else .error .endMarkerNotDecoded
  | i, d => .ok (d.runChunk policy i)

/-- What an instruction means on an encoder whose turn it is: the emission of that unit (R151, R166). -/
def Encoder.meaning : Instr → Encoder → Except Refusal Encoder
  | .endMarker, e => e.emitEnd
  | i, e => e.emitChunk i (chunkRun i) (chunkOp i)

/-- R20: every instruction acts on the instance whose turn it is, by its meaning there. -/
theorem exec_eq_onTurn (i : Instr) (s : State) :
    exec i s = s.onTurn (Decoder.meaning s.overshoot i) (Encoder.meaning i) := by
  cases i <;> rfl

/-- R165: a BUSY encoder emits only the unit that it selects. -/
theorem Encoder.meaning_of_not_selected {e : Encoder} {i : Instr} (hb : e.eng.st = .busy) (hs : e.select ≠ .unit i) :
    Encoder.meaning i e = .error .chunkNotSelected := by
  have hchunk : ∀ adv kind, e.emitChunk i adv kind = .error .chunkNotSelected := by
    intro adv kind
    rw [Encoder.emitChunk, if_neg (by simp [hb])]
    cases e.srcPixel 0 with
    | none => rfl
    | some px => exact if_neg hs
  cases i with
  | endMarker => rw [Encoder.meaning, Encoder.emitEnd, if_neg (by simp [hb]), if_neg hs]
  | rgb | rgba | index | diff | luma | run => exact hchunk _ _

section

variable {s : State} {k : Nat} (onDec : Decoder → Except Refusal Decoder) (onEnc : Encoder → Except Refusal Encoder)

/-- It is the turn of a decoder that the block does not have (R20, log entry 11). -/
theorem State.onTurn_no_dec (ht : s.turn = .dec k) (hd : s.decs[k]? = none) :
    s.onTurn onDec onEnc = .fault .noSuchInstance := by
  unfold State.onTurn
  rw [ht]
  simp only [hd]

/-- It is the turn of an encoder that the block does not have (R20, log entry 11). -/
theorem State.onTurn_no_enc (ht : s.turn = .enc k) (he : s.encs[k]? = none) :
    s.onTurn onDec onEnc = .fault .noSuchInstance := by
  unfold State.onTurn
  rw [ht]
  simp only [he]

end

end Sys2Proof.Machine

section

open Sys2Proof Sys2Proof.Machine

/-- Settles O28: each stop is seen in the instruction's meaning on the instance whose turn it is. -/
theorem execStopsByName : Obligations.ExecStopsByName := by
  refine ⟨fun s k i ht hd => ?_, fun s k i ht he => ?_, fun s k d ht hd hb => ?_, fun s k e i ht he hb hs => ?_⟩ <;>
    rw [exec_eq_onTurn]
  · exact State.onTurn_no_dec _ _ ht hd
  · exact State.onTurn_no_enc _ _ ht he
  · rw [State.onTurn_dec ht hd, Decoder.meaning, if_neg (by simp [hb])]
    rfl
  · rw [State.onTurn_enc ht he, Encoder.meaning_of_not_selected hb hs]
    rfl

end
end

section
/-! PROOF. Register accesses by the host, and where its actions stop (R30 to R36, R67, R181, R186, R192). -/

namespace Sys2Proof.Machine

/-! ## What a register read returns (R30 to R36) -/

/-- R32: STATUS as a number, STATE in its two low bits and ERR above them. -/
theorem Engine.statusWord_toNat (e : Engine) : e.statusWord.toNat = e.st.code.toNat + 4 * e.err.code.toNat := by
  rw [Engine.statusWord, toNat_append_eq_add, toNat_append_eq_add, BitVec.toNat_ofNat]
  omega

/-- R34, R35: the low half of a 64-bit counter. -/
theorem toNat_lowHalf (x : Word64) : (x.extractLsb' 0 32).toNat = x.toNat % 2 ^ 32 := by
  rw [BitVec.extractLsb'_toNat, Nat.shiftRight_zero]

/-- R34, R35: the high half of a 64-bit counter. -/
theorem toNat_highHalf (x : Word64) : (x.extractLsb' 32 32).toNat = x.toNat / 2 ^ 32 := by
  have := x.isLt
  rw [BitVec.extractLsb'_toNat, Nat.shiftRight_eq_div_pow]
  omega

/-- R31, R36: CTRL, and every offset above the block, reads 0. -/
theorem Engine.readReg_of_ctrl_or_above (e : Engine) {offset : Nat} (h : offset = 0x00 ∨ 0x20 ≤ offset) :
    e.readReg offset = 0 := by
  unfold Engine.readReg
  split
  case h_8 => rfl
  all_goals omega

/-! ## Where the host's actions stop (R20, R30, R67) -/

/-- R30: an offset inside the block that is no whole word's. -/
theorem partialAccess_of_inside {offset : Nat} (hlt : offset < 0x20) (hmod : offset % 4 ≠ 0) : partialAccess offset = true := by
  simp [partialAccess, hlt, hmod]

section

variable {s : State} {a : Agent} {offset : Nat} {agenda : List Action}

/-- R20: the block does not have this instance. -/
theorem State.engineOf_eq_none_iff :
    s.engineOf a = none ↔ (∀ k, a = .dec k → s.decs[k]? = none) ∧ ∀ k, a = .enc k → s.encs[k]? = none := by
  cases a <;> simp [State.engineOf]

/-- R30: the host never gets at a part of a word (log entry 15). -/
theorem step_partial_write {v : Word32} (hp : partialAccess offset = true) (ha : s.agenda = .regWrite a offset v :: agenda) :
    step s = .refused .partialRegisterAccess :=
  (step_hostAction ha nofun).trans (if_pos hp)

@[inherit_doc step_partial_write]
theorem step_partial_read (hp : partialAccess offset = true) (ha : s.agenda = .regRead a offset :: agenda) :
    step s = .refused .partialRegisterAccess :=
  (step_hostAction ha nofun).trans (if_pos hp)

/-- R20: a write to an instance that the block does not have (log entry 11). -/
theorem step_write_no_instance {v : Word32} (hp : partialAccess offset = false) (hnone : s.engineOf a = none)
    (ha : s.agenda = .regWrite a offset v :: agenda) : step s = .fault .noSuchInstance := by
  obtain ⟨hdec, henc⟩ := State.engineOf_eq_none_iff.mp hnone
  rw [step_hostAction ha nofun]
  cases a with
  | dec k => simp [State.hostAction, State.regWrite, hp, hdec k rfl]
  | enc k => simp [State.hostAction, State.regWrite, hp, henc k rfl]

/-- R20: a read of an instance that the block does not have (log entry 11). -/
theorem step_read_no_instance (hp : partialAccess offset = false) (hnone : s.engineOf a = none)
    (ha : s.agenda = .regRead a offset :: agenda) : step s = .fault .noSuchInstance := by
  obtain ⟨hdec, henc⟩ := State.engineOf_eq_none_iff.mp hnone
  rw [step_hostAction ha nofun]
  cases a with
  | dec k => simp [State.hostAction, State.regRead, hp, hdec k rfl]
  | enc k => simp [State.hostAction, State.regRead, hp, henc k rfl]

/-- R20: a turn of an instance that the block does not have (log entry 11). -/
theorem step_turn_no_instance (hnone : s.engineOf a = none) (ha : s.agenda = .turn a :: agenda) :
    step s = .fault .noSuchInstance := by
  obtain ⟨hdec, henc⟩ := State.engineOf_eq_none_iff.mp hnone
  rw [step_turn ha]
  cases a with
  | dec k => exact planTurn_dec_none (hdec k rfl)
  | enc k => exact planTurn_enc_none (henc k rfl)

/-- R67: a grid that answers a given position otherwise is no extension. -/
theorem Memory.not_extendedBy {g g' : Memory} {p : Nat} {px : Pixel} (hp : Memory.read g p = some px)
    (hne : Memory.read g' p ≠ some px) : Memory.extendedBy g g' = false := by
  rw [Bool.eq_false_iff]
  exact fun hext => hne (Memory.read_of_extendedBy hext hp)

/-- R67: a pixel that was given may not change during an encode session (log entry 14). -/
theorem step_source_changed {k p : Nat} {e : Encoder} {cells : List (Nat × Pixel)} {px : Pixel}
    (ha : s.agenda = .pixelSource k cells :: agenda) (he : s.encs[k]? = some e) (hb : e.eng.st = .busy)
    (hp : Memory.read e.source p = some px) (hne : Memory.read (Memory.ofCells cells) p ≠ some px) :
    step s = .refused .sourceChanged := by
  have hrefused : e.provideSource cells = .error .sourceChanged := if_pos ⟨hb, Memory.not_extendedBy hp hne⟩
  rw [step_hostAction ha nofun]
  simp only [State.hostAction, State.hostEnc, he, hrefused, State.answerEnc]

end

end Sys2Proof.Machine

section

open Sys2Proof Sys2Proof.Machine

/-- Settles O41: a write while BUSY puts the instance back as it was. -/
theorem registerWritesIgnoredWhileBusy : Obligations.RegisterWritesIgnoredWhileBusy := by
  constructor
  · intro s k d agenda offset v ha hd hb ho
    rw [step_regWrite_dec ha hd (partialAccess_of_whole ho), Decoder.writeReg_of_busy hb, set_of_getElem? hd]
  · intro s k e agenda offset v ha he hb ho
    rw [step_regWrite_enc ha he (partialAccess_of_whole ho), Encoder.writeReg_of_busy hb, set_of_getElem? he]

/-- Settles O42: a write that is no START is a write of the extent registers. -/
theorem onlyExtentRegistersAreWritable : Obligations.OnlyExtentRegistersAreWritable := by
  constructor
  · intro s k d agenda offset v ha hd hb ho hns
    have hstart : ¬ (offset = 0 ∧ v.getLsbD 0 = true) := fun ⟨hoff, hbit⟩ =>
      Bool.false_ne_true ((hns hoff).symm.trans hbit)
    rw [step_regWrite_dec ha hd (partialAccess_of_whole ho), Decoder.writeReg_of_not_start (Engine.not_isStart hstart),
      Engine.writeExtent_of_not_busy hb]
  · intro s k e agenda offset v ha he hb ho hns
    have hstart : ¬ (offset = 0 ∧ v.getLsbD 0 = true) := fun ⟨hoff, hbit⟩ =>
      Bool.false_ne_true ((hns hoff).symm.trans hbit)
    rw [step_regWrite_enc ha he (partialAccess_of_whole ho), Encoder.writeReg_of_not_start (Engine.not_isStart hstart),
      Engine.writeExtent_of_not_busy hb]

/-- Settles O43: the read is `Engine.readReg`, taken offset by offset. -/
theorem registerReadsReturnFields : Obligations.RegisterReadsReturnFields := by
  intro s a e agenda offset ha he ho
  refine ⟨e.readReg offset, step_regRead ha he (partialAccess_of_whole ho), ?_, ?_, ?_, ?_, ?_, ?_, ?_,
    e.readReg_of_ctrl_or_above⟩ <;> rintro rfl
  · exact e.statusWord_toNat
  · rfl
  · rfl
  · exact toNat_lowHalf e.pix
  · exact toNat_highHalf e.pix
  · exact toNat_lowHalf e.bytes
  · exact toNat_highHalf e.bytes

/-- Settles O44: the word's value from its fields; the codes are the tables'. -/
theorem statusAndEventCodes : Obligations.StatusAndEventCodes := by
  refine ⟨fun e => ⟨e.statusWord_toNat, ?_⟩, by decide⟩
  simp [Engine.doneO]

/-- Settles O45: each stop of a host action and of a turn, in turn. -/
theorem hostActionsStopByName : Obligations.HostActionsStopByName := by
  refine ⟨fun s a offset agenda hlt hmod => ?_, fun s a offset agenda ho hnone => ?_,
    fun s k e cells agenda p px => step_source_changed⟩
  · have hp := partialAccess_of_inside hlt hmod
    exact ⟨fun v => step_partial_write hp, step_partial_read hp⟩
  · have hp := partialAccess_of_whole ho
    exact ⟨fun v => step_write_no_instance hp hnone, step_read_no_instance hp hnone, step_turn_no_instance hnone⟩

end
end

section
/-! PROOF. Linear positions: the place that a position names is read back from it by division by the width (R56). -/

namespace Sys2Proof.Machine

section

variable {width : Word32} {x : Nat} (hx : x < width.toNat)

include hx

/-- R56: the column is what is left of a position below the width. -/
theorem linearPosition_mod_width (y : Nat) : linearPosition width x y % width.toNat = x :=
  (Nat.mul_add_mod' y width.toNat x).trans (Nat.mod_eq_of_lt hx)

/-- R56: the row is how many whole widths lie before a position. -/
theorem linearPosition_div_width (y : Nat) : linearPosition width x y / width.toNat = y := by
  rw [linearPosition, Nat.add_comm, Nat.add_mul_div_right _ _ (by omega), Nat.div_eq_of_lt hx, Nat.zero_add]

/-- R56: a place of the image lies in 0..NPIX−1. -/
theorem linearPosition_lt {y height : Nat} (hy : y < height) : linearPosition width x y < width.toNat * height :=
  calc y * width.toNat + x
    _ < (y + 1) * width.toNat := by rw [Nat.succ_mul]; omega
    _ ≤ height * width.toNat := Nat.mul_le_mul_right _ hy
    _ = width.toNat * height := Nat.mul_comm _ _

end

end Sys2Proof.Machine

section

open Sys2Proof Sys2Proof.Machine

/-- Settles O10: column and row are the remainder and the quotient of the position by the width. -/
theorem linearPositionsAreRowMajor : Obligations.LinearPositionsAreRowMajor := by
  intro width height x y x' y' hx hy hx' _
  refine ⟨rfl, linearPosition_lt hx hy, fun h => ⟨?_, ?_⟩⟩
  · rw [← linearPosition_mod_width hx y, h, linearPosition_mod_width hx']
  · rw [← linearPosition_div_width hx y, h, linearPosition_div_width hx']

end
end

section
/-! PROOF. Waiting for the byte source, the byte sink and the pixel source: what a turn makes of an instance whose pending
transaction the host has not answered (R52 to R54, R213). -/

namespace Sys2Proof.Machine

section

variable {s : State} {k : Nat} {agenda : List Action}

/-- R189: a decoder's turn, taken from the agenda, is `Decoder.turn` of that decoder. -/
theorem step_turn_dec {d : Decoder} (ha : s.agenda = .turn (.dec k) :: agenda) (hd : s.decs[k]? = some d) :
    step s = .next { s with agenda := agenda, turn := .dec k, decs := s.decs.set k (d.turn s.overshoot) } :=
  (step_turn ha).trans (planTurn_dec (s := { s with agenda := agenda }) hd)

/-- R189: an encoder's turn, taken from the agenda, is `Encoder.turn` of that encoder. -/
theorem step_turn_enc {e : Encoder} (ha : s.agenda = .turn (.enc k) :: agenda) (he : s.encs[k]? = some e) :
    step s = .next { s with agenda := agenda, turn := .enc k, encs := s.encs.set k e.turn } :=
  (step_turn ha).trans (planTurn_enc (s := { s with agenda := agenda }) he)

end

/-! ## The byte source (R52) -/

section

variable {d : Decoder} {bs : List Byte} {why : DecodeReject}

/-- R122: while the chunk stays incomplete, the fetch takes every byte that is answered and asks for the next one. -/
theorem Decoder.fetch_of_incomplete (hrej : decodeChunk (d.chunkBuf ++ bs) = .rejected why) {more : List ReadAnswer}
    (hsrc : d.source = bs.map .byte ++ more) {fuel : Nat} (hfuel : bs.length ≤ fuel) :
    d.fetch fuel = Decoder.fetch (fuel - bs.length) { d with
      eng := { d.eng with bytes := d.eng.bytes + BitVec.ofNat 64 bs.length }
      chunkBuf := d.chunkBuf ++ bs
      source := more } := by
  have hfront : ∀ p q, bs = p ++ q → q ≠ [] → ∃ why, decodeChunk (d.chunkBuf ++ p) = .rejected why := fun p q hpq _ =>
    decodeChunk_front (q := q) (by rw [List.append_assoc, ← hpq]; exact hrej)
  rw [← Decoder.fetch_reads bs d more (fuel - bs.length) hsrc hfront, Nat.add_sub_cancel' hfuel]

/-- R122: a fetch with no answer left and no whole chunk in the chunk buffer waits as it is. -/
theorem Decoder.fetch_waits (hrej : decodeChunk d.chunkBuf = .rejected why) (hsrc : d.source = []) (fuel : Nat) :
    d.fetch (fuel + 1) = .waiting d := by
  rw [Decoder.fetch, hrej]
  simp only [Decoder.readByte, hsrc]

/-- R70: `fetchFuel` is enough for every byte of a chunk that stays incomplete and for one more request. -/
theorem length_lt_fetchFuel {buf : List Byte} (hrej : decodeChunk (buf ++ bs) = .rejected why) : bs.length < fetchFuel := by
  have hlen := length_of_rejected hrej
  rw [List.length_append] at hlen
  have hfuel : fetchFuel = 6 := rfl
  omega

/-- R52, R213: a decoder's turn in which the answers run out before the chunk is whole. -/
theorem Decoder.turn_waits_for_source (policy : RunOvershoot) (hb : d.eng.st = .busy)
    (hn : d.eng.pix.toNat < d.eng.npix.toNat) (hrej : decodeChunk (d.chunkBuf ++ bs) = .rejected why)
    (hsrc : d.source = bs.map .byte) : d.turn policy = { d with
      eng := { d.eng with bytes := d.eng.bytes + BitVec.ofNat 64 bs.length }
      chunkBuf := d.chunkBuf ++ bs
      source := [] } := by
  have hlt := length_lt_fetchFuel hrej
  obtain ⟨left, hleft⟩ : ∃ left, fetchFuel - bs.length = left + 1 := ⟨fetchFuel - bs.length - 1, by omega⟩
  have hfetch := Decoder.fetch_of_incomplete hrej (more := []) (by rw [hsrc, List.append_nil]) hlt.le
  rw [hleft, Decoder.fetch_waits hrej rfl] at hfetch
  rw [Decoder.turn, if_neg (by simp [hb]), if_pos (by simp [Decoder.needsPixels, hn]), hfetch]

end

section

variable {e : Encoder}

/-! ## The byte sink (R53) -/

/-- R151: the turn of a BUSY encoder that has selected a unit emits what is left of it. -/
theorem Encoder.turn_of_select (hb : e.eng.st = .busy) {i : Instr} (hs : e.select = .unit i) :
    e.turn = e.emit (encode i) (Encoder.finishUnit i ((e.srcPixel 0).getD Config.cacheReset)) := by
  rw [Encoder.turn, if_neg (by simp [hb]), hs]

/-- R53, R213: an emission in which the answers run out after `j` accepted bytes; the unit is not finished. -/
theorem Encoder.emit_waits {bytes : List Byte} {j : Nat} (hj : e.epos + j < bytes.length)
    (has : e.answers = List.replicate j .ok) (fin : Encoder → Encoder) : e.emit bytes fin = { e with
      eng := { e.eng with bytes := e.eng.bytes + BitVec.ofNat 64 j }
      sink := e.sink ++ (bytes.drop e.epos).take j
      answers := []
      epos := e.epos + j } := by
  have hleft : j < (bytes.drop e.epos).length := by rw [List.length_drop]; omega
  rw [Encoder.emit, Encoder.emitBytes_wait _ e j hleft has]

/-! ## The pixel source (R54) -/

/-- R54: the turn of a BUSY encoder that waits for the pixel source sets ERUN and nothing else. -/
theorem Encoder.turn_of_waitSource (hb : e.eng.st = .busy) {n : Nat} (hs : e.select = .waitSource n) :
    e.turn = { e with erun := n } := by
  rw [Encoder.turn, if_neg (by simp [hb]), hs]

/-- R150 to R152: an encoder waits for the pixel source at `ECUR` itself, or inside the lookahead over pixels equal to `prev`. -/
theorem Encoder.waitSource_cases {n : Nat} (hs : e.select = .waitSource n) :
    e.eng.pix.toNat < e.eng.npix.toNat ∧
      ((e.srcPixel 0 = none ∧ n = e.erun) ∨
        (e.srcPixel 0 = some e.eng.prev ∧ e.lookahead e.eng.prev Config.runMax (max 1 e.erun) = .waitSource n)) := by
  by_cases hn : e.eng.pix.toNat < e.eng.npix.toNat
  · refine ⟨hn, ?_⟩
    cases hp : e.srcPixel 0 with
    | none => exact .inl ⟨rfl, by simpa [Encoder.select, hn, hp, eq_comm] using hs⟩
    | some px =>
      rw [Encoder.select_eq hn hp, Encoder.selectFor] at hs
      split at hs
      · next heq => subst heq; exact .inr ⟨rfl, hs⟩
      · split_ifs at hs
  · rw [Encoder.select_end (Nat.le_of_not_lt hn)] at hs
    cases hs

/-- R25: a good encoder that is not answered at `ECUR` has counted nothing. -/
theorem Encoder.Inv.erun_eq_zero (h : e.Inv) (hp : e.srcPixel 0 = none) : e.erun = 0 := by
  by_contra hne
  have hcounted := h.runPixels 0 (Nat.pos_of_ne_zero hne)
  rw [hp] at hcounted
  cases hcounted

/-- R54, R152: a good encoder waits at a position inside the image that is not answered, fewer than 62 pixels from `ECUR`, and no
count is lost. -/
theorem Encoder.Inv.waitSource_position (h : e.Inv) {n : Nat} (hs : e.select = .waitSource n) :
    e.erun ≤ n ∧ n < 62 ∧ e.eng.pix.toNat + n < e.eng.npix.toNat ∧ e.srcPixel n = none := by
  obtain ⟨hn, ⟨hp, rfl⟩ | ⟨-, hlook⟩⟩ := Encoder.waitSource_cases hs
  · rw [h.erun_eq_zero hp]
    exact ⟨Nat.le_refl 0, by decide, hn, hp⟩
  · obtain ⟨hstart, hmax, hfit, hnone, -⟩ := Encoder.lookahead_wait _ _ hlook
    exact ⟨(Nat.le_max_right 1 e.erun).trans hstart, hmax, hfit, hnone⟩

end

end Sys2Proof.Machine

section

open Sys2Proof Sys2Proof.Machine

/-- Settles O34: the turn's fetch takes the bytes that came, and with no answer after them it waits. -/
theorem decoderWaitsForByteSource : Obligations.DecoderWaitsForByteSource := by
  intro s k d agenda bs why ha hd hb hn hrej hsrc
  rw [step_turn_dec ha hd, Decoder.turn_waits_for_source s.overshoot hb hn hrej hsrc]

/-- Settles O36: the turn emits the rest of the selected unit, and the emission waits after `j` bytes. -/
theorem encoderWaitsForByteSink : Obligations.EncoderWaitsForByteSink := by
  intro s k e agenda i j ha he hb hs hj has
  rw [step_turn_enc ha he, Encoder.turn_of_select hb hs, Encoder.emit_waits hj has]

/-- Settles O37: the turn sets ERUN; where it waits is the lookahead's first unanswered position, or `ECUR`. -/
theorem encoderWaitsForPixelSource : Obligations.EncoderWaitsForPixelSource := by
  intro s k e agenda n ha he hb hinv hs
  obtain ⟨hkept, hmax, hinside, hnone⟩ := hinv.waitSource_position hs
  obtain ⟨-, -, hpixels⟩ := hinv.waitSource_count hs
  refine ⟨?_, hkept, hmax, hinside, hnone, hpixels⟩
  rw [step_turn_enc ha he, Encoder.turn_of_waitSource hb hs]

end
end

section
/-! PROOF. The encoding of the chunks (R70 to R86): what `decodeChunk` does with each kind of tag, and `encode` and `decodeChunk`
as inverses of each other. -/

namespace Sys2Proof

/-! ## What a chunk of each kind reads (R72 to R77) -/

section

variable {tag : Byte}

theorem decodeChunk_rgb (hk : decodeKind tag = .rgb) (r g b : Byte) (rest : List Byte) :
    decodeChunk (tag :: r :: g :: b :: rest) = .unit (.rgb r g b) rest := by
  simp only [decodeChunk, hk]

theorem decodeChunk_rgba (hk : decodeKind tag = .rgba) (r g b a : Byte) (rest : List Byte) :
    decodeChunk (tag :: r :: g :: b :: a :: rest) = .unit (.rgba r g b a) rest := by
  simp only [decodeChunk, hk]

theorem decodeChunk_index (hk : decodeKind tag = .index) (rest : List Byte) :
    decodeChunk (tag :: rest) = .unit (.index (tag.extractLsb' 0 6)) rest := by
  simp only [decodeChunk, hk]

theorem decodeChunk_diff (hk : decodeKind tag = .diff) (rest : List Byte) :
    decodeChunk (tag :: rest) = .unit (.diff (unbias 2 (tag.extractLsb' 4 2)) (unbias 2 (tag.extractLsb' 2 2))
      (unbias 2 (tag.extractLsb' 0 2))) rest := by
  simp only [decodeChunk, hk]

theorem decodeChunk_luma (hk : decodeKind tag = .luma) (b2 : Byte) (rest : List Byte) :
    decodeChunk (tag :: b2 :: rest) = .unit (.luma (unbias 32 (tag.extractLsb' 0 6)) (unbias 8 (b2.extractLsb' 4 4))
      (unbias 8 (b2.extractLsb' 0 4))) rest := by
  simp only [decodeChunk, hk]

theorem decodeChunk_run (hk : decodeKind tag = .run) (rest : List Byte) :
    decodeChunk (tag :: rest) = .unit (.run (1 + (tag.extractLsb' 0 6).toNat)) rest := by
  simp only [decodeChunk, hk]

end

/-! ## Decode after encode (R84, R85) -/

/-- A DIFF's three fields come back from its one byte (R75). -/
theorem decodeChunk_encode_diff {dr dg db : Int} (h : (Instr.diff dr dg db).wf = true) (rest : List Byte) :
    decodeChunk (encode (.diff dr dg db) ++ rest) = .unit (.diff dr dg db) rest := by
  rw [Instr.wf_diff] at h
  obtain ⟨a, rfl⟩ := exists_field 2 4 dr (by omega) (by omega)
  obtain ⟨b, rfl⟩ := exists_field 2 4 dg (by omega) (by omega)
  obtain ⟨c, rfl⟩ := exists_field 2 4 db (by omega) (by omega)
  obtain ⟨hk, hr, hg, hb⟩ := decode_diff_fields a b c
  refine (decodeChunk_diff hk rest).trans ?_
  push_cast
  rw [hr, hg, hb]

/-- A LUMA's green delta comes back from its tag, the other two from its payload byte (R76). -/
theorem decodeChunk_encode_luma {dg drg dbg : Int} (h : (Instr.luma dg drg dbg).wf = true) (rest : List Byte) :
    decodeChunk (encode (.luma dg drg dbg) ++ rest) = .unit (.luma dg drg dbg) rest := by
  rw [Instr.wf_luma] at h
  obtain ⟨a, rfl⟩ := exists_field 32 64 dg (by omega) (by omega)
  obtain ⟨b, rfl⟩ := exists_field 8 16 drg (by omega) (by omega)
  obtain ⟨c, rfl⟩ := exists_field 8 16 dbg (by omega) (by omega)
  obtain ⟨hk, hg⟩ := decode_luma_tag a
  obtain ⟨hr, hb⟩ := decode_luma_payload b c
  refine (decodeChunk_luma hk _ rest).trans ?_
  push_cast
  rw [hg, hr, hb]

/-- A RUN's length comes back from its tag; lengths 63 and 64 would be the tags FE and FF (R77). -/
theorem decodeChunk_encode_run {n : Nat} (h : (Instr.run n).wf = true) (rest : List Byte) :
    decodeChunk (encode (.run n) ++ rest) = .unit (.run n) rest := by
  rw [Instr.wf_run] at h
  obtain ⟨hk, hn⟩ := decode_run_fields ⟨n - 1, by omega⟩
  refine (decodeChunk_run hk rest).trans ?_
  rw [hn, Nat.sub_add_cancel h.1]

/-- Every chunk that can be spelled is read back from its encoding, whatever bytes follow. -/
theorem decodeChunk_encode {i : Instr} (h : i.wf = true) (hne : i ≠ .endMarker) (rest : List Byte) :
    decodeChunk (encode i ++ rest) = .unit i rest := by
  cases i with
  | rgb r g b => exact decodeChunk_rgb (by decide) r g b rest
  | rgba r g b a => exact decodeChunk_rgba (by decide) r g b a rest
  | index slot =>
    obtain ⟨hk, hslot⟩ := decode_index_fields slot
    exact (decodeChunk_index hk rest).trans (by rw [hslot])
  | diff dr dg db => exact decodeChunk_encode_diff h rest
  | luma dg drg dbg => exact decodeChunk_encode_luma h rest
  | run n => exact decodeChunk_encode_run h rest
  | endMarker => exact absurd rfl hne

/-- No chunk is spelled by the end marker's bytes: it has at most 5, and they are 8. -/
theorem encode_ne_endMarkerBytes {i : Instr} (hne : i ≠ .endMarker) : encode i ≠ endMarkerBytes := fun heq =>
  absurd (heq ▸ encode_length_le hne) (by decide)

/-- The listing of every unit is read as that unit (R84, R85). -/
theorem decodeUnit_encode {i : Instr} (h : i.wf = true) : decodeUnit (encode i) = .unit i [] := by
  by_cases hne : i = .endMarker
  · subst hne
    exact if_pos rfl
  · rw [decodeUnit, if_neg (encode_ne_endMarkerBytes hne)]
    simpa only [List.append_nil] using decodeChunk_encode h hne []

/-! ## Encode after decode (R78, R80) -/

/-- R78: what the fields of a DIFF tag hold can be spelled. -/
theorem wf_diff_unbias (x y z : BitVec 2) : (Instr.diff (unbias 2 x) (unbias 2 y) (unbias 2 z)).wf = true := by
  have hx := unbias_range 2 x
  have hy := unbias_range 2 y
  have hz := unbias_range 2 z
  rw [Instr.wf_diff]
  push_cast at hx hy hz
  omega

/-- R78: what the fields of a LUMA chunk hold can be spelled. -/
theorem wf_luma_unbias (x : BitVec 6) (y z : BitVec 4) :
    (Instr.luma (unbias 32 x) (unbias 8 y) (unbias 8 z)).wf = true := by
  have hx := unbias_range 32 x
  have hy := unbias_range 8 y
  have hz := unbias_range 8 z
  rw [Instr.wf_luma]
  push_cast at hx hy hz
  omega

/-- R80: the chunk read from a listing can be spelled, is no END, and is spelled by exactly the bytes it was read from. -/
theorem encode_of_decodeChunk {bs rest : List Byte} {i : Instr} (h : decodeChunk bs = .unit i rest) :
    i.wf = true ∧ i ≠ .endMarker ∧ encode i ++ rest = bs := by
  match bs with
  | [] => cases h
  | tag :: payload =>
    cases hk : decodeKind tag with
    | rgb =>
      match payload with
      | r :: g :: b :: pl =>
        cases (decodeChunk_rgb hk r g b pl).symm.trans h
        exact ⟨rfl, nofun, by rw [tag_of_rgb tag hk]; rfl⟩
      | [] | [_] | [_, _] => simp [decodeChunk, hk] at h
    | rgba =>
      match payload with
      | r :: g :: b :: a :: pl =>
        cases (decodeChunk_rgba hk r g b a pl).symm.trans h
        exact ⟨rfl, nofun, by rw [tag_of_rgba tag hk]; rfl⟩
      | [] | [_] | [_, _] | [_, _, _] => simp [decodeChunk, hk] at h
    | index =>
      cases (decodeChunk_index hk payload).symm.trans h
      exact ⟨rfl, nofun, by rw [tag_of_index tag hk]; rfl⟩
    | diff =>
      cases (decodeChunk_diff hk payload).symm.trans h
      exact ⟨wf_diff_unbias _ _ _, nofun, by rw [tag_of_diff tag hk]; rfl⟩
    | luma =>
      match payload with
      | b2 :: pl =>
        cases (decodeChunk_luma hk b2 pl).symm.trans h
        exact ⟨wf_luma_unbias _ _ _, nofun, by rw [encode, tag_of_luma tag hk, payload_of_luma b2]; rfl⟩
      | [] => simp [decodeChunk, hk] at h
    | run =>
      obtain ⟨hlt, hbyte⟩ := tag_of_run tag hk
      cases (decodeChunk_run hk payload).symm.trans h
      exact ⟨(Instr.wf_run _).mpr (by omega), nofun, by rw [hbyte]; rfl⟩

/-! ## The tag alone gives the length (R79) -/

/-- R79 in the rule's own words: the top two bits as the quotient by 64. -/
theorem chunkLength_eq : ∀ tag : Byte,
    chunkLength tag = if tag = 0xFF then 5 else if tag = 0xFE then 4 else if tag.toNat / 64 = 2 then 2 else 1 := by decide

/-- R70: a unit has as many bytes as its table row says. -/
theorem encode_length : ∀ i : Instr, (encode i).length = i.byteLength
  | .rgb r g b => Laws.EncodeLength.rgb r g b
  | .rgba r g b a => Laws.EncodeLength.rgba r g b a
  | .index i => Laws.EncodeLength.index i
  | .diff dr dg db => Laws.EncodeLength.diff dr dg db
  | .luma dg drg dbg => Laws.EncodeLength.luma dg drg dbg
  | .run n => Laws.EncodeLength.run n
  | .endMarker => Laws.EncodeLength.endMarker

/-- A tag with its whole payload is one chunk, and what follows the payload is left. -/
theorem decodeChunk_of_payload {tag : Byte} {payload : List Byte} (h : chunkLength tag ≤ payload.length + 1) :
    ∃ i, decodeChunk (tag :: payload) = .unit i (payload.drop (chunkLength tag - 1)) ∧ i.byteLength = chunkLength tag := by
  rw [chunkLength_of_kind tag] at h ⊢
  cases hk : decodeKind tag with
  | rgb =>
    match payload with
    | r :: g :: b :: pl => exact ⟨_, decodeChunk_rgb hk r g b pl, rfl⟩
    | [] | [_] | [_, _] => simp [hk] at h
  | rgba =>
    match payload with
    | r :: g :: b :: a :: pl => exact ⟨_, decodeChunk_rgba hk r g b a pl, rfl⟩
    | [] | [_] | [_, _] | [_, _, _] => simp [hk] at h
  | index => exact ⟨_, decodeChunk_index hk payload, rfl⟩
  | diff => exact ⟨_, decodeChunk_diff hk payload, rfl⟩
  | luma =>
    match payload with
    | b2 :: pl => exact ⟨_, decodeChunk_luma hk b2 pl, rfl⟩
    | [] => simp [hk] at h
  | run => exact ⟨_, decodeChunk_run hk payload, rfl⟩

/-- A tag whose payload is not all there is rejected for that, and by its own name. -/
theorem decodeChunk_of_shortPayload {tag : Byte} {payload : List Byte} (h : payload.length + 1 < chunkLength tag) :
    decodeChunk (tag :: payload) = .rejected (.shortPayload tag) := by
  rw [chunkLength_of_kind tag] at h
  cases hk : decodeKind tag with
  | rgb =>
    match payload with
    | r :: g :: b :: pl => simp only [hk, List.length_cons] at h; omega
    | [] | [_] | [_, _] => simp only [decodeChunk, hk]
  | rgba =>
    match payload with
    | r :: g :: b :: a :: pl => simp only [hk, List.length_cons] at h; omega
    | [] | [_] | [_, _] | [_, _, _] => simp only [decodeChunk, hk]
  | luma =>
    match payload with
    | b2 :: pl => simp [hk] at h
    | [] => simp only [decodeChunk, hk]
  | index | diff | run => simp [hk] at h

end Sys2Proof

section

open Sys2Proof

/-- Settles O2: each chunk is read back field by field, and only END's listing is the end marker. -/
theorem decodeEncodeAgree : Obligations.DecodeEncodeAgree :=
  ⟨fun _ rest h hne => decodeChunk_encode h hne rest, fun _ h => decodeUnit_encode h⟩

/-- Settles O3: a tag's fields, spelled again, are the tag, kind by kind. -/
theorem encodeDecodeAgree : Obligations.EncodeDecodeAgree := fun _ _ _ h => encode_of_decodeChunk h

/-- Settles O4: the length named by the rule is `chunkLength`, and the payload is all there or it is not. -/
theorem tagAloneGivesLength : Obligations.TagAloneGivesLength := by
  intro tag payload n hn
  obtain rfl : n = chunkLength tag := hn.trans (chunkLength_eq tag).symm
  refine ⟨fun h => ?_, decodeChunk_of_shortPayload⟩
  obtain ⟨i, hdecode, hlength⟩ := decodeChunk_of_payload h
  exact ⟨i, hdecode, hlength, (encode_length i).trans hlength⟩

/-- Settles O1: each word is the chunk's encoding, so it is read back as that chunk. -/
theorem specWordsDecode : Obligations.SpecWordsDecode :=
  ⟨decodeChunk_encode (i := .rgb 1 2 3) rfl nofun [],
    decodeChunk_encode (i := .rgba 10 20 30 128) rfl nofun [],
    decodeChunk_encode (i := .index 11) rfl nofun [],
    decodeChunk_encode (i := .diff 1 (-1) 0) rfl nofun [],
    decodeChunk_encode (i := .luma 15 (-5) (-7)) rfl nofun [],
    decodeChunk_encode (i := .run 62) rfl nofun [],
    decodeUnit_encode (i := .endMarker) rfl⟩

/-- Settles O5: the bytes 00 and 01 are the encodings of INDEX 0 and INDEX 1. -/
theorem endMarkerReadsAsIndexChunks : Obligations.EndMarkerReadsAsIndexChunks :=
  ⟨rfl, fun rest => ⟨decodeChunk_encode (i := .index 0) rfl nofun rest, decodeChunk_encode (i := .index 1) rfl nofun rest⟩⟩

end
end

section
/-! PROOF. The host's header codec (R90 to R92): a header is read back, and which byte strings are no header. -/

namespace Sys2Proof.Machine

/-- R58: the four bytes of a word, most significant first, joined again. -/
theorem bigEndian_joined (w : Word32) :
    w.extractLsb' 24 8 ++ w.extractLsb' 16 8 ++ w.extractLsb' 8 8 ++ w.extractLsb' 0 8 = w := Pixel.toWord_ofWord w

/-- R91: the channel byte's legal values, as a proposition. -/
theorem channelsOk_iff (acceptZero : Bool) (c : Byte) :
    channelsOk acceptZero c = true ↔ c = 3 ∨ c = 4 ∨ (acceptZero = true ∧ c = 0) := by
  simp only [channelsOk, Bool.or_eq_true, Bool.and_eq_true, beq_iff_eq, or_assoc]

/-- R91: channel byte 4 is legal under either value of ACCEPT_CHANNELS_ZERO. -/
theorem channelsOk_four (acceptZero : Bool) : channelsOk acceptZero 4 = true :=
  (channelsOk_iff acceptZero 4).mpr (.inr (.inl rfl))

/-- R92: the header the host writes is one that it reads, with the same extent. -/
theorem decodeHeader_encodeHeader (acceptZero : Bool) (w h : Word32) (rest : List Byte) :
    decodeHeader acceptZero (encodeHeader w h ++ rest) = .ok (w, h, rest) := by
  simp only [encodeHeader, headerMagic, bigEndian, List.cons_append, List.nil_append, decodeHeader, bigEndian_joined]
  exact if_pos ⟨trivial, channelsOk_four acceptZero, by decide⟩

/-- R91: 14 bytes are an invalid header unless magic, channel byte and colorspace byte are all right. -/
theorem decodeHeader_eq_invalidHeader_iff (acceptZero : Bool) {magic extent : List Byte} (channels colorspace : Byte)
    (rest : List Byte) (hm : magic.length = 4) (hx : extent.length = 8) :
    decodeHeader acceptZero (magic ++ extent ++ [channels, colorspace] ++ rest) = .error .invalidHeader ↔
      ¬ (magic = headerMagic ∧ channelsOk acceptZero channels = true ∧ colorspace.toNat ≤ 1) := by
  match magic, hm, extent, hx with
  | [_, _, _, _], _, [_, _, _, _, _, _, _, _], _ =>
    simp only [List.cons_append, List.nil_append, decodeHeader]
    split_ifs with hgood
    · exact iff_of_false nofun (not_not_intro hgood)
    · exact iff_of_true rfl hgood

/-- R91: fewer than 14 bytes are an I/O error. -/
theorem decodeHeader_of_short (acceptZero : Bool) {bs : List Byte} (h : bs.length < 14) :
    decodeHeader acceptZero bs = .error .ioError := by
  unfold decodeHeader
  split
  · simp only [List.length_cons] at h
    omega
  · rfl

end Sys2Proof.Machine

section

open Sys2Proof Sys2Proof.Machine

/-- Settles O56: the bytes are the definition's, and the extent's two words are joined again from their bytes. -/
theorem headerRoundTrip : Obligations.HeaderRoundTrip :=
  ⟨fun _ _ => rfl, decodeHeader_encodeHeader, by decide⟩

/-- Settles O57: one of the three tests fails exactly when not all of them pass. -/
theorem headerRejections : Obligations.HeaderRejections := by
  intro acceptZero magic extent rest channels colorspace hm hx
  refine ⟨?_, fun _ => decodeHeader_of_short acceptZero⟩
  rw [decodeHeader_eq_invalidHeader_iff acceptZero channels colorspace rest hm hx, channelsOk_iff, not_and_or, not_and_or,
    Nat.not_le]
  rfl

end
end

section
/-! PROOF. The pixel hash and the cache write: reduction modulo 64 passes through sums and products, and a write to the
cache is a write to one slot. -/

namespace Sys2Proof.Machine

/-- R100: the hash as a number. -/
theorem pixelHash_toNat (px : Pixel) :
    (pixelHash px).toNat = (3 * px.r.toNat + 5 * px.g.toNat + 7 * px.b.toNat + 11 * px.a.toNat) % 64 := by
  rw [pixelHash, BitVec.toNat_ofNat]
  exact Nat.mod_mod _ _

/-- R100: each channel is at most 255, so the full sum is at most 26 · 255. -/
theorem channelSum_le (px : Pixel) :
    3 * px.r.toNat + 5 * px.g.toNat + 7 * px.b.toNat + 11 * px.a.toNat ≤ 6630 := by
  have hr := px.r.isLt
  have hg := px.g.isLt
  have hb := px.b.isLt
  have ha := px.a.isLt
  omega

/-- R101: a term reduced modulo a multiple of 64 leaves the sum modulo 64 as it was. -/
theorem mod_add_mod_64 {m : Nat} (hm : 64 ∣ m) (a b : Nat) : (a % m + b) % 64 = (a + b) % 64 :=
  ((Nat.mod_modEq a m).of_dvd hm).add_right b

/-- R101: the low six bits of a byte are its number in six bits. -/
theorem lowSix_eq_ofNat (c : Byte) : c.extractLsb' 0 6 = BitVec.ofNat 6 c.toNat :=
  BitVec.eq_of_toNat_eq (by simp)

/-- R101: six bits wrap modulo 64, so the sum may be taken over unbounded integers and reduced once. -/
theorem pixelHash6_eq_pixelHash (px : Pixel) : pixelHash6 px = pixelHash px := by
  have hsum : pixelHash6 px
      = BitVec.ofNat 6 (3 * px.r.toNat + 5 * px.g.toNat + 7 * px.b.toNat + 11 * px.a.toNat) := by
    simp only [pixelHash6, lowSix_eq_ofNat, BitVec.ofNat_add, BitVec.ofNat_mul]
    rfl
  apply BitVec.eq_of_toNat_eq
  rw [hsum, pixelHash_toNat, BitVec.toNat_ofNat]

/-- R101: the low six bits of a wrapping 8-bit sum are the wrapping 6-bit sum of the low six bits. -/
theorem lowSix_byteSum (px : Pixel) :
    (3 * px.r + 5 * px.g + 7 * px.b + 11 * px.a : Byte).extractLsb' 0 6 = pixelHash6 px := by
  simp only [pixelHash6, ← BitVec.setWidth_eq_extractLsb' (show 6 ≤ 8 by decide),
    BitVec.setWidth_add _ _ (show 6 ≤ 8 by decide), BitVec.setWidth_mul _ _ (show 6 ≤ 8 by decide)]
  rfl

namespace Engine

/-- R104: the written slot holds the pixel, every other slot what it held. -/
theorem cacheRead_cacheWrite (e : Engine) (px : Pixel) (i : BitVec 6) :
    (e.cacheWrite px).cacheRead i = if i = pixelHash px then px else e.cacheRead i :=
  cacheRead_of_set px rfl i

/-- R104: writing a pixel that its slot already holds changes nothing (`update_self`, for the cache alone). -/
theorem cacheWrite_self {e : Engine} {px : Pixel} (h : e.cacheRead (pixelHash px) = px) : e.cacheWrite px = e := by
  have hcache : e.cache.set (pixelHash px).toNat px = e.cache :=
    congrArg Engine.cache (update_self (e := { e with prev := px }) rfl h)
  rw [cacheWrite, hcache]

end Engine

end Sys2Proof.Machine

section

open Sys2Proof Sys2Proof.Machine

/-- Settles O8: 64 divides 256, and either wrapping width agrees with the full sum in the low six bits. -/
theorem wrappingHashAgrees : Obligations.WrappingHashAgrees :=
  ⟨fun a b => ⟨mod_add_mod_64 (by decide) a b, mod_add_mod_64 (by decide) a b⟩,
    fun px => ⟨pixelHash6_eq_pixelHash px, (lowSix_byteSum px).trans (pixelHash6_eq_pixelHash px)⟩⟩

/-- Settles O9: what is read after the write, slot by slot; the write touches no field but the cache. -/
theorem cacheWriteIsBySlotOfHash : Obligations.CacheWriteIsBySlotOfHash := by
  refine ⟨fun e px => ⟨?written, fun i hi => ?kept, rfl, Engine.cacheWrite_self⟩, by decide⟩
  case written => rw [Engine.cacheRead_cacheWrite, if_pos rfl]
  case kept => rw [Engine.cacheRead_cacheWrite, if_neg hi]

/-- Settles O7: six bits hold a residue modulo 64, and the four weights add up to 26. -/
theorem hashIsFullSumModulo64 : Obligations.HashIsFullSumModulo64 :=
  ⟨fun px => ⟨pixelHash_toNat px, channelSum_le px⟩, by decide⟩

end
end

section
/-! PROOF. Chunks consumed by a decoder (R120 to R137): a chunk step that begins its commit ends it, waits for the pixel sink,
or raises INTERNAL, and one that has waited goes on as if it had not. -/

namespace Sys2Proof.Machine

/-- R111: a channel plus a signed delta, over the integers. -/
theorem addDelta_toNat (c : Byte) (d : Int) : ((addDelta c d).toNat : Int) = (c.toNat + d) % 256 := by
  rw [addDelta, BitVec.toNat_add, Int.natCast_emod, Nat.cast_add, BitVec.toNat_ofInt, Int.toNat_of_nonneg (by omega)]
  omega

/-- R130, R60: a run of writes reaches its own positions and no other. -/
theorem Memory.writtenTo_fill (g : Memory) (lo n : Nat) (px : Pixel) :
    Memory.WrittenTo g (Memory.fill g lo px n) px lo (lo + n) :=
  fun p => Memory.read_fill n g lo p px

section

variable {d : Decoder} {policy : RunOvershoot} {px : Pixel} {run : Nat} {kind : ChunkKind} {len : Nat}

/-! ## One commit (R129 to R133) -/

/-- R129, R193: the common update is made, the answers of the pixel sink run out, and the expansion waits. -/
theorem Decoder.commit_waits (hexp : d.expanded = none) (hfits : policy = .clamp ∨ d.eng.pix.toNat + run ≤ d.eng.npix.toNat)
    (hans : d.pixelAnswers < d.needed run) : d.commit policy px run kind len = { d with
      eng := d.eng.update px
      sink := Memory.fill d.sink d.eng.pix.toNat px d.pixelAnswers
      pixelAnswers := 0
      expanded := some d.pixelAnswers } := by
  rw [Decoder.commit_begins policy px run kind len hexp hfits,
    Decoder.writeChunk_waits px _ kind len 0 (by rwa [Nat.zero_add]), Nat.zero_add]
  rfl

/-- Everything that a commit which begins can do: it raises INTERNAL (R133), it waits for the pixel sink (R193), or it writes
all its pixels (R129 to R131). -/
theorem Decoder.commit_cases (policy : RunOvershoot) (px : Pixel) (kind : ChunkKind) (hrun : run < 64) (hlen : len < 8)
    (hb : d.eng.st = .busy) (hn : d.eng.pix.toNat < d.eng.npix.toNat) (hexp : d.expanded = none) :
    d.commit policy px run kind len = d.raise .internal ∨
    ((policy = .clamp ∨ d.eng.pix.toNat + run ≤ d.eng.npix.toNat) ∧ d.pixelAnswers < d.needed run ∧
      d.commit policy px run kind len = { d with
        eng := d.eng.update px
        sink := Memory.fill d.sink d.eng.pix.toNat px d.pixelAnswers
        pixelAnswers := 0
        expanded := some d.pixelAnswers }) ∨
    d.Committed (d.commit policy px run kind len) px (d.needed run) kind len := by
  by_cases hfits : policy = .clamp ∨ d.eng.pix.toNat + run ≤ d.eng.npix.toNat
  · by_cases hans : d.pixelAnswers < d.needed run
    · exact .inr (.inl ⟨hfits, hans, Decoder.commit_waits hexp hfits hans⟩)
    · exact .inr (.inr (Decoder.commit_committed policy px run kind len hrun hlen hb hn hexp (Nat.le_of_not_lt hans) hfits))
  · obtain ⟨hpolicy, hover⟩ := not_or.mp hfits
    obtain rfl : policy = .fault := by cases policy <;> trivial
    exact .inl (Decoder.commit_overshoot px run kind len hexp hn (Nat.lt_of_not_le hover))

/-- R130: a chunk writes at least one pixel, and none outside the image. -/
theorem Decoder.needed_inside (hn : d.eng.pix.toNat < d.eng.npix.toNat) (hrun : 1 ≤ run) :
    1 ≤ d.needed run ∧ d.eng.pix.toNat + d.needed run ≤ d.eng.npix.toNat := by
  unfold Decoder.needed
  omega

/-! ## The pixel sink answers later (R130, R137) -/

/-- A commit that leaves its expansion under way fits or is clamped, and lacks answers of the pixel sink. -/
theorem Decoder.waits_of_expanded (hb : d.eng.st = .busy) (hn : d.eng.pix.toNat < d.eng.npix.toNat) (hexp : d.expanded = none)
    (hrun : run < 64) (hlen : len < 8) (hwaits : (d.commit policy px run kind len).expanded ≠ none) :
    (policy = .clamp ∨ d.eng.pix.toNat + run ≤ d.eng.npix.toNat) ∧ d.pixelAnswers < d.needed run := by
  rcases Decoder.commit_cases policy px kind hrun hlen hb hn hexp with hraise | ⟨hfits, hans, -⟩ | hends
  · exact absurd (by rw [hraise]; rfl) hwaits
  · exact ⟨hfits, hans⟩
  · exact absurd hends.expanded hwaits

/-- R137: an expansion that stands at pixel `j`, writes the next `a` pixels, waits and is answered for `b` more is the one that
is answered for all of them at pixel `j`. -/
theorem Decoder.writeChunk_resumes (px : Pixel) {m : Nat} (kind : ChunkKind) (len : Nat) {j a : Nat} (b : Nat)
    (x : Option Nat) (hlt : j + a < m) (d : Decoder) :
    Decoder.writeChunk px m kind len (j + a) { d with
      sink := Memory.fill d.sink (d.eng.pix.toNat + j) px a, pixelAnswers := b, expanded := x } =
    Decoder.writeChunk px m kind len j { d with pixelAnswers := a + b } := by
  by_cases hwait : j + a + b < m
  · rw [Decoder.writeChunk_waits _ _ _ _ _ hwait, Decoder.writeChunk_waits _ _ _ _ _ (by rwa [← Nat.add_assoc])]
    simp only [Memory.fill_add, Nat.add_assoc]
  · have hleft : m - j = a + (m - (j + a)) := by omega
    have hspare : a + b - (a + (m - (j + a))) = b - (m - (j + a)) := Nat.add_sub_add_left a b _
    rw [Decoder.writeChunk_ends _ _ _ _ _ hlt.le (Nat.le_of_not_lt hwait),
      Decoder.writeChunk_ends _ _ _ _ _ (by omega) (by show m ≤ j + (a + b); omega), hleft]
    simp only [hspare, Memory.fill_add, Nat.add_assoc]

/-- R137: a commit that waits after `a` answers of the pixel sink and is answered for `b` more pixels. What is passed to it as the
chunk's pixel no longer matters: `prev` holds that pixel. -/
theorem Decoder.commit_resumes {a : Nat} (b : Nat) (hexp : d.expanded = none)
    (hfits : policy = .clamp ∨ d.eng.pix.toNat + run ≤ d.eng.npix.toNat) (hans : a < d.needed run) (px' : Pixel) :
    Decoder.commit policy px' run kind len { d with
      eng := d.eng.update px, sink := Memory.fill d.sink d.eng.pix.toNat px a, pixelAnswers := b, expanded := some a } =
    Decoder.commit policy px run kind len { d with pixelAnswers := a + b } := by
  rw [Decoder.commit_goesOn policy px' run kind len rfl, Decoder.commit_begins (d := { d with pixelAnswers := a + b })
    policy px run kind len hexp hfits]
  have hres := Decoder.writeChunk_resumes px kind len (j := 0) b (some a) (by rwa [Nat.zero_add])
    { d with eng := d.eng.update px }
  rwa [Nat.zero_add] at hres

/-- R130, R187: the turn of a good decoder whose expansion waits at pixel `j` goes on with it and reads no byte; the pixels that
are left are inside the image. -/
theorem Decoder.Inv.turn_of_expanding (h : d.Inv) {j : Nat} (hexp : d.expanded = some j) {i : Instr}
    (hwhole : decodeChunk d.chunkBuf = .unit i []) (policy : RunOvershoot) :
    d.Holds i ∧ j < d.needed (chunkRun i) ∧
      d.turn policy = d.writeChunk d.eng.prev (d.needed (chunkRun i)) (chunkOp i) i.byteLength j := by
  have hb : d.eng.st = .busy := by
    by_contra hq
    have hnone := (h.quiet hq).2
    rw [hexp] at hnone
    cases hnone
  have hholds : d.Holds i := ⟨h.eng, h.grid, hb, h.busy hb, hwhole⟩
  have hfetch : d.fetch fetchFuel = .chunk i d := Decoder.fetch_whole hwhole 5
  obtain ⟨i', hwhole', hj⟩ := h.expanding j hexp
  obtain rfl : i' = i := by simpa [hwhole] using hwhole'.symm
  refine ⟨hholds, hj, ?_⟩
  rw [Decoder.turn, if_neg (by simp [hb]), if_pos (by simp [Decoder.needsPixels, hholds.needs]), hfetch]
  exact (hholds.runChunk_eq policy).trans (Decoder.commit_goesOn policy _ _ _ _ hexp)

end

section

variable {s : State} {k : Nat} {d : Decoder} {i : Instr}

/-! ## `exec` on a decoder -/

/-- R70: a chunk's length fits the 3 bits of its event record (R192). -/
theorem byteLength_lt_eight (hi : i ≠ .endMarker) : i.byteLength < 8 := (byteLength_le hi).trans_lt (by decide)

/-- R129: a chunk whose run fits or is clamped, and for whose pixels the host has answered. -/
theorem exec_committed (h : s.decodes k d) (hi : i ≠ .endMarker) (hrun : chunkRun i < 64)
    (hfits : s.overshoot = .clamp ∨ d.eng.pix.toNat + chunkRun i ≤ d.eng.npix.toNat)
    (hans : d.needed (chunkRun i) ≤ d.pixelAnswers) :
    ∃ t, exec i s = .next { s with decs := s.decs.set k t } ∧
      d.Committed t (chunkPixel i d.eng) (d.needed (chunkRun i)) (chunkOp i) i.byteLength := by
  have hexec := exec_commit h.1 hi
  obtain ⟨⟨-, -, hb, hn⟩, hexp⟩ := h
  exact ⟨_, hexec, Decoder.commit_committed s.overshoot _ _ _ _ hrun (byteLength_lt_eight hi) hb hn hexp hans hfits⟩

/-- R129: a chunk of one pixel. It always fits, since the decoder needs pixels. -/
theorem exec_committed_one (h : s.decodes k d) (hi : i ≠ .endMarker) (hone : chunkRun i = 1) (hans : 1 ≤ d.pixelAnswers) :
    ∃ t, exec i s = .next { s with decs := s.decs.set k t } ∧
      d.Committed t (chunkPixel i d.eng) 1 (chunkOp i) i.byteLength := by
  have ⟨⟨_, _, _, hn⟩, _⟩ := h
  have hneeded : d.needed (chunkRun i) = 1 := by rw [hone]; exact Nat.min_eq_left (Nat.sub_pos_of_lt hn)
  have hcommitted := exec_committed h hi (by omega) (.inr (by omega)) (by omega)
  rwa [hneeded] at hcommitted

/-- R126, R127: a chunk of one pixel that is `prev` at signed deltas, channel by channel over the integers. -/
theorem exec_committed_shift (h : s.decodes k d) (hi : i ≠ .endMarker) (hone : chunkRun i = 1) (hans : 1 ≤ d.pixelAnswers)
    {dr dg db : Int} (hpx : chunkPixel i d.eng = shiftPixel d.eng.prev dr dg db) :
    ∃ t, exec i s = .next { s with decs := s.decs.set k t } ∧ d.Committed t t.eng.prev 1 (chunkOp i) i.byteLength ∧
      (t.eng.prev.r.toNat : Int) = (d.eng.prev.r.toNat + dr) % 256 ∧
      (t.eng.prev.g.toNat : Int) = (d.eng.prev.g.toNat + dg) % 256 ∧
      (t.eng.prev.b.toNat : Int) = (d.eng.prev.b.toNat + db) % 256 ∧
      t.eng.prev.a = d.eng.prev.a := by
  obtain ⟨t, hexec, hcommitted⟩ := exec_committed_one h hi hone hans
  have hprev : t.eng.prev = chunkPixel i d.eng := hcommitted.eng.prev
  refine ⟨t, hexec, by rwa [hprev], ?_⟩
  rw [hprev, hpx]
  exact ⟨addDelta_toNat _ _, addDelta_toNat _ _, addDelta_toNat _ _, rfl⟩

/-- It is the turn of the decoder that has been put in place of another, as long as its session needs pixels. -/
theorem State.decodesOn.set {d' : Decoder} (h : s.decodesOn k d) (hb : d'.eng.st = .busy)
    (hn : d'.eng.pix.toNat < d'.eng.npix.toNat) : State.decodesOn { s with decs := s.decs.set k d' } k d' :=
  have ⟨hturn, hd, _, _⟩ := h
  ⟨hturn, List.getElem?_set_self (List.getElem?_eq_some_iff.mp hd).1, hb, hn⟩

/-- What a chunk step that answers a next state has made of the decoder and of the block (R189). -/
theorem exec_decoder_next {s' : State} {d' : Decoder} (h : s.decodesOn k d) (hi : i ≠ .endMarker)
    (hexec : exec i s = .next s') (hd' : s'.decs[k]? = some d') :
    d' = d.commit s.overshoot (chunkPixel i d.eng) (chunkRun i) (chunkOp i) i.byteLength ∧
      s' = { s with decs := s.decs.set k d' } := by
  rw [exec_commit h hi] at hexec
  cases hexec
  obtain ⟨-, hd, -, -⟩ := h
  have hk : k < s.decs.length := (List.getElem?_eq_some_iff.mp hd).1
  obtain rfl := Option.some.inj ((List.getElem?_set_self hk).symm.trans hd')
  exact ⟨rfl, rfl⟩

end

end Sys2Proof.Machine

section

open Sys2Proof Sys2Proof.Machine

/-- Settles O12: a chunk of one pixel. -/
theorem decodeRgbKeepsAlpha : Obligations.DecodeRgbKeepsAlpha :=
  fun _ _ _ r g b h hans => exec_committed_one (i := .rgb r g b) h nofun rfl hans

/-- Settles O13: a chunk of one pixel. -/
theorem decodeRgbaReplacesPixel : Obligations.DecodeRgbaReplacesPixel :=
  fun _ _ _ r g b a h hans => exec_committed_one (i := .rgba r g b a) h nofun rfl hans

/-- Settles O14: a chunk of one pixel, which is taken from the decoder before the step. -/
theorem decodeIndexReadsSlot : Obligations.DecodeIndexReadsSlot :=
  fun _ _ _ i h hans => exec_committed_one (i := .index i) h nofun rfl hans

/-- Settles O15: one pixel, at the chunk's own deltas from `prev`. -/
theorem decodeDiffAddsModulo256 : Obligations.DecodeDiffAddsModulo256 :=
  fun _ _ _ dr dg db h hans => exec_committed_shift (i := .diff dr dg db) h nofun rfl hans rfl

/-- Settles O16: one pixel, its red and blue deltas the green one plus the relative ones. -/
theorem decodeLumaAddsModulo256 : Obligations.DecodeLumaAddsModulo256 := by
  intro s k d dg drg dbg h hans
  simp only [add_assoc]
  exact exec_committed_shift (i := .luma dg drg dbg) h nofun rfl hans rfl

/-- Settles O17: a run of 1 to 62 pixels that fits or is clamped. -/
theorem decodeRunRepeatsPrev : Obligations.DecodeRunRepeatsPrev :=
  fun _ _ _ n h _ hmax hfits hans => exec_committed (i := .run n) h nofun (hmax.trans_lt (by decide)) hfits hans

/-- Settles O18: with clamp the run writes exactly the pixels that are left, so the cursor is at NPIX; with fault the commit is
the error. -/
theorem runOvershootIsClampedOrFaults : Obligations.RunOvershootIsClampedOrFaults := by
  refine ⟨fun s k d n h hover hmax => ⟨fun hclamp hans => ?clamp, fun hfault => ?fault⟩, rfl⟩
  case clamp =>
    have ⟨⟨_, _, _, hn⟩, _⟩ := h
    have hneeded : d.needed n = d.eng.npix.toNat - d.eng.pix.toNat := Nat.min_eq_right hover.le
    obtain ⟨t, hexec, hcommitted⟩ :=
      exec_committed (i := .run n) h nofun (hmax.trans_lt (by decide)) (.inl hclamp) (hneeded.trans_le hans)
    rw [show d.needed (chunkRun (.run n)) = _ from hneeded] at hcommitted
    have hend : t.eng.pix = d.eng.npix := BitVec.eq_of_toNat_eq (by rw [hcommitted.eng.cursor]; omega)
    exact ⟨t, hexec, hcommitted, hend, hcommitted.stop (hend.trans hcommitted.eng.npix.symm)⟩
  case fault =>
    have hexec := exec_commit (i := .run n) h.1 nofun
    obtain ⟨⟨-, -, -, hn⟩, hexp⟩ := h
    have hraise := Decoder.commit_overshoot (chunkPixel (.run n) d.eng) n .run 1 hexp hn (by omega)
    rw [hexec, hfault]
    simp only [chunkRun, chunkOp, Instr.byteLength, hraise]
    rfl

/-- Settles O52: the commit raises, waits before it moves the cursor, or moves it by at least one pixel inside the image. -/
theorem chunkStepAdvancesCursor : Obligations.ChunkStepAdvancesCursor := by
  intro s s' k d d' i ⟨hon, hexp⟩ hwf hi hexec hd'
  obtain ⟨hd, -⟩ := exec_decoder_next hon hi hexec hd'
  obtain ⟨-, -, hb, hn⟩ := hon
  obtain ⟨hlo, hhi⟩ := chunkRun_range hwf
  rcases Decoder.commit_cases s.overshoot (chunkPixel i d.eng) (chunkOp i) (hhi.trans_lt (by decide)) (byteLength_lt_eight hi)
    hb hn hexp with hraise | ⟨-, hans, hwait⟩ | hcommitted
  · exact .inl (by rw [hd, hraise]; rfl)
  · rw [hwait] at hd
    subst hd
    exact .inr (.inl ⟨hans, nofun, hb, rfl⟩)
  · rw [← hd] at hcommitted
    have hcursor := hcommitted.eng.cursor
    have hnpix := hcommitted.eng.npix
    obtain ⟨hmoves, hinside⟩ := Decoder.needed_inside hn hlo
    exact .inr (.inr ⟨hcommitted.expanded, by omega, by rw [hnpix]; omega, hnpix⟩)

/-- Settles O58: a commit that begins with too few answers waits; a later turn goes on with its expansion, which waits again or
ends the chunk step, and repeating the common update would change nothing. -/
theorem pixelSinkPacesExpansion : Obligations.PixelSinkPacesExpansion := by
  refine ⟨fun s k d i ⟨hon, hexp⟩ hwf hi hfits hans => ?begins, fun s k d agenda i j ha hd hinv hexp hwhole => ?goesOn⟩
  case begins =>
    refine ⟨_, _, by rw [exec_commit hon hi, Decoder.commit_waits hexp hfits hans]; rfl, ?_, Memory.writtenTo_fill _ _ _ _⟩
    exact Engine.cacheRead_of_set _ rfl
  case goesOn =>
    obtain ⟨hholds, hj, hturn⟩ := hinv.turn_of_expanding hexp hwhole s.overshoot
    obtain ⟨-, hhi, hfit⟩ := hholds.needed_range
    refine ⟨fun hwait => ⟨_, ?_, Memory.writtenTo_fill _ _ _ _⟩, fun hans => ⟨_, step_turn_dec ha hd, ?_⟩⟩
    · rw [step_turn_dec ha hd, hturn, Decoder.writeChunk_waits _ _ _ _ _ hwait]
    · have hupdated : d.eng = d.eng.update d.eng.prev :=
        (Engine.update_self rfl (hinv.updated (by rw [hexp]; nofun))).symm
      obtain ⟨hcommitted, hbytes, hbuf, hdone, hsource, hanswers, hsink, hstop, hgoOn⟩ :=
        Decoder.ends_committed d.eng.prev (d.needed (chunkRun i)) (chunkOp i) i.byteLength j (hhi.trans_lt (by decide))
          (byteLength_lt_eight (ne_endMarker_of_decodeChunk hwhole)) hholds.busy hfit hj.le hans hupdated _ hturn
      refine ⟨hcommitted, hbytes, hbuf, hdone, hsource, hanswers, ?_, hstop, hgoOn⟩
      have hwritten := Memory.writtenTo_fill d.sink (d.eng.pix.toNat + j) (d.needed (chunkRun i) - j) d.eng.prev
      rwa [Nat.add_assoc, Nat.add_sub_cancel' hj.le, ← hsink] at hwritten

/-- Settles O59: only a commit that waits has its expansion under way afterwards, and its second half is the rest of the one
that need not wait. -/
theorem pixelSinkLatencyDoesNotMatter : Obligations.PixelSinkLatencyDoesNotMatter := by
  intro s u k d t i a b ⟨hon, hexp⟩ hwf hi hexec ht hwaits
  have ⟨_, _, hb, hn⟩ := hon
  have hanswered : ∀ n, State.decodesOn { s with decs := s.decs.set k { d with pixelAnswers := n } } k
      { d with pixelAnswers := n } := fun n => hon.set hb hn
  obtain ⟨hcommit, rfl⟩ := exec_decoder_next (hanswered a) hi hexec ht
  obtain ⟨hfits, hans⟩ := Decoder.waits_of_expanded (d := { d with pixelAnswers := a }) hb hn hexp
    ((chunkRun_range hwf).2.trans_lt (by decide)) (byteLength_lt_eight hi) (hcommit ▸ hwaits)
  replace hcommit := hcommit.trans (Decoder.commit_waits hexp hfits hans)
  have hresumed : State.decodesOn { s with decs := s.decs.set k { t with pixelAnswers := t.pixelAnswers + b } } k _ :=
    hon.set (by rw [hcommit]; exact hb) (by rw [hcommit]; exact hn)
  simp only [List.set_set]
  rw [exec_commit hresumed hi, exec_commit (hanswered (a + b)) hi, hcommit]
  simp only [List.set_set, Nat.zero_add]
  rw [Decoder.commit_resumes b hexp hfits hans]

end
end

section
/-! PROOF. The decoder's reads when the byte source has answered: a whole chunk is run, and a missing byte ends the session with
TRUNCATION (R52, R122, R134). -/

namespace Sys2Proof.Machine

/-- R84: a chunk's encoding is that chunk and nothing more. -/
theorem decodeChunk_encode_self {i : Instr} (hwf : i.wf = true) (hi : i ≠ .endMarker) :
    decodeChunk (encode i) = .unit i [] := by
  simpa using decodeChunk_encode hwf hi []

/-- R70, R80: no chunk's encoding begins with another chunk: its proper fronts are incomplete. -/
theorem rejected_of_encode_front {i : Instr} (hwf : i.wf = true) (hi : i ≠ .endMarker) {p q : List Byte}
    (hpq : p ++ q = encode i) (hq : q ≠ []) : ∃ why, decodeChunk p = .rejected why := by
  cases hp : decodeChunk p with
  | rejected why => exact ⟨why, rfl⟩
  | unit i' rest =>
    have hwhole := decodeChunk_encode_self hwf hi
    rw [← hpq, decodeChunk_append hp] at hwhole
    simp [hq] at hwhole

section

variable {d : Decoder} {bs : List Byte} {more : List ReadAnswer}

/-- R122: when the bytes read before and the answers that come spell a chunk, the fetch takes exactly these. -/
theorem Decoder.fetch_of_complete {i : Instr} (hwf : i.wf = true) (hi : i ≠ .endMarker) (hbuf : d.chunkBuf ++ bs = encode i)
    (hsrc : d.source = bs.map .byte ++ more) : d.fetch fetchFuel = .chunk i { d with
      eng := { d.eng with bytes := d.eng.bytes + BitVec.ofNat 64 bs.length }
      chunkBuf := encode i
      source := more } := by
  have hfuel : fetchFuel = bs.length + ((5 - bs.length) + 1) := by
    have hlen := congrArg List.length hbuf
    have hmax := encode_length_le hi
    rw [List.length_append] at hlen
    have hsix : fetchFuel = 6 := rfl
    omega
  have hfront : ∀ p q, bs = p ++ q → q ≠ [] → ∃ why, decodeChunk (d.chunkBuf ++ p) = .rejected why := fun p q hpq hq =>
    rejected_of_encode_front hwf hi (by rw [List.append_assoc, ← hpq, hbuf]) hq
  rw [hfuel, Decoder.fetch_reads bs d more _ hsrc hfront, hbuf]
  exact Decoder.fetch_whole (decodeChunk_encode_self hwf hi) _

/-- R134: a fetch that is answered End or Fail with no whole chunk in the chunk buffer. -/
theorem Decoder.fetch_truncates {why : DecodeReject} (hrej : decodeChunk d.chunkBuf = .rejected why) {a : ReadAnswer}
    (hsrc : d.source = a :: more) (ha : a = .exhausted ∨ a = .fail) (fuel : Nat) :
    d.fetch (fuel + 1) = .truncated (Decoder.raise .truncation { d with source := more }) := by
  rw [Decoder.fetch, hrej]
  rcases ha with rfl | rfl <;> simp only [Decoder.readByte, hsrc]

/-- R134, R182: a decoder's turn in which End or Fail is answered before the chunk is whole. -/
theorem Decoder.turn_truncates (policy : RunOvershoot) (hb : d.eng.st = .busy) (hn : d.eng.pix.toNat < d.eng.npix.toNat)
    {why : DecodeReject} (hrej : decodeChunk (d.chunkBuf ++ bs) = .rejected why) {a : ReadAnswer}
    (hsrc : d.source = bs.map .byte ++ a :: more) (ha : a = .exhausted ∨ a = .fail) : d.turn policy = { d with
      eng := { d.eng with
        bytes := d.eng.bytes + BitVec.ofNat 64 bs.length
        st := .error
        err := .truncation }
      chunkBuf := []
      expanded := none
      source := more } := by
  have hlt := length_lt_fetchFuel hrej
  obtain ⟨left, hleft⟩ : ∃ left, fetchFuel - bs.length = left + 1 := ⟨fetchFuel - bs.length - 1, by omega⟩
  have hfetch := Decoder.fetch_of_incomplete hrej hsrc hlt.le
  rw [hleft, Decoder.fetch_truncates hrej rfl ha] at hfetch
  rw [Decoder.turn, if_neg (by simp [hb]), if_pos (by simp [Decoder.needsPixels, hn]), hfetch]
  rfl

/-- R122: the step of a decoder whose fetch comes to a chunk is `exec` of that chunk. -/
theorem step_of_fetched {s : State} {k : Nat} {agenda : List Action} (ha : s.agenda = .turn (.dec k) :: agenda)
    (hd : s.decs[k]? = some d) (hb : d.eng.st = .busy) (hn : d.eng.pix.toNat < d.eng.npix.toNat) {i : Instr} {d' : Decoder}
    (hfetch : d.fetch fetchFuel = .chunk i d') :
    step s = exec i { s with agenda := agenda, turn := .dec k, decs := s.decs.set k d' } := by
  rw [step_turn ha]
  simp only [State.planTurn, State.planDec, hd]
  rw [if_neg (by simp [hb]), if_pos (by simp [Decoder.needsPixels, hn]), hfetch]
  rfl

end

end Sys2Proof.Machine

section

open Sys2Proof Sys2Proof.Machine

/-- Settles O33: the turn's fetch takes the bytes that came, and the next answer raises TRUNCATION. -/
theorem missingByteRaisesTruncation : Obligations.MissingByteRaisesTruncation := by
  intro s k d agenda bs a more why hagenda hd hb hn hrej hsrc ha
  rw [step_turn_dec hagenda hd, Decoder.turn_truncates s.overshoot hb hn hrej hsrc ha]

/-- Settles O29: the fetch stops at the last byte of the encoding, since no proper front of it is a chunk. -/
theorem stepRunsDecodedChunk : Obligations.StepRunsDecodedChunk :=
  fun _ _ _ _ _ _ _ hagenda hd hb hn hwf hi hbuf hsrc =>
    step_of_fetched hagenda hd hb hn (Decoder.fetch_of_complete hwf hi hbuf hsrc)

end
end

section
/-! PROOF. START on a decoder with an empty image (R131, R201). -/

namespace Sys2Proof.Machine

/-- R131, R33: a session of an image without pixels ends at START, on otherwise fresh registers. -/
theorem Decoder.start_of_empty {d : Decoder} (hempty : d.eng.width.toNat * d.eng.height.toNat = 0) :
    d.start = { d with eng := d.eng.startSession.finish, chunkBuf := [], expanded := none } := by
  have hnpix : d.eng.startSession.npix.toNat = 0 := (npix_toNat d.eng.width d.eng.height).trans hempty
  rcases Decoder.stopTest_cases { d with eng := d.eng.startSession, chunkBuf := [], expanded := none } with
    ⟨hlt, -⟩ | ⟨-, hstop⟩
  · exact absurd (hlt.trans_eq hnpix) (Nat.not_lt_zero _)
  · exact hstop

end Sys2Proof.Machine

section

open Sys2Proof Sys2Proof.Machine

/-- Settles O39: the stop test of START ends the session. -/
theorem emptyImageDecodesAtStart : Obligations.EmptyImageDecodesAtStart := by
  intro s k d agenda v ha hd hb hbit hempty
  have hstart : d.eng.isStart 0 v = true := Engine.isStart_iff.mpr ⟨rfl, hbit, hb⟩
  have hnpix : d.eng.startSession.npix = 0 :=
    BitVec.eq_of_toNat_eq ((npix_toNat d.eng.width d.eng.height).trans hempty)
  refine ⟨_, step_regWrite_dec ha hd rfl, ?_⟩
  rw [Decoder.writeReg_of_start hstart, Decoder.start_of_empty hempty]
  exact ⟨rfl, rfl, rfl, rfl, hnpix, Engine.cacheRead_fresh rfl, rfl, rfl, rfl, rfl, rfl, rfl, rfl, rfl, rfl⟩

end
end

section
/-! PROOF. Wrapping deltas between two pixels (R155 to R158): the tests on biased bytes are tests on signed ranges, and the
operands that the encoder computes are the signed deltas themselves. -/

namespace Sys2Proof.Machine

/-! ## One byte, read as a signed delta -/

section

variable {x : Byte} {k : Nat}

/-- R155, R156: a biased byte is below `2k` modulo 256 exactly when the signed byte is in `-k..k-1`. -/
theorem biased_lt_iff (x : Byte) (hk : k ≤ 128) :
    (x + BitVec.ofNat 8 k).toNat < 2 * k ↔ -(k : Int) ≤ x.toInt ∧ x.toInt < k := by
  have hx := x.isLt
  rw [BitVec.toNat_add, BitVec.toNat_ofNat, BitVec.toInt_eq_toNat_cond]
  split <;> omega

/-- R78: inside its range, the biased field less the bias is the signed delta. -/
theorem unbias_biased (hk : k ≤ 128) (h : -(k : Int) ≤ x.toInt ∧ x.toInt < k) :
    unbias k (x + BitVec.ofNat 8 k) = x.toInt := by
  have hx := x.isLt
  rw [BitVec.toInt_eq_toNat_cond] at h ⊢
  rw [unbias, BitVec.toNat_add, BitVec.toNat_ofNat]
  split at h <;> omega

/-- R158: with the green delta in its range, the red or blue delta relative to it may be taken with or without wrapping: the
differences of two signed bytes that agree modulo 256 are too far apart for both to be near 0. -/
theorem toInt_sub_inRange_iff {y : Byte} (hy : -32 ≤ y.toInt ∧ y.toInt ≤ 31) :
    (-8 ≤ (x - y).toInt ∧ (x - y).toInt < 8) ↔ (-8 ≤ x.toInt - y.toInt ∧ x.toInt - y.toInt ≤ 7) := by
  have hlo := BitVec.le_toInt x
  have hhi := BitVec.toInt_lt (x := x)
  rw [BitVec.toInt_sub, Int.bmod_def]
  omega

/-- R158: a relative delta in its range is the difference of the signed deltas. -/
theorem toInt_sub_of_inRange {y : Byte} (h : -8 ≤ x.toInt - y.toInt ∧ x.toInt - y.toInt ≤ 7) :
    (x - y).toInt = x.toInt - y.toInt := by
  rw [BitVec.toInt_sub]
  exact Int.bmod_eq_of_le (by omega) (by omega)

end

/-! ## The DIFF and LUMA tests and operands -/

section

variable {px prev : Pixel}

theorem alphaSame_iff : alphaSame px prev = true ↔ px.a = prev.a := beq_iff_eq

/-- R155, R156: the DIFF test on signed deltas. -/
theorem diffOk_iff : diffOk px prev = true ↔ px.a = prev.a ∧ inDiffRange px prev := by
  have hrange (x : Byte) : (x + 2).toNat ≤ 3 ↔ -2 ≤ x.toInt ∧ x.toInt ≤ 1 :=
    Nat.lt_succ_iff.symm.trans ((biased_lt_iff (k := 2) x (by decide)).trans (by omega))
  simp only [diffOk, Bool.and_eq_true, decide_eq_true_eq, alphaSame_iff, hrange, and_assoc]
  rfl

/-- R155, R158: the LUMA test on signed deltas, red and blue relative to green without wrapping. -/
theorem lumaOk_iff : lumaOk px prev = true ↔ px.a = prev.a ∧ inLumaRange px prev := by
  have hgreen (x : Byte) : (x + 32).toNat ≤ 63 ↔ -32 ≤ x.toInt ∧ x.toInt ≤ 31 :=
    Nat.lt_succ_iff.symm.trans ((biased_lt_iff (k := 32) x (by decide)).trans (by omega))
  have hrelative (x : Byte) : (x + 8).toNat ≤ 15 ↔ -8 ≤ x.toInt ∧ x.toInt < 8 :=
    Nat.lt_succ_iff.symm.trans (biased_lt_iff (k := 8) x (by decide))
  simp only [lumaOk, Bool.and_eq_true, decide_eq_true_eq, alphaSame_iff, hgreen, hrelative]
  rw [and_assoc, and_assoc]
  exact and_congr_right fun _ => and_congr_right fun hg =>
    and_congr (toInt_sub_inRange_iff hg) (toInt_sub_inRange_iff hg)

/-- R156: the DIFF operands are the signed deltas. -/
theorem diffChunk_eq (h : inDiffRange px prev) :
    diffChunk px prev = .diff (px.r - prev.r).toInt (px.g - prev.g).toInt (px.b - prev.b).toInt := by
  obtain ⟨hr, hg, hb⟩ := h
  have hfield {x : Byte} (hx : -2 ≤ x.toInt ∧ x.toInt ≤ 1) : unbias 2 (x + 2) = x.toInt :=
    unbias_biased (k := 2) (by decide) (by omega)
  simp only [diffChunk, deltaR, deltaG, deltaB, hfield hr, hfield hg, hfield hb]

/-- R158: the LUMA operands are the signed green delta and the differences of the other two to it. -/
theorem lumaChunk_eq (h : inLumaRange px prev) :
    lumaChunk px prev = .luma (px.g - prev.g).toInt ((px.r - prev.r).toInt - (px.g - prev.g).toInt)
      ((px.b - prev.b).toInt - (px.g - prev.g).toInt) := by
  obtain ⟨hg, hr, hb⟩ := h
  have hgreen : unbias 32 (px.g - prev.g + 32) = (px.g - prev.g).toInt :=
    unbias_biased (k := 32) (by decide) (by omega)
  have hrelative {x y : Byte} (hx : -8 ≤ x.toInt - y.toInt ∧ x.toInt - y.toInt ≤ 7) :
      unbias 8 (x - y + 8) = x.toInt - y.toInt := by
    have hsub := toInt_sub_of_inRange hx
    exact (unbias_biased (k := 8) (by decide) (by omega)).trans hsub
  simp only [lumaChunk, deltaR, deltaG, deltaB, hgreen, hrelative hr, hrelative hb]

end

end Sys2Proof.Machine
end

section
/-! PROOF. What an encoder selects, check by check (R150 to R152, R165, R168). -/

namespace Sys2Proof.Machine

section

variable {e : Encoder} {px : Pixel}

/-! ## The six checks (R151) -/

/-- The run check holds: the lookahead decides (R152). -/
theorem Encoder.selectFor_of_prev (hrun : px = e.eng.prev) :
    e.selectFor px = e.lookahead px Config.runMax (max 1 e.erun) := by
  rw [Encoder.selectFor, if_pos hrun]

/-- The index check is the first that holds (R154). -/
theorem Encoder.selectFor_of_slot (hrun : px ≠ e.eng.prev) (hslot : e.eng.cacheRead (pixelHash px) = px) :
    e.selectFor px = .unit (.index (pixelHash px)) := by
  rw [Encoder.selectFor, if_neg hrun, if_pos hslot]

/-- The DIFF check is the first that holds; its operands are the signed deltas (R156). -/
theorem Encoder.selectFor_of_diff (hmiss : e.missesCopies px) (ha : px.a = e.eng.prev.a) (hdiff : inDiffRange px e.eng.prev) :
    e.selectFor px =
      .unit (.diff (px.r - e.eng.prev.r).toInt (px.g - e.eng.prev.g).toInt (px.b - e.eng.prev.b).toInt) := by
  rw [Encoder.selectFor, if_neg hmiss.1, if_neg hmiss.2, if_pos (diffOk_iff.mpr ⟨ha, hdiff⟩), diffChunk_eq hdiff]

/-- The LUMA check is the first that holds; its operands are the signed green delta and the relative deltas (R158). -/
theorem Encoder.selectFor_of_luma (hmiss : e.missesCopies px) (ha : px.a = e.eng.prev.a) (hdiff : ¬ inDiffRange px e.eng.prev)
    (hluma : inLumaRange px e.eng.prev) :
    e.selectFor px = .unit (.luma (px.g - e.eng.prev.g).toInt ((px.r - e.eng.prev.r).toInt - (px.g - e.eng.prev.g).toInt)
      ((px.b - e.eng.prev.b).toInt - (px.g - e.eng.prev.g).toInt)) := by
  rw [Encoder.selectFor, if_neg hmiss.1, if_neg hmiss.2, if_neg (fun h => hdiff (diffOk_iff.mp h).2),
    if_pos (lumaOk_iff.mpr ⟨ha, hluma⟩), lumaChunk_eq hluma]

/-- Only the alpha check holds (R160). -/
theorem Encoder.selectFor_of_rgb (hmiss : e.missesCopies px) (ha : px.a = e.eng.prev.a) (hdiff : ¬ inDiffRange px e.eng.prev)
    (hluma : ¬ inLumaRange px e.eng.prev) : e.selectFor px = .unit (.rgb px.r px.g px.b) := by
  rw [Encoder.selectFor, if_neg hmiss.1, if_neg hmiss.2, if_neg (fun h => hdiff (diffOk_iff.mp h).2),
    if_neg (fun h => hluma (lumaOk_iff.mp h).2), if_pos (alphaSame_iff.mpr ha)]

/-- No check holds: the copies miss, and a changed alpha rules out the other three (R162). -/
theorem Encoder.selectFor_of_rgba (hmiss : e.missesCopies px) (ha : px.a ≠ e.eng.prev.a) :
    e.selectFor px = .unit (.rgba px.r px.g px.b px.a) := by
  rw [Encoder.selectFor, if_neg hmiss.1, if_neg hmiss.2, if_neg (fun h => ha (diffOk_iff.mp h).1),
    if_neg (fun h => ha (lumaOk_iff.mp h).1), if_neg (fun h => ha (alphaSame_iff.mp h))]

/-! ## The run lookahead (R152) -/

/-- A lookahead comes to a run, or it waits for the pixel source. -/
theorem Encoder.lookahead_cases (e : Encoder) (px : Pixel) :
    ∀ fuel m, (∃ n, e.lookahead px fuel m = .unit (.run n)) ∨ ∃ n, e.lookahead px fuel m = .waitSource n
  | 0, m => .inl ⟨m, rfl⟩
  | fuel + 1, m => by
    unfold Encoder.lookahead
    split
    · split
      · exact .inr ⟨m, rfl⟩
      · split
        · exact Encoder.lookahead_cases e px fuel (m + 1)
        · exact .inl ⟨m, rfl⟩
    · exact .inl ⟨m, rfl⟩

/-- A lookahead that ends comes to a RUN. -/
theorem Encoder.run_of_lookahead {fuel m : Nat} {i : Instr} (h : e.lookahead px fuel m = .unit i) : ∃ n, i = .run n := by
  rcases e.lookahead_cases px fuel m with ⟨n, hrun⟩ | ⟨n, hwait⟩
  · cases hrun.symm.trans h
    exact ⟨n, rfl⟩
  · cases hwait.symm.trans h

/-- Only the run check selects a RUN, by the lookahead. -/
theorem Encoder.lookahead_of_selectFor_run {n : Nat} (hs : e.selectFor px = .unit (.run n)) :
    px = e.eng.prev ∧ e.lookahead px Config.runMax (max 1 e.erun) = .unit (.run n) := by
  rcases Encoder.selectFor_cases hs with h | ⟨-, -, h⟩ | ⟨-, -, h⟩ | ⟨-, -, h⟩ | ⟨-, -, h⟩ | ⟨-, -, h⟩
  · exact h
  all_goals cases h

/-- R25, R152: what a good encoder has counted when it begins its lookahead is of pixels equal to `prev`. -/
theorem Encoder.Inv.counted_pixels (h : e.Inv) (hp : e.srcPixel 0 = some e.eng.prev) :
    ∀ j < max 1 e.erun, e.srcPixel j = some e.eng.prev := by
  intro j hj
  rcases Nat.eq_zero_or_pos j with rfl | hpos
  · exact hp
  · exact h.runPixels j (by omega)

/-- R152: every pixel of a chunk that a good encoder selects is the source pixel at `ECUR`. -/
theorem Encoder.Inv.selected_pixels (h : e.Inv) (hn : e.eng.pix.toNat < e.eng.npix.toNat) (hp : e.srcPixel 0 = some px)
    {i : Instr} (hs : e.selectFor px = .unit i) : ∀ j < chunkRun i, e.srcPixel j = some px := by
  have hone (hrun : chunkRun i = 1) : ∀ j < chunkRun i, e.srcPixel j = some px := by
    intro j hj
    obtain rfl : j = 0 := by omega
    exact hp
  cases i with
  | run n =>
    obtain ⟨rfl, hlook⟩ := Encoder.lookahead_of_selectFor_run hs
    obtain ⟨hmax, hfit⟩ := h.lookahead_start hn
    obtain ⟨n', hn', -, -, -, hpixels⟩ := Encoder.lookahead_run _ _ hmax hfit hlook
    cases hn'
    intro j hj
    rcases Nat.lt_or_ge j (max 1 e.erun) with hlt | hge
    · exact h.counted_pixels hp j hlt
    · exact hpixels j hge hj
  | rgb | rgba | index | diff | luma | endMarker => exact hone rfl

/-- R84, R168: a chunk that a good encoder selects can be spelled. -/
theorem Encoder.Inv.wf_of_selectFor (h : e.Inv) (hn : e.eng.pix.toNat < e.eng.npix.toNat) {i : Instr}
    (hs : e.selectFor px = .unit i) : i.wf = true := by
  have ⟨_, hlo, hhi, _⟩ := h.selectFor_fits hn hs
  rcases Encoder.selectFor_cases hs with ⟨-, hlook⟩ | ⟨-, hok, rfl⟩ | ⟨-, hok, rfl⟩ | ⟨-, -, rfl⟩ | ⟨-, -, rfl⟩ | ⟨-, -, rfl⟩
  case inl =>
    obtain ⟨n, rfl⟩ := Encoder.run_of_lookahead hlook
    exact (Instr.wf_run n).mpr ⟨hlo, hhi⟩
  case inr.inl =>
    obtain ⟨-, hdiff⟩ := diffOk_iff.mp hok
    rw [diffChunk_eq hdiff, Instr.wf_diff]
    exact hdiff
  case inr.inr.inl =>
    obtain ⟨-, hluma⟩ := lumaOk_iff.mp hok
    rw [lumaChunk_eq hluma, Instr.wf_luma]
    exact hluma
  all_goals rfl

end

end Sys2Proof.Machine

section

open Sys2Proof Sys2Proof.Machine

/-- Settles O11: each test on biased bytes is a test on signed deltas. -/
theorem wrappingTestsAgreeWithSignedRanges : Obligations.WrappingTestsAgreeWithSignedRanges :=
  fun _ _ => ⟨diffOk_iff, lumaOk_iff⟩

/-- Settles O26: with a pixel at `ECUR` the selection is the chain of checks, taken check by check. -/
theorem encoderSelectsByPriority : Obligations.EncoderSelectsByPriority := by
  refine fun e px => ⟨Encoder.select_end, fun hn hp => ?_⟩
  rw [Encoder.select_eq hn hp]
  refine ⟨fun hrun => ?_, Encoder.selectFor_of_slot, Encoder.selectFor_of_diff, Encoder.selectFor_of_luma,
    Encoder.selectFor_of_rgb, Encoder.selectFor_of_rgba⟩
  rw [Encoder.selectFor_of_prev hrun]
  exact e.lookahead_cases px _ _

/-- Settles O53: the RUN is a chunk inside the image whose pixels are the one at `ECUR`, which is `prev`; and FE and FF alone are
no chunk. -/
theorem encoderConsumesInsideImage : Obligations.EncoderConsumesInsideImage := by
  intro e n hinv hb hs
  obtain ⟨hn, px, hp, hsel⟩ := Encoder.pixel_of_select hs nofun
  obtain ⟨-, hlo, hhi, hfit⟩ := hinv.selectFor_fits hn hsel
  obtain ⟨rfl, -⟩ := Encoder.lookahead_of_selectFor_run hsel
  have hread := decodeChunk_encode_self (hinv.wf_of_selectFor hn hsel) nofun
  refine ⟨hlo, hhi, hfit, hinv.selected_pixels hn hp hsel, fun hbyte => ?_, fun hbyte => ?_⟩ <;>
    rw [hbyte] at hread <;> cases hread

end
end

section
/-! PROOF. Units emitted by an encoder (R53, R150 to R167): a selected chunk whose bytes are accepted is committed, the end marker
ends the session, and a byte that fails ends it with IO_ERROR. -/

namespace Sys2Proof.Machine

section

variable {e : Encoder} {px : Pixel} {i : Instr} {rest : List EmitAnswer}

/-- R164: what follows the last byte of a chunk is its commit. -/
theorem Encoder.finishUnit_of_chunk (hi : i ≠ .endMarker) (px : Pixel) :
    Encoder.finishUnit i px = Encoder.commit px (chunkRun i) (chunkOp i) (encode i).length := by
  cases i with
  | endMarker => exact absurd rfl hi
  | rgb | rgba | index | diff | luma | run => rfl

/-- R70: a chunk's encoding fits the 3 bits of its event record (R192). -/
theorem encode_length_lt_eight (hi : i ≠ .endMarker) : (encode i).length < 8 :=
  (encode_length_le hi).trans_lt (by decide)

/-- R53, R164: the turn of an encoder whose selected chunk lies inside the image and has all its bytes accepted. -/
theorem Encoder.turn_committed (hb : e.eng.st = .busy) (hp : e.srcPixel 0 = some px) (hs : e.select = .unit i)
    (hi : i ≠ .endMarker) (hrun : chunkRun i < 64) (hfit : e.eng.pix.toNat + chunkRun i ≤ e.eng.npix.toNat)
    (hsink : e.sinkAccepts (encode i) rest) : e.Committed e.turn px (chunkRun i) (chunkOp i) (encode i) rest := by
  rw [Encoder.turn_of_select hb hs, hp, Encoder.finishUnit_of_chunk hi, Encoder.emit_ok _ _ _ rest hsink]
  exact {
    eng := e.eng.committed _ px _ _ _ hrun (encode_length_lt_eight hi) hfit
    sink := rfl, bytes := rfl, answers := rfl, source := rfl, state := ⟨hb, rfl⟩, hidden := ⟨rfl, rfl⟩ }

/-- R150, R166: the turn of an encoder that selects END and has all its bytes accepted. -/
theorem Encoder.turn_of_marker (hb : e.eng.st = .busy) (hs : e.select = .unit .endMarker)
    (hsink : e.sinkAccepts endMarkerBytes rest) : e.turn = { e with
      eng := { e.eng with st := .done, err := .none, bytes := e.eng.bytes + BitVec.ofNat 64 (8 - e.epos) }
      sink := e.sink ++ endMarkerBytes.drop e.epos
      answers := rest
      erun := 0
      epos := 0 } := by
  rw [Encoder.turn_of_select hb hs, encode, Encoder.emit_ok _ _ _ rest hsink]
  rfl

/-- R53, R167: an emission whose byte after `j` accepted ones fails; the unit is not finished. -/
theorem Encoder.emit_fails {bytes : List Byte} {j : Nat} (hj : e.epos + j < bytes.length) {more : List EmitAnswer}
    (has : e.answers = List.replicate j .ok ++ .fail :: more) (fin : Encoder → Encoder) : e.emit bytes fin = { e with
      eng := { e.eng with bytes := e.eng.bytes + BitVec.ofNat 64 j, st := .error, err := .ioError }
      sink := e.sink ++ (bytes.drop e.epos).take j
      answers := more
      erun := 0
      epos := 0 } := by
  have hleft : j < (bytes.drop e.epos).length := by rw [List.length_drop]; omega
  rw [Encoder.emit, Encoder.emitBytes_fail _ e j hleft more has]

end

section

variable {s : State} {k : Nat} {e : Encoder} {px : Pixel} {i : Instr} {bytes : List Byte} {rest : List EmitAnswer}

/-- R164: `exec` of the selected chunk, by the bytes that spell it. -/
theorem exec_emitted (h : s.encodes k e px) (hs : e.selectFor px = .unit i) (hi : i ≠ .endMarker) (hrun : chunkRun i < 64)
    (hfit : e.eng.pix.toNat + chunkRun i ≤ e.eng.npix.toNat) (hbytes : encode i = bytes) (hsink : e.sinkAccepts bytes rest) :
    ∃ t, exec i s = .next { s with encs := s.encs.set k t } ∧ e.Committed t px (chunkRun i) (chunkOp i) bytes rest := by
  obtain ⟨hturn, he, hb, hn, hp⟩ := h
  subst hbytes
  have hs := (Encoder.select_eq hn hp).trans hs
  exact ⟨e.turn, exec_enc hturn he hb hs, Encoder.turn_committed hb hp hs hi hrun hfit hsink⟩

/-- R164: a chunk of one pixel is always inside the image. -/
theorem exec_emitted_one (h : s.encodes k e px) (hs : e.selectFor px = .unit i) (hi : i ≠ .endMarker) (hone : chunkRun i = 1)
    (hbytes : encode i = bytes) (hsink : e.sinkAccepts bytes rest) :
    ∃ t, exec i s = .next { s with encs := s.encs.set k t } ∧ e.Committed t px 1 (chunkOp i) bytes rest := by
  have ⟨_, _, _, hn, _⟩ := h
  have hemitted := exec_emitted h hs hi (by omega) (by omega) hbytes hsink
  rwa [hone] at hemitted

/-- R104, R109: a chunk step with a pixel that its slot already holds changes no slot. -/
theorem Engine.Committed.cacheRead_of_held {a t : Engine} {px : Pixel} {m len : Nat} {kind : ChunkKind}
    (h : a.Committed t px m kind len) (hheld : a.cacheRead (pixelHash px) = px) (i : BitVec 6) :
    t.cacheRead i = a.cacheRead i := by
  by_cases hi : i = pixelHash px
  · rw [hi, h.slot, hheld]
  · exact h.slots i hi

end

end Sys2Proof.Machine

section

open Sys2Proof Sys2Proof.Machine

/-- Settles O19: the lookahead finds the run that ends there. -/
theorem encodeRunEmitsCount : Obligations.EncodeRunEmitsCount := by
  intro s k e px n rest h hprev hlo hhi hfit hpixels hend hcount hsink
  have hlook : e.lookahead px Config.runMax (max 1 e.erun) = .unit (.run n) :=
    Encoder.lookahead_eq hpixels hhi hfit hend _ _ (max_le hlo hcount) (hhi.trans (Nat.le_add_left _ _))
  exact exec_emitted (i := .run n) h ((Encoder.selectFor_of_prev hprev).trans hlook) nofun (hhi.trans_lt (by decide)) hfit
    (encode_run n hlo hhi) hsink

/-- Settles O20: the pixel's own slot holds it already, so the commit changes no slot. -/
theorem encodeIndexEmitsSlot : Obligations.EncodeIndexEmitsSlot := by
  intro s k e px rest h hne hslot hsink
  obtain ⟨t, hexec, hcommitted⟩ :=
    exec_emitted_one h (Encoder.selectFor_of_slot hne hslot) nofun rfl (encode_index _) hsink
  exact ⟨t, hexec, hcommitted, hcommitted.eng.cacheRead_of_held hslot⟩

/-- Settles O21: the DIFF check is the first that holds, and deltas in its ranges can be spelled. -/
theorem encodeDiffEmitsBiasedDeltas : Obligations.EncodeDiffEmitsBiasedDeltas := by
  rintro s k e px dr dg db bytes rest h hmiss ha hdiff rfl rfl rfl rfl hsink
  exact exec_emitted_one h (Encoder.selectFor_of_diff hmiss ha hdiff) nofun rfl
    (encode_diff _ _ _ ((Instr.wf_diff _ _ _).mpr hdiff)) hsink

/-- Settles O22: the LUMA check is the first that holds, and deltas in its ranges can be spelled. -/
theorem encodeLumaEmitsBiasedDeltas : Obligations.EncodeLumaEmitsBiasedDeltas := by
  rintro s k e px dr dg db bytes rest h hmiss ha hdiff hluma rfl rfl rfl rfl hsink
  exact exec_emitted_one h (Encoder.selectFor_of_luma hmiss ha hdiff hluma) nofun rfl
    (encode_luma _ _ _ ((Instr.wf_luma _ _ _).mpr hluma)) hsink

/-- Settles O23: alpha is all that the checks find the same. -/
theorem encodeRgbEmitsChannels : Obligations.EncodeRgbEmitsChannels :=
  fun _ _ _ _ _ h hmiss ha hdiff hluma hsink =>
    exec_emitted_one h (Encoder.selectFor_of_rgb hmiss ha hdiff hluma) nofun rfl rfl hsink

/-- Settles O24: a changed alpha and missing copies leave RGBA. -/
theorem encodeRgbaEmitsChannels : Obligations.EncodeRgbaEmitsChannels :=
  fun _ _ _ _ _ h hmiss ha hsink => exec_emitted_one h (Encoder.selectFor_of_rgba hmiss ha) nofun rfl rfl hsink

/-- Settles O25: with no pixel left END is selected, and its turn is the end of the session. -/
theorem encodeEndEmitsMarker : Obligations.EncodeEndEmitsMarker := by
  intro s k e rest hturn he hb hall hsink
  have hs : e.select = .unit .endMarker := Encoder.select_end (by rw [hall])
  refine ⟨hs, ?_⟩
  rw [exec_enc hturn he hb hs, Encoder.turn_of_marker hb hs hsink]
  rfl

/-- Settles O35: the turn emits the rest of the selected unit, and the emission fails after `j` bytes. -/
theorem sinkFailureRaisesIoError : Obligations.SinkFailureRaisesIoError := by
  intro s k e agenda i j more ha he hb hs hj has
  rw [step_turn_enc ha he, Encoder.turn_of_select hb hs, Encoder.emit_fails hj has]

/-- Settles O30: the step and `exec` of the selected unit are both the encoder's turn. -/
theorem stepRunsSelectedUnit : Obligations.StepRunsSelectedUnit :=
  fun s k _ agenda _ ha he hb hs =>
    (step_turn_enc ha he).trans (exec_enc (s := { s with agenda := agenda, turn := .enc k }) rfl he hb hs).symm

end
end

section
/-! PROOF. Lock step of a decoder and an encoder (R170, R205): the selected chunk means the source pixel on both sides, and both
commits keep `prev`, cache, cursor and NPIX in agreement. -/

namespace Sys2Proof.Machine

/-! ## The pixel of the selected chunk -/

/-- R111, R155: adding a delta that was biased into a field and taken out again is adding the wrapping delta. -/
theorem addDelta_unbias (c x : Byte) (k : Nat) : addDelta c (unbias k (x + BitVec.ofNat 8 k)) = c + x := by
  have hfield : BitVec.ofInt 8 (unbias k (x + BitVec.ofNat 8 k)) = x := by
    rw [unbias, sub_eq_add_neg, BitVec.ofInt_add, BitVec.ofInt_neg, BitVec.ofInt_natCast, BitVec.ofInt_natCast,
      BitVec.ofNat_toNat, BitVec.setWidth_eq, add_neg_cancel_right]
  rw [addDelta, hfield]

/-- R111: deltas add up. -/
theorem addDelta_add (c : Byte) (a b : Int) : addDelta c (a + b) = addDelta (addDelta c a) b := by
  simp only [addDelta, BitVec.ofInt_add, BitVec.add_assoc]

section

variable {px : Pixel} {g : Engine}

/-- R126, R156: DIFF's operands lead from `prev` to the pixel, in range or not. -/
theorem chunkPixel_diffChunk (ha : px.a = g.prev.a) : chunkPixel (diffChunk px g.prev) g = px := by
  have hfield (c x : Byte) : addDelta c (unbias 2 (x - c + 2)) = x :=
    (addDelta_unbias c (x - c) 2).trans (by rw [add_sub_cancel])
  simp only [diffChunk, chunkPixel, shiftPixel, deltaR, deltaG, deltaB, hfield, ← ha]

/-- R127, R158: LUMA's operands lead from `prev` to the pixel, in range or not. -/
theorem chunkPixel_lumaChunk (ha : px.a = g.prev.a) : chunkPixel (lumaChunk px g.prev) g = px := by
  have hgreen (c x : Byte) : addDelta c (unbias 32 (x + 32)) = c + x := addDelta_unbias c x 32
  have hrelative (c x : Byte) : addDelta c (unbias 8 (x + 8)) = c + x := addDelta_unbias c x 8
  simp only [lumaChunk, chunkPixel, shiftPixel, deltaR, deltaG, deltaB, addDelta_add, hgreen, hrelative, ← ha]
  simp

end

/-! ## Agreement of registers -/

/-- What lock step compares: `prev`, the cache, the pixel cursor and NPIX are the same (R205). -/
structure Engine.Agrees (a b : Engine) : Prop where
  prev : a.prev = b.prev
  cache : a.cache = b.cache
  pix : a.pix = b.pix
  npix : a.npix = b.npix

section

variable {a b a' b' : Engine} {px : Pixel} {m : Nat}

/-- R103: a cache is what its 64 slots read. -/
theorem Engine.cache_eq_of_cacheRead (h : ∀ i, a.cacheRead i = b.cacheRead i) : a.cache = b.cache := by
  apply Vector.ext
  intro i hi
  have hslot := h (BitVec.ofNat 6 i)
  have hnum : (BitVec.ofNat 6 i).toNat = i := by rw [BitVec.toNat_ofNat]; omega
  simpa only [Engine.cacheRead, hnum] using hslot

/-- R129, R164: chunk steps with one pixel and one number of pixels keep an agreement. -/
theorem Engine.Agrees.committed (h : a.Agrees b) {kind kind' : ChunkKind} {len len' : Nat}
    (ha : a.Committed a' px m kind len) (hb : b.Committed b' px m kind' len') : a'.Agrees b' where
  prev := ha.prev.trans hb.prev.symm
  cache := by
    refine Engine.cache_eq_of_cacheRead fun i => ?_
    by_cases hi : i = pixelHash px
    · rw [hi, ha.slot, hb.slot]
    · rw [ha.slots i hi, hb.slots i hi, Engine.cacheRead_congr h.cache]
  pix := BitVec.eq_of_toNat_eq (by rw [ha.cursor, hb.cursor, h.pix])
  npix := by rw [ha.npix, hb.npix, h.npix]

/-- A chunk stands for the same pixel on registers that agree. -/
theorem Engine.Agrees.chunkPixel_eq (h : a.Agrees b) (i : Instr) : chunkPixel i a = chunkPixel i b := by
  cases i with
  | rgb | diff | luma | run | endMarker => simp only [chunkPixel, h.prev]
  | rgba => rfl
  | index slot => exact Engine.cacheRead_congr h.cache slot

/-- R170: on registers that agree with an encoder's, the chunk that it selects for a pixel stands for that pixel. -/
theorem Engine.Agrees.chunkPixel_selected {e : Encoder} (h : a.Agrees e.eng) {i : Instr} (hs : e.selectFor px = .unit i) :
    chunkPixel i a = px := by
  rw [h.chunkPixel_eq]
  rcases Encoder.selectFor_cases hs with ⟨hprev, hlook⟩ | ⟨-, hok, rfl⟩ | ⟨-, hok, rfl⟩ | ⟨-, hslot, rfl⟩ | ⟨-, ha, rfl⟩ |
    ⟨-, -, rfl⟩
  · obtain ⟨n, rfl⟩ := Encoder.run_of_lookahead hlook
    exact hprev.symm
  · exact chunkPixel_diffChunk (diffOk_iff.mp hok).1
  · exact chunkPixel_lumaChunk (lumaOk_iff.mp hok).1
  · exact hslot
  · rw [chunkPixel, ← ha]
  · rfl

end

/-! ## One chunk -/

section

variable {d d' : Decoder} {e : Encoder} {px : Pixel} {i : Instr}

/-- R133, R168: a decoder that agrees with an encoder has at least the pixels of the selected chunk left to write. -/
theorem Engine.Agrees.needed_selected (h : d.eng.Agrees e.eng) {n : Nat} (hfit : e.eng.pix.toNat + n ≤ e.eng.npix.toNat) :
    d.needed n = n := by
  rw [Decoder.needed, h.pix, h.npix]
  omega

/-- R170: what a decoder has written after a chunk step is the source pixels that the encoder consumed. -/
theorem Decoder.Committed.read_sink_eq_srcPixel {kind : ChunkKind} {m len : Nat} (hd : d.Committed d' px m kind len)
    (hpixels : ∀ j < m, e.srcPixel j = some px) :
    ∀ j < m, Memory.read d'.sink (d.eng.pix.toNat + j) = e.srcPixel j := fun j hj => by
  rw [hpixels j hj]
  exact hd.written _ (Nat.le_add_right _ j) (Nat.add_lt_add_left hj _)

end

end Sys2Proof.Machine

section

open Sys2Proof Sys2Proof.Machine

/-- Settles O54: both sides commit the selected chunk's pixel and its number of pixels, which keeps the agreement. -/
theorem oneChunkInLockStep : Obligations.OneChunkInLockStep := by
  intro s u k l d e px i rest hdec henc hinv hprev hcache hpix hnpix hs hsink hans
  have hagrees : d.eng.Agrees e.eng := ⟨hprev, hcache, hpix, hnpix⟩
  have ⟨_, _, _, hn, hp⟩ := henc
  rw [Encoder.select_eq hn hp] at hs
  obtain ⟨hi, -, hmax, hfit⟩ := hinv.selectFor_fits hn hs
  have hrun : chunkRun i < 64 := hmax.trans_lt (by decide)
  have hneeded := hagrees.needed_selected hfit
  obtain ⟨d', hexecD, hd⟩ :=
    exec_committed hdec hi hrun (.inr (by rwa [hpix, hnpix])) (hneeded.trans_le hans)
  rw [hneeded, hagrees.chunkPixel_selected hs] at hd
  obtain ⟨e', hexecE, he⟩ := exec_emitted henc hs hi hrun hfit rfl hsink
  have ⟨hprev', hcache', hpix', hnpix'⟩ := hagrees.committed hd.eng he.eng
  have ⟨herun, hepos⟩ := he.hidden
  exact ⟨d', e', hexecD, hexecE, hprev', hcache', hpix', hnpix', he.eng.cursor, hd.chunkBuf, hd.expanded, herun, hepos, he.sink,
    hd.read_sink_eq_srcPixel (hinv.selected_pixels hn hp hs), hd.kept⟩

end
end

section
/-! PROOF. Runs with nothing on the agenda: the one instance that can go on takes every turn (R213). -/

namespace Sys2Proof.Machine

/-! ## Runs -/

/-- Some number of steps leads from one state to the other. -/
def Runs (s t : State) : Prop := ∃ m, Host.Core.run core m s = .next t

theorem Runs.refl (s : State) : Runs s s := ⟨0, rfl⟩

theorem Runs.step {s t u : State} (h : Machine.step s = .next t) : Runs t u → Runs s u :=
  fun ⟨m, hm⟩ => ⟨m + 1, (run_succ m h).trans hm⟩

theorem Runs.trans {s t u : State} : Runs s t → Runs t u → Runs s u :=
  fun ⟨j, hj⟩ ⟨k, hk⟩ => ⟨j + k, (run_add hj).trans hk⟩

/-! ## The instance that goes on (R213) -/

section

variable {s : State}

/-- An instance that has something to do is one of the block's. -/
theorem State.mem_agents_of_canRun {a : Agent} (h : s.canRun a = true) : a ∈ s.agents := by
  have hlt {α : Type} {l : List α} {k : Nat} (hk : l[k]? ≠ none) : k < l.length := by
    by_contra hge
    exact hk (List.getElem?_eq_none (Nat.le_of_not_lt hge))
  cases a with
  | dec k =>
    refine List.mem_append_left _ (List.mem_map_of_mem (List.mem_range.mpr (hlt fun hnone => ?_)))
    simp [State.canRun, hnone] at h
  | enc k =>
    refine List.mem_append_right _ (List.mem_map_of_mem (List.mem_range.mpr (hlt fun hnone => ?_)))
    simp [State.canRun, hnone] at h

/-- With nothing on the agenda, the only instance that can go on takes its turn, whosever turn it was. -/
theorem step_of_only_canRun (ha : s.agenda = []) {a : Agent} (hcan : s.canRun a = true)
    (honly : ∀ b, s.canRun b = true → b = a) : step s = (s.planTurn a).outcome := by
  have hpick : s.pick = some a := by
    cases hfind : s.pick with
    | none =>
      have hnone := List.find?_eq_none.mp hfind a (List.mem_cons_of_mem _ (State.mem_agents_of_canRun hcan))
      exact absurd hcan hnone
    | some b => rw [honly b (List.find?_some hfind)]
  rw [step, State.plan, ha, hpick]

end

/-! ## One decoder and one encoder -/

/-- A block of one decoder and one encoder with nothing on the agenda. -/
def pairState (policy : RunOvershoot) (turn : Agent) (d : Decoder) (e : Encoder) : State where
  decs := [d]
  encs := [e]
  overshoot := policy
  busData := 0
  turn := turn
  agenda := []

section

variable {policy : RunOvershoot} {turn : Agent} {d : Decoder} {e : Encoder}

/-- Which of the two can go on. -/
theorem canRun_pairState {a : Agent} (h : (pairState policy turn d e).canRun a = true) :
    (a = .dec 0 ∧ d.canRun = true) ∨ (a = .enc 0 ∧ e.canRun = true) := by
  match a with
  | .dec 0 => exact .inl ⟨rfl, h⟩
  | .enc 0 => exact .inr ⟨rfl, h⟩
  | .dec (_ + 1) | .enc (_ + 1) => cases h

/-- The decoder goes on while the encoder cannot. -/
theorem step_pairState_dec (hd : d.canRun = true) (he : e.canRun = false) :
    step (pairState policy turn d e) = .next (pairState policy (.dec 0) (d.turn policy) e) := by
  refine (step_of_only_canRun (s := pairState policy turn d e) (a := .dec 0) rfl hd fun b hb => ?_).trans (planTurn_dec (d := d) rfl)
  rcases canRun_pairState hb with ⟨hdec, -⟩ | ⟨-, hcan⟩
  · exact hdec
  · rw [he] at hcan
    cases hcan

/-- The encoder goes on while the decoder cannot. -/
theorem step_pairState_enc (he : e.canRun = true) (hd : d.canRun = false) :
    step (pairState policy turn d e) = .next (pairState policy (.enc 0) d e.turn) := by
  refine (step_of_only_canRun (s := pairState policy turn d e) (a := .enc 0) rfl he fun b hb => ?_).trans (planTurn_enc (e := e) rfl)
  rcases canRun_pairState hb with ⟨-, hcan⟩ | ⟨henc, -⟩
  · rw [hd] at hcan
    cases hcan
  · exact henc

end

end Sys2Proof.Machine
end

section
/-! PROOF. A whole session of an encoder, and the session of a decoder on the bytes it emitted (R170, R202 to R205). -/

namespace Sys2Proof.Machine

/-! ## An encoder's session (R150 to R166) -/

/-- An encoder between two units of a session in which nothing makes it wait: every pixel of the image is answered, and the byte
sink accepts five bytes for each pixel that is left and the end marker. -/
structure Encoder.Encodes (e : Encoder) : Prop where
  inv : e.Inv
  busy : e.eng.st = .busy
  epos : e.epos = 0
  answered : ∀ p < e.eng.npix.toNat, Memory.read e.source p ≠ none
  room : ∃ n, e.answers = List.replicate (5 * (e.eng.npix.toNat - e.eng.pix.toNat) + 8 + n) .ok

section

variable {e : Encoder} {i : Instr}

/-- R54, R193: it selects a unit. -/
theorem Encoder.Encodes.selects (h : e.Encodes) : ∃ i, e.select = .unit i := by
  cases hs : e.select with
  | unit i => exact ⟨i, rfl⟩
  | waitSource n =>
    obtain ⟨-, -, hinside, hnone⟩ := h.inv.waitSource_position hs
    exact absurd hnone (h.answered _ hinside)

/-- R53: its byte sink accepts a chunk, and still has room for what is left after it. -/
theorem Encoder.Encodes.sinkAccepts (h : e.Encodes) {len run : Nat} (hlen : len ≤ 5) (hrun : 1 ≤ run)
    (hfit : e.eng.pix.toNat + run ≤ e.eng.npix.toNat) : ∃ n, e.answers = List.replicate len .ok ++
      List.replicate (5 * (e.eng.npix.toNat - (e.eng.pix.toNat + run)) + 8 + n) .ok := by
  obtain ⟨n, hroom⟩ := h.room
  refine ⟨n + (5 * run - len), ?_⟩
  rw [hroom, List.replicate_append_replicate]
  congr 1
  omega

/-- R53: its byte sink accepts the end marker. -/
theorem Encoder.Encodes.sinkAccepts_marker (h : e.Encodes) : ∃ rest, e.sinkAccepts endMarkerBytes rest := by
  obtain ⟨n, hroom⟩ := h.room
  refine ⟨List.replicate (5 * (e.eng.npix.toNat - e.eng.pix.toNat) + n) .ok, h.epos ▸ Nat.zero_le _, ?_⟩
  rw [hroom, h.epos, List.replicate_append_replicate]
  congr 1
  have hlen : endMarkerBytes.length = 8 := rfl
  omega

/-- R54, R213: it can go on. -/
theorem Encoder.Encodes.canRun (h : e.Encodes) : e.canRun = true := by
  obtain ⟨i, hs⟩ := h.selects
  obtain ⟨n, hroom⟩ := h.room
  simp [Encoder.canRun, h.busy, hs, hroom]

/-- R150, R151: with pixels left, the selection is for the pixel at `ECUR`. -/
theorem Encoder.Encodes.chunk (h : e.Encodes) (hn : e.eng.pix.toNat < e.eng.npix.toNat) :
    ∃ px i, e.srcPixel 0 = some px ∧ e.selectFor px = .unit i := by
  obtain ⟨px, hp⟩ := Option.ne_none_iff_exists'.mp (h.answered _ hn)
  obtain ⟨i, hs⟩ := h.selects
  exact ⟨px, i, hp, (Encoder.select_eq hn hp).symm.trans hs⟩

variable {px : Pixel}

/-- R164: it emits the selected chunk whole and commits it, with room left as before. -/
theorem Encoder.Encodes.committed (h : e.Encodes) (hn : e.eng.pix.toNat < e.eng.npix.toNat) (hp : e.srcPixel 0 = some px)
    (hs : e.selectFor px = .unit i) : ∃ n, e.Committed e.turn px (chunkRun i) (chunkOp i) (encode i)
      (List.replicate (5 * (e.eng.npix.toNat - (e.eng.pix.toNat + chunkRun i)) + 8 + n) .ok) := by
  obtain ⟨hi, hlo, hhi, hfit⟩ := h.inv.selectFor_fits hn hs
  obtain ⟨n, hroom⟩ := h.sinkAccepts (encode_length_le hi) hlo hfit
  refine ⟨n, Encoder.turn_committed h.busy hp ((Encoder.select_eq hn hp).trans hs) hi (hhi.trans_lt (by decide)) hfit ?_⟩
  rw [Encoder.sinkAccepts, h.epos]
  exact ⟨Nat.zero_le _, hroom⟩

/-- After its turn it is between two units again. -/
theorem Encoder.Encodes.turn (h : e.Encodes) (hn : e.eng.pix.toNat < e.eng.npix.toNat) (hp : e.srcPixel 0 = some px)
    (hs : e.selectFor px = .unit i) : e.turn.Encodes := by
  obtain ⟨n, hcommitted⟩ := h.committed hn hp hs
  exact {
    inv := h.inv.turn
    busy := hcommitted.state.1
    epos := hcommitted.hidden.2
    answered := by rw [hcommitted.eng.npix, hcommitted.source]; exact h.answered
    room := ⟨n, by rw [hcommitted.answers, hcommitted.eng.npix, hcommitted.eng.cursor]⟩ }

end

/-- The rest of an encoder's session, its bytes and the encoder after it: chunks for the pixels that are left, then the end
marker. -/
inductive Encoder.Emits : Encoder → List Byte → Encoder → Prop where
  | marker {e : Encoder} (h : e.Encodes) (hall : e.eng.pix = e.eng.npix) : Emits e endMarkerBytes e.turn
  | chunk {e t : Encoder} {px : Pixel} {i : Instr} {bytes : List Byte} (h : e.Encodes)
    (hn : e.eng.pix.toNat < e.eng.npix.toNat) (hp : e.srcPixel 0 = some px) (hs : e.selectFor px = .unit i)
    (hrest : Emits e.turn bytes t) : Emits e (encode i ++ bytes) t

/-- R168: each chunk consumes a pixel at least, so the session comes to its end. -/
theorem Encoder.Encodes.emits {e : Encoder} (h : e.Encodes) : ∃ bytes t, e.Emits bytes t := by
  induction hleft : e.eng.npix.toNat - e.eng.pix.toNat using Nat.strong_induction_on generalizing e with
  | h left ih =>
    by_cases hn : e.eng.pix.toNat < e.eng.npix.toNat
    · obtain ⟨px, i, hp, hs⟩ := h.chunk hn
      obtain ⟨n, hcommitted⟩ := h.committed hn hp hs
      obtain ⟨-, hlo, -, -⟩ := h.inv.selectFor_fits hn hs
      have hcursor := hcommitted.eng.cursor
      obtain ⟨bytes, t, hrest⟩ := ih _ (by rw [hcommitted.eng.npix]; omega) (h.turn hn hp hs) rfl
      exact ⟨_, t, .chunk h hn hp hs hrest⟩
    · exact ⟨_, _, .marker h (BitVec.eq_of_toNat_eq (Nat.le_antisymm h.inv.eng.cursor (Nat.le_of_not_lt hn)))⟩

/-- R150, R166, R53: the session ends DONE with its bytes in the sink, and the encoder runs through it by itself while the decoder
beside it has nothing to do. -/
theorem Encoder.Emits.runs {e t : Encoder} {bytes : List Byte} (h : e.Emits bytes t) (policy : RunOvershoot) {d : Decoder}
    (hd : d.canRun = false) : t.eng.st = .done ∧ t.sink = e.sink ++ bytes ∧
      ∀ turn, Runs (pairState policy turn d e) (pairState policy (.enc 0) d t) := by
  induction h with
  | marker h hall =>
    obtain ⟨rest, hsink⟩ := h.sinkAccepts_marker
    have hturn := Encoder.turn_of_marker h.busy (Encoder.select_end (by rw [hall])) hsink
    refine ⟨by rw [hturn], by rw [hturn, h.epos, List.drop_zero], fun turn => ?_⟩
    exact .step (step_pairState_enc h.canRun hd) (.refl _)
  | chunk h hn hp hs _ ih =>
    obtain ⟨n, hcommitted⟩ := h.committed hn hp hs
    obtain ⟨hdone, hbytes, hruns⟩ := ih
    refine ⟨hdone, ?_, fun turn => .step (step_pairState_enc h.canRun hd) (hruns _)⟩
    rw [hbytes, hcommitted.sink, h.epos, List.drop_zero, List.append_assoc]

/-! ## The decoder's session on those bytes (R122 to R131) -/

/-- A decoder between two chunks once it has read the bytes of chunk `i`, with `more` left in its byte source (R122). -/
def Decoder.withChunk (i : Instr) (more : List ReadAnswer) (d : Decoder) : Decoder :=
  { d with
    eng := { d.eng with bytes := d.eng.bytes + BitVec.ofNat 64 (encode i).length }
    chunkBuf := encode i
    source := more }

section

variable {d : Decoder} {i : Instr} {more : List ReadAnswer}

/-- R122, R129: the turn of a decoder between two chunks when its byte source spells a chunk inside the image and its pixel sink
answers for the chunk's pixels. -/
theorem Decoder.turn_committed (policy : RunOvershoot) (hb : d.eng.st = .busy) (hn : d.eng.pix.toNat < d.eng.npix.toNat)
    (hbuf : d.chunkBuf = []) (hexp : d.expanded = none) (hwf : i.wf = true) (hi : i ≠ .endMarker)
    (hsrc : d.source = (encode i).map .byte ++ more) (hfit : d.eng.pix.toNat + chunkRun i ≤ d.eng.npix.toNat)
    (hans : chunkRun i ≤ d.pixelAnswers) :
    (d.withChunk i more).Committed (d.turn policy) (chunkPixel i (d.withChunk i more).eng) (chunkRun i) (chunkOp i)
      i.byteLength := by
  have hfetch : d.fetch fetchFuel = .chunk i (d.withChunk i more) :=
    Decoder.fetch_of_complete hwf hi (by rw [hbuf, List.nil_append]) hsrc
  have hneeded : d.needed (chunkRun i) = chunkRun i := by rw [Decoder.needed]; omega
  have hcommitted := Decoder.commit_committed (d := d.withChunk i more) policy (chunkPixel i (d.withChunk i more).eng)
    (chunkRun i) (chunkOp i) i.byteLength ((chunkRun_range hwf).2.trans_lt (by decide)) (byteLength_lt_eight hi) hb hn hexp
    (hneeded.trans_le hans) (.inr hfit)
  have hrun : (d.withChunk i more).runChunk policy i = _ := Decoder.whileBusy_of_busy (d := d.withChunk i more) _ hb hn
  rw [show (d.withChunk i more).needed (chunkRun i) = chunkRun i from hneeded, ← hrun] at hcommitted
  rw [Decoder.turn, if_neg (by simp [hb]), if_pos (by simp [Decoder.needsPixels, hn]), hfetch]
  exact hcommitted

end

/-- A decoder between two chunks that has decoded what the encoder has emitted so far (R170): its registers agree with the
encoder's, the pixels consumed are in its sink, and its pixel sink answers for those that are left. -/
structure Decoder.Follows (d : Decoder) (e : Encoder) : Prop where
  agrees : d.eng.Agrees e.eng
  chunkBuf : d.chunkBuf = []
  expanded : d.expanded = none
  busy : e.eng.pix ≠ e.eng.npix → d.eng.st = .busy
  done : e.eng.pix = e.eng.npix → d.eng.st = .done
  answers : e.eng.npix.toNat - e.eng.pix.toNat ≤ d.pixelAnswers
  written : ∀ p < e.eng.pix.toNat, Memory.read d.sink p = Memory.read e.source p

section

variable {d : Decoder} {e : Encoder} {px : Pixel} {i : Instr} {more : List ReadAnswer}

/-- R122, R131: with pixels left, its session runs. -/
theorem Decoder.Follows.busy_of_lt (h : d.Follows e) (hn : e.eng.pix.toNat < e.eng.npix.toNat) : d.eng.st = .busy :=
  h.busy fun hall => hn.ne (congrArg BitVec.toNat hall)

/-- R170: when the encoder emits a chunk and the decoder reads it, the decoder follows again. -/
theorem Decoder.Follows.turn (h : d.Follows e) (policy : RunOvershoot) (he : e.Encodes)
    (hn : e.eng.pix.toNat < e.eng.npix.toNat) (hp : e.srcPixel 0 = some px) (hs : e.selectFor px = .unit i)
    (hsrc : d.source = (encode i).map .byte ++ more) :
    (d.turn policy).Follows e.turn ∧ (d.turn policy).source = more := by
  obtain ⟨hi, -, -, hfit⟩ := he.inv.selectFor_fits hn hs
  obtain ⟨n, hE⟩ := he.committed hn hp hs
  have hread : (d.withChunk i more).eng.Agrees e.eng := ⟨h.agrees.prev, h.agrees.cache, h.agrees.pix, h.agrees.npix⟩
  have hans := h.answers
  have hD := Decoder.turn_committed policy (h.busy_of_lt hn) (by rwa [h.agrees.pix, h.agrees.npix]) h.chunkBuf h.expanded
    (he.inv.wf_of_selectFor hn hs) hi hsrc (by rwa [h.agrees.pix, h.agrees.npix]) (by omega)
  rw [hread.chunkPixel_selected hs] at hD
  have hagrees := hread.committed hD.eng hE.eng
  have hpixels := hD.read_sink_eq_srcPixel (he.inv.selected_pixels hn hp hs)
  have hcursor := hE.eng.cursor
  refine ⟨{
    agrees := hagrees
    chunkBuf := hD.chunkBuf
    expanded := hD.expanded
    busy := fun hne => (hD.goOn (by rwa [hagrees.pix, hagrees.npix])).1
    done := fun heq => (hD.stop (by rwa [hagrees.pix, hagrees.npix])).1
    answers := ?answers
    written := ?written }, hD.source⟩
  case answers =>
    rw [hD.pixelAnswers, hE.eng.npix, hcursor]
    show _ ≤ d.pixelAnswers - _
    omega
  case written =>
    intro p hlt
    rw [hE.source]
    by_cases hold : p < e.eng.pix.toNat
    · rw [hD.kept p (.inl (by rwa [hread.pix]))]
      exact h.written p hold
    · obtain ⟨j, rfl⟩ := Nat.exists_eq_add_of_le (Nat.le_of_not_lt hold)
      rw [← hread.pix, hpixels j (by omega), hread.pix]
      rfl

/-- R52, R213: it can go on when a chunk's bytes are next in its byte source. -/
theorem Decoder.Follows.canRun (h : d.Follows e) (hn : e.eng.pix.toNat < e.eng.npix.toNat)
    (hsrc : d.source = (encode i).map .byte ++ more) : d.canRun = true := by
  have hb := h.busy_of_lt hn
  have hne : encode i ≠ [] := List.ne_nil_of_length_pos (encode_length_pos i)
  simp [Decoder.canRun, hb, h.expanded, hsrc, hne]

end

/-- R170, R131: a decoder that follows runs through the bytes of the rest of the session by itself, while the encoder beside it has
nothing to do, and ends DONE with every pixel of the encoder's source in its sink. -/
theorem Encoder.Emits.decodes {e t : Encoder} {bytes : List Byte} (h : e.Emits bytes t) (policy : RunOvershoot) {idle : Encoder}
    (hidle : idle.canRun = false) {d : Decoder} (hd : d.Follows e) {more : List ReadAnswer}
    (hsrc : d.source = bytes.map .byte ++ more) (turn : Agent) :
    ∃ u turn', Runs (pairState policy turn d idle) (pairState policy turn' u idle) ∧ u.eng.st = .done ∧
      ∀ p < e.eng.npix.toNat, Memory.read u.sink p = Memory.read e.source p := by
  induction h generalizing d turn with
  | marker h hall => exact ⟨d, turn, .refl _, hd.done hall, by rw [← hall]; exact hd.written⟩
  | chunk h hn hp hs _ ih =>
    rw [List.map_append, List.append_assoc] at hsrc
    obtain ⟨hnext, hrest⟩ := hd.turn policy h hn hp hs hsrc
    obtain ⟨n, hE⟩ := h.committed hn hp hs
    obtain ⟨u, turn', hruns, hdone, hread⟩ := ih hnext hrest (.dec 0)
    refine ⟨u, turn', .step (step_pairState_dec (hd.canRun hn hsrc) hidle) hruns, hdone, ?_⟩
    rwa [hE.eng.npix, hE.source] at hread

/-! ## The scripts (R202, R203) -/

/-- The encoder after the host's encode script. -/
def Encoder.scripted (w h : Word32) (pixels : List (Nat × Pixel)) (room : Nat) : Encoder :=
  Encoder.start { Encoder.powerOn with
    eng := { Engine.powerOn with width := w, height := h }
    source := Memory.ofCells pixels
    answers := List.replicate room .ok
    sink := encodeHeader w h }

/-- The decoder at START in the host's decode script, for a stream of these bytes after the header. -/
def Decoder.opened (w h : Word32) (bytes : List Byte) : Decoder :=
  { Decoder.powerOn with
    eng := Engine.startSession { Engine.powerOn with width := w, height := h }
    source := bytes.map .byte ++ [.exhausted]
    pixelAnswers := w.toNat * h.toNat }

/-- R203: the six actions of the encode script, one step each. -/
theorem runs_encodeScript (policy : RunOvershoot) (w h : Word32) (pixels : List (Nat × Pixel)) (room : Nat) :
    Runs { State.resetWith 1 1 policy with agenda := encodeScript 0 w h pixels room }
      (pairState policy (.dec 0) Decoder.powerOn (Encoder.scripted w h pixels room)) :=
  .step rfl (.step rfl (.step rfl (.step rfl (.step rfl (.step rfl (.refl _))))))

/-- R202: the decode script accepts a stream with the host's own header, and its six actions are one step each. -/
theorem runs_decodeScript (acceptZero : Bool) (policy : RunOvershoot) (w h : Word32) (bytes : List Byte) :
    ∃ script, decodeScript acceptZero 0 (encodeHeader w h ++ bytes) = .ok script ∧
      Runs { State.resetWith 1 1 policy with agenda := script }
        (pairState policy (.dec 0) (Decoder.opened w h bytes).stopTest Encoder.powerOn) := by
  rw [decodeScript, decodeHeader_encodeHeader]
  exact ⟨_, rfl, .step rfl (.step rfl (.step rfl (.step rfl (.step rfl (.step rfl (.refl _))))))⟩

section

variable {w h : Word32} {pixels : List (Nat × Pixel)} {room : Nat}

/-- R33, R201: NPIX in the session that the encode script starts. -/
theorem Encoder.scripted_npix : (Encoder.scripted w h pixels room).eng.npix.toNat = w.toNat * h.toNat := npix_toNat w h

/-- After the encode script the encoder is at the start of its session. -/
theorem Encoder.encodes_scripted (hall : ∀ p < w.toNat * h.toNat, Memory.read (Memory.ofCells pixels) p ≠ none) :
    (Encoder.scripted w h pixels (5 * (w.toNat * h.toNat) + 8)).Encodes where
  inv := Encoder.inv_between_units (Engine.inv_powerOn.withExtent nofun w h).startSession (Memory.ofCells_wf pixels) rfl rfl
    nofun (.inl rfl)
  busy := rfl
  epos := rfl
  answered := by rw [Encoder.scripted_npix]; exact hall
  room := ⟨0, by rw [Encoder.scripted_npix]; rfl⟩

/-- R131, R201: the decode script leaves the decoder at the start of its session, or, for an empty image, at its end. -/
theorem Decoder.follows_opened (bytes : List Byte) :
    (Decoder.opened w h bytes).stopTest.Follows (Encoder.scripted w h pixels room) := by
  have hanswers : (Encoder.scripted w h pixels room).eng.npix.toNat - 0 ≤ w.toNat * h.toNat := Encoder.scripted_npix.le
  rcases (Decoder.opened w h bytes).stopTest_cases with ⟨hlt, hstop⟩ | ⟨hge, hstop⟩ <;> rw [hstop]
  · exact {
      agrees := ⟨rfl, rfl, rfl, rfl⟩, chunkBuf := rfl, expanded := rfl, busy := fun _ => rfl, answers := hanswers
      done := fun hall => absurd (congrArg BitVec.toNat hall) hlt.ne
      written := nofun }
  · exact {
      agrees := ⟨rfl, rfl, rfl, rfl⟩, chunkBuf := rfl, expanded := rfl, done := fun _ => rfl, answers := hanswers
      busy := fun hne => absurd (BitVec.eq_of_toNat_eq (Nat.le_antisymm (Nat.zero_le _) hge)) hne
      written := nofun }

/-- R202: the stream is in the byte source. -/
theorem Decoder.source_opened (bytes : List Byte) :
    (Decoder.opened w h bytes).stopTest.source = bytes.map .byte ++ [.exhausted] := by
  rcases (Decoder.opened w h bytes).stopTest_cases with ⟨-, hstop⟩ | ⟨-, hstop⟩ <;> rw [hstop] <;> rfl

end

end Sys2Proof.Machine

section

open Sys2Proof Sys2Proof.Machine

/-- Settles O55: the encoder's session is a list of chunks and the end marker, and the decoder follows it chunk by chunk. -/
theorem roundTripIsIdentity : Obligations.RoundTripIsIdentity := by
  intro w h pixels acceptZero policy hall
  have hstart := Encoder.encodes_scripted hall
  obtain ⟨bytes, e, hemits⟩ := hstart.emits
  obtain ⟨hdoneE, hsink, hrunsE⟩ := hemits.runs policy (d := Decoder.powerOn) rfl
  obtain ⟨script, haccepted, hscript⟩ := runs_decodeScript acceptZero policy w h bytes
  obtain ⟨d, turn, hrunsD, hdoneD, hread⟩ := hemits.decodes policy (idle := Encoder.powerOn) rfl (Decoder.follows_opened bytes)
    (Decoder.source_opened bytes) (.dec 0)
  obtain ⟨m, hm⟩ := (runs_encodeScript policy w h pixels _).trans (hrunsE _)
  obtain ⟨m', hm'⟩ := hscript.trans hrunsD
  rw [Encoder.scripted_npix] at hread
  exact ⟨m, _, e, hm, rfl, hdoneE, script, m', _, d, hsink ▸ haccepted, hm', rfl, hdoneD, hread⟩

end
end

section
/-! PROOF. Outside a session nothing reaches an instance but the host, and the turns of two instances do not depend on their order
(R65, R189, R193). -/

namespace Sys2Proof.Machine

/-! ## Quiescence (R193) -/

/-- R193: outside a session every instruction means to a decoder that it stays as it is (log entry 20). -/
theorem Decoder.meaning_of_not_busy {d : Decoder} (hb : d.eng.st ≠ .busy) (policy : RunOvershoot) (i : Instr) :
    Decoder.meaning policy i d = .ok d := by
  have hchunk : d.runChunk policy i = d := if_pos hb
  cases i with
  | endMarker => exact if_pos hb
  | rgb | rgba | index | diff | luma | run => exact congrArg Except.ok hchunk

/-- R193: outside a session every instruction means to an encoder that it stays as it is (log entry 20). -/
theorem Encoder.meaning_of_not_busy {e : Encoder} (hb : e.eng.st ≠ .busy) (i : Instr) : Encoder.meaning i e = .ok e := by
  cases i with
  | endMarker | rgb | rgba | index | diff | luma | run => exact if_pos hb

/-! ## Turns in either order (R65, R189) -/

/-- R189: the block after a turn of instance `a`, but for the model's record of whose turn it is and what happens next: that
instance's turn, and every other instance as it was. -/
def State.afterTurn (a : Agent) (s : State) : State :=
  match a with
  | .dec k => { s with decs := s.decs.modify k (Decoder.turn s.overshoot) }
  | .enc k => { s with encs := s.encs.modify k Encoder.turn }

/-- An element that a list has becomes its image under `f`, the others stay. -/
theorem set_eq_modify_of_getElem? {α : Type} {l : List α} {k : Nat} {x : α} (h : l[k]? = some x) (f : α → α) :
    l.set k (f x) = l.modify k f := by
  rw [List.modify_eq_set_getElem?, h]
  rfl

section

variable {s t : State} {a b : Agent}

/-- R189: a turn on the agenda that answers a next state has made this one of the block. -/
theorem eq_afterTurn_of_step {agenda : List Action} (ha : s.agenda = .turn a :: agenda) (h : step s = .next t) :
    t = { s.afterTurn a with agenda := agenda, turn := a } := by
  rw [step_turn ha] at h
  rcases planTurn_next h with ⟨k, d, rfl, hd, rfl⟩ | ⟨k, e, rfl, he, rfl⟩
  · simp only [State.setDec, State.afterTurn, set_eq_modify_of_getElem? hd]
  · simp only [State.setEnc, State.afterTurn, set_eq_modify_of_getElem? he]

/-- A turn makes the same of the block whatever the model's record says. -/
theorem State.afterTurn_withControl (s : State) (a : Agent) (agenda : List Action) (turn : Agent) :
    State.afterTurn a { s with agenda := agenda, turn := turn } = { s.afterTurn a with agenda := agenda, turn := turn } := by
  cases a <;> rfl

/-- R189: what the turns of two instances, one after the other, have made of the block. -/
theorem eq_afterTurn_afterTurn_of_run (h : Host.Core.run core 2 { s with agenda := [.turn a, .turn b] } = .next t) :
    t = { (s.afterTurn a).afterTurn b with agenda := [], turn := b } := by
  obtain ⟨m, hfirst, hrest⟩ := run_succ_next h
  obtain ⟨_, hsecond, hend⟩ := run_succ_next hrest
  cases hend
  obtain rfl := eq_afterTurn_of_step rfl hfirst
  rw [eq_afterTurn_of_step rfl hsecond]
  simp only [State.afterTurn_withControl]

/-- R65, R189: the turns of two different instances commute. Two of one kind are two places of one list, two of different kinds
are in two lists. -/
theorem State.afterTurn_comm (hne : a ≠ b) (s : State) : (s.afterTurn a).afterTurn b = (s.afterTurn b).afterTurn a := by
  cases a with
  | dec j =>
    cases b with
    | dec k =>
      have hjk : j ≠ k := fun h => hne (congrArg Agent.dec h)
      simp only [State.afterTurn, List.modify_modify_ne _ _ _ hjk]
    | enc k => rfl
  | enc j =>
    cases b with
    | dec k => rfl
    | enc k =>
      have hjk : j ≠ k := fun h => hne (congrArg Agent.enc h)
      simp only [State.afterTurn, List.modify_modify_ne _ _ _ hjk]

end

end Sys2Proof.Machine

section

open Sys2Proof Sys2Proof.Machine

/-- Settles O27: an instruction answers its meaning on the instance whose turn it is, and that is the instance itself. -/
theorem execLeavesQuiescentInstance : Obligations.ExecLeavesQuiescentInstance := by
  refine ⟨fun s k d i ht hd hb => ?_, fun s k e i ht he hb => ?_⟩ <;> rw [exec_eq_onTurn]
  · rw [State.onTurn_dec ht hd, Decoder.meaning_of_not_busy hb, State.answerDec, State.setDec_of_getElem? hd]
  · rw [State.onTurn_enc ht he, Encoder.meaning_of_not_busy hb, State.answerEnc, State.setEnc_of_getElem? he]

/-- Settles O32: the turn puts the instance back as it was. -/
theorem quiescentInstanceKeepsState : Obligations.QuiescentInstanceKeepsState := by
  constructor
  · intro s k d agenda ha hd hb
    rw [step_turn_dec ha hd, Decoder.turn_of_not_busy s.overshoot hb, set_of_getElem? hd]
  · intro s k e agenda ha he hb
    rw [step_turn_enc ha he, Encoder.turn_of_not_busy hb, set_of_getElem? he]

/-- Settles O50: either run has taken both turns, and turns of different instances commute. -/
theorem turnsOfTwoInstancesCommute : Obligations.TurnsOfTwoInstancesCommute := by
  intro s t u a b hne ht hu
  rw [eq_afterTurn_afterTurn_of_run ht, eq_afterTurn_afterTurn_of_run hu, State.afterTurn_comm hne]
  exact ⟨rfl, rfl⟩

end
end

section
/-! PROOF. The host's actions on the four collaborators, and the grid that a list of cells describes (R50, R52 to R55, R67,
R191). -/

namespace Sys2Proof.Machine

/-! ## Grids of cells -/

/-- One cell more is one more write. -/
theorem Memory.ofCells_concat (cells : List (Nat × Pixel)) (c : Nat × Pixel) :
    Memory.ofCells (cells ++ [c]) = Memory.write (Memory.ofCells cells) c.1 c.2 :=
  List.foldl_concat _ _ _ _

/-- Cells of other positions, listed later, leave a position as it was. -/
theorem Memory.read_ofCells_append {p : Nat} (cells : List (Nat × Pixel)) :
    ∀ after : List (Nat × Pixel), (∀ c ∈ after, c.1 ≠ p) →
      Memory.read (Memory.ofCells (cells ++ after)) p = Memory.read (Memory.ofCells cells) p := by
  intro after
  induction after generalizing cells with
  | nil => rw [List.append_nil]; exact fun _ => rfl
  | cons c after ih =>
    intro hother
    obtain ⟨hc, hafter⟩ := List.forall_mem_cons.mp hother
    rw [List.append_cons, ih _ hafter, Memory.ofCells_concat, Memory.read_write, if_neg hc.symm]

/-- The last cell of a position gives its pixel. -/
theorem Memory.read_ofCells_last {p : Nat} (px : Pixel) (before : List (Nat × Pixel)) {after : List (Nat × Pixel)}
    (hlast : ∀ c ∈ after, c.1 ≠ p) : Memory.read (Memory.ofCells (before ++ (p, px) :: after)) p = some px := by
  rw [List.append_cons, Memory.read_ofCells_append _ after hlast, Memory.ofCells_concat, Memory.read_write, if_pos rfl]

/-- A position with a cell holds a pixel. -/
theorem Memory.exists_read_of_mem {g : Memory} {c : Nat × Pixel} (h : c ∈ g) : ∃ px, Memory.read g c.1 = some px := by
  induction g with
  | nil => cases h
  | cons b g ih =>
    rw [Memory.read]
    by_cases hpos : c.1 = b.1
    · exact ⟨b.2, if_pos hpos⟩
    · rw [if_neg hpos]
      exact ih ((List.mem_cons.mp h).resolve_left fun heq => hpos (congrArg Prod.fst heq))

/-- R67: a grid that answers every given position as before is an extension. -/
theorem Memory.extendedBy_of_read {g g' : Memory}
    (h : ∀ p px, Memory.read g p = some px → Memory.read g' p = some px) : Memory.extendedBy g g' = true := by
  refine List.all_eq_true.mpr fun c hc => beq_iff_eq.mpr ?_
  obtain ⟨px, hpx⟩ := Memory.exists_read_of_mem hc
  rw [hpx, h _ _ hpx]

/-! ## What the actions do -/

/-- R54, R67: when the pixel source is accepted. -/
theorem Encoder.provideSource_of_kept {e : Encoder} {cells : List (Nat × Pixel)}
    (h : e.eng.st ≠ .busy ∨ ∀ p px, Memory.read e.source p = some px → Memory.read (Memory.ofCells cells) p = some px) :
    e.provideSource cells = .ok { e with source := Memory.ofCells cells } := by
  refine if_neg fun ⟨hb, hchanged⟩ => ?_
  rcases h with hquiet | hkept
  · exact hquiet hb
  · exact Bool.false_ne_true (hchanged.symm.trans (Memory.extendedBy_of_read hkept))

section

variable {s : State} {k : Nat}

/-- R191: an action on decoder `k`'s collaborator replaces that decoder and nothing else. -/
theorem State.hostDec_ok {d d' : Decoder} {f : Decoder → Except Refusal Decoder} (hd : s.decs[k]? = some d) (hf : f d = .ok d') :
    s.hostDec k f = .next (s.setDec k d') := by
  simp only [State.hostDec, hd, hf, State.answerDec]

/-- R191: an action on encoder `k`'s collaborator replaces that encoder and nothing else. -/
theorem State.hostEnc_ok {e e' : Encoder} {f : Encoder → Except Refusal Encoder} (he : s.encs[k]? = some e) (hf : f e = .ok e') :
    s.hostEnc k f = .next (s.setEnc k e') := by
  simp only [State.hostEnc, he, hf, State.answerEnc]

/-- R20: an action on the collaborator of a decoder that the block does not have (log entry 11). -/
theorem State.hostDec_none {f : Decoder → Except Refusal Decoder} (hd : s.decs[k]? = none) :
    s.hostDec k f = .fault .noSuchInstance := by
  simp only [State.hostDec, hd]

/-- R20: an action on the collaborator of an encoder that the block does not have (log entry 11). -/
theorem State.hostEnc_none {f : Encoder → Except Refusal Encoder} (he : s.encs[k]? = none) :
    s.hostEnc k f = .fault .noSuchInstance := by
  simp only [State.hostEnc, he]

end

end Sys2Proof.Machine

section

open Sys2Proof Sys2Proof.Machine

/-- Settles O60: each action is a change of one decoder or of one encoder, and a grid of cells is read by its last cell. -/
theorem collaboratorActionsSetOneCollaborator : Obligations.CollaboratorActionsSetOneCollaborator := by
  refine ⟨fun s k d agenda hd => ?_, fun s k e agenda he => ?_, fun s k act agenda ha habsent => ?_, fun cells => ?_⟩
  · refine ⟨fun answers ha => ?_, fun cells ha => ?_, fun n ha => ?_⟩ <;>
      exact (step_hostAction ha nofun).trans (State.hostDec_ok hd rfl)
  · refine ⟨fun cells ha hkept => ?_, fun answers ha => ?_, fun contents ha => ?_⟩
    · exact (step_hostAction ha nofun).trans (State.hostEnc_ok he (Encoder.provideSource_of_kept hkept))
    · exact (step_hostAction ha nofun).trans (State.hostEnc_ok he rfl)
    · exact (step_hostAction ha nofun).trans (State.hostEnc_ok he rfl)
  · rcases habsent with ⟨hd, hact⟩ | ⟨he, hact⟩
    · obtain ⟨_, rfl⟩ | ⟨_, rfl⟩ | ⟨_, rfl⟩ := hact <;> exact (step_hostAction ha nofun).trans (State.hostDec_none hd)
    · obtain ⟨_, rfl⟩ | ⟨_, rfl⟩ | ⟨_, rfl⟩ := hact <;> exact (step_hostAction ha nofun).trans (State.hostEnc_none he)
  · refine ⟨Memory.ofCells_wf cells, ?_, fun p => Memory.read_ofCells_append [] cells⟩
    rintro before after p px rfl hlast
    exact Memory.read_ofCells_last px before hlast

end
end

section
/-! PROOF. With nothing on the agenda, an instance that can go on takes its turn (R193, R213). -/

namespace Sys2Proof.Machine

section

variable {s : State} {a : Agent}

/-- R213: nobody is picked exactly when no instance has something to do. -/
theorem State.pick_eq_none_iff : s.pick = none ↔ ∀ a, s.canRun a = false := by
  rw [State.pick, List.find?_eq_none]
  refine ⟨fun hnone a => Bool.eq_false_iff.mpr fun hcan => ?_, fun hwait a _ => Bool.eq_false_iff.mp (hwait a)⟩
  exact hnone a (List.mem_cons_of_mem _ (State.mem_agents_of_canRun hcan)) hcan

/-- R213: whoever is picked has something to do. -/
theorem State.canRun_of_pick (hpick : s.pick = some a) : s.canRun a = true := List.find?_some hpick

/-- R193: with nothing on the agenda and nobody picked, the block stays as it is. -/
theorem step_of_pick_none (ha : s.agenda = []) (hpick : s.pick = none) : step s = .next s := by
  rw [step, State.plan, ha, hpick]
  rfl

/-- R213: with nothing on the agenda, the picked instance takes its turn, as if that turn stood there. -/
theorem step_of_pick (ha : s.agenda = []) (hpick : s.pick = some a) : step s = step { s with agenda := [.turn a] } := by
  have hs : { s with agenda := [] } = s := by rw [← ha]
  rw [step_turn (s := { s with agenda := [.turn a] }) rfl, hs, step, State.plan, ha, hpick]

end

end Sys2Proof.Machine

section

open Sys2Proof Sys2Proof.Machine

/-- Settles O31: an instance that can go on is one of the block's, so the search for one finds it or another that can. -/
theorem idleAgendaRunsAReadyInstance : Obligations.IdleAgendaRunsAReadyInstance := by
  refine fun s ha => ⟨fun hwait => step_of_pick_none ha (State.pick_eq_none_iff.mpr hwait), fun a hcan => ?_⟩
  cases hpick : s.pick with
  | none => exact absurd hcan (Bool.eq_false_iff.mp (State.pick_eq_none_iff.mp hpick a))
  | some b => exact ⟨b, State.canRun_of_pick hpick, step_of_pick ha hpick⟩

end
end

section
/-! PROOF. START on a decoder with an image that is not empty, and on an encoder (R31, R33, R37, R201). -/

namespace Sys2Proof.Machine

/-- R131, R201: the stop test of START passes when the image has pixels. -/
theorem Decoder.start_of_nonempty {d : Decoder} (hpixels : d.eng.width.toNat * d.eng.height.toNat ≠ 0) :
    d.start = { d with eng := d.eng.startSession, chunkBuf := [], expanded := none } := by
  have hnpix : d.eng.startSession.npix.toNat ≠ 0 := (npix_toNat d.eng.width d.eng.height).trans_ne hpixels
  rcases Decoder.stopTest_cases { d with eng := d.eng.startSession, chunkBuf := [], expanded := none } with
    ⟨-, hstop⟩ | ⟨hle, -⟩
  · exact hstop
  · exact absurd (Nat.le_zero.mp hle) hnpix

end Sys2Proof.Machine

section

open Sys2Proof Sys2Proof.Machine

/-- Settles O38: the stop test of START passes, and the registers are those of `Engine.startSession`. -/
theorem startBeginsDecoderSession : Obligations.StartBeginsDecoderSession := by
  intro s k d agenda v ha hd hb hbit hpixels
  have hstart : d.eng.isStart 0 v = true := Engine.isStart_iff.mpr ⟨rfl, hbit, hb⟩
  refine ⟨_, step_regWrite_dec ha hd rfl, ?_⟩
  rw [Decoder.writeReg_of_start hstart, Decoder.start_of_nonempty hpixels]
  exact ⟨npix_toNat _ _, Engine.cacheRead_fresh rfl, rfl, rfl, rfl, rfl, rfl, rfl, rfl, rfl, rfl, rfl, rfl, rfl, rfl⟩

/-- Settles O40: an encoder's START makes no stop test, so the extent does not matter. -/
theorem startBeginsEncoderSession : Obligations.StartBeginsEncoderSession := by
  intro s k e agenda v ha he hb hbit
  have hstart : e.eng.isStart 0 v = true := Engine.isStart_iff.mpr ⟨rfl, hbit, hb⟩
  refine ⟨_, step_regWrite_enc ha he rfl, ?_⟩
  rw [Encoder.writeReg_of_start hstart]
  exact ⟨npix_toNat _ _, Engine.cacheRead_fresh rfl, rfl, rfl, rfl, rfl, rfl, rfl, rfl, rfl, rfl, rfl, rfl, rfl, rfl⟩

end
end

section
/-! PROOF. What power-on reset leaves (R30, R37, R186, R200). -/

namespace Sys2Proof.Machine

/-- R186: `done_o` is low after power-on reset. -/
@[simp] theorem Engine.resetPower_doneO (e : Engine) : e.resetPower.doneO = false := rfl

/-- R32: STATUS after power-on reset, the codes of IDLE and of no error. -/
@[simp] theorem Engine.resetPower_statusWord (e : Engine) : e.resetPower.statusWord = 0 :=
  BitVec.eq_of_toNat_eq e.resetPower.statusWord_toNat

/-- R30, R200: every register reads 0 after power-on reset. -/
@[simp] theorem Engine.resetPower_readReg (e : Engine) (offset : Nat) : e.resetPower.readReg offset = 0 := by
  unfold Engine.readReg
  split <;> simp

section

variable {s : State} {e : Engine}

/-- R200: power-on reset, as a step. -/
theorem step_powerOn {agenda : List Action} (ha : s.agenda = .powerOn :: agenda) :
    step s = .next (State.powerOn { s with agenda := agenda }) :=
  step_hostAction ha nofun

/-- R200: the registers of every instance after power-on reset are some registers reset. -/
theorem State.engine_of_powerOn (h : (∃ d ∈ s.powerOn.decs, d.eng = e) ∨ ∃ n ∈ s.powerOn.encs, n.eng = e) :
    ∃ old : Engine, e = old.resetPower := by
  rcases h with ⟨_, hmem, rfl⟩ | ⟨_, hmem, rfl⟩ <;> obtain ⟨old, -, rfl⟩ := List.mem_map.mp hmem <;> exact ⟨old.eng, rfl⟩

end

end Sys2Proof.Machine

section

open Sys2Proof Sys2Proof.Machine

/-- Settles O46: power-on reset makes every instance some instance reset, and the first state consists of such instances. -/
theorem powerOnResetValues : Obligations.PowerOnResetValues := by
  refine ⟨fun s agenda ha => ⟨_, step_powerOn ha, List.length_map _, List.length_map _, ?_, ?_, ?_⟩, rfl, rfl, rfl, rfl⟩
  · intro e he
    obtain ⟨old, rfl⟩ := State.engine_of_powerOn he
    exact ⟨rfl, rfl, rfl, rfl, rfl, rfl, rfl, rfl, Engine.cacheRead_fresh rfl, old.resetPower_doneO, old.resetPower_readReg⟩
  · intro d hd
    obtain ⟨d, -, rfl⟩ := List.mem_map.mp hd
    exact ⟨rfl, rfl⟩
  · intro n hn
    obtain ⟨n, -, rfl⟩ := List.mem_map.mp hn
    exact ⟨rfl, rfl⟩

end
end
